-- ==== Sys2Proof/Word.lean ====
section
/-! DEFINITION. The word types of the block and its plainest arithmetic (spec/00_scope.md section 6, R94). -/

namespace Sys2Proof

/-- A byte: 8 bits, bit 0 the least significant (00_scope section 6). -/
abbrev Byte := BitVec 8

/-- A host command word `CMD[31:0]` (30_encoding R60). -/
abbrev Word := BitVec 32

/-- `ceil8(n) = (n + 7) div 8`, the least `N` with `8*N >= n` (00_scope section 6, R94). -/
def ceil8 (n : Nat) : Nat := (n + 7) / 8

end Sys2Proof
end

