-- ==== Sys2Proof/Config.lean ====
section
/-! DEFINITION. What an implementation fixes and what the spec leaves open: the parameters of
spec/00_scope.md R5 and R6, the transport oracle of R9, and the free values of R27 (the rows
"unspecified"). An `opaque` constant has no value anything in Lean can see. -/

namespace Sys2Proof

/-- One answer of the transport to one flush that does I/O (00_scope R9). The list of response
bytes is what the remote agent puts on the RX stream for this request (log 10, log 11). -/
inductive Answer where
  /-- The whole request is accepted, and these bytes arrive on the RX stream. -/
  | bytes (obs : List Byte)
  /-- `LinkFail(k)`: the transport accepts the first `k` bytes of the request and then fails;
  `rxAfter` is what the RX stream holds afterwards (70_reset_and_hazards R200). -/
  | linkFail (k : Nat) (rxAfter : List Byte)
  /-- No answer ever: the transport accepts the first `k` bytes and then never moves again, neither on
  TX nor on RX (log 25). -/
  | never (k : Nat)
  deriving DecidableEq, Repr, Inhabited

namespace Config

/-- `CAP_BYTES - 1`, open within the bounds of R5 (D1: OPEN). -/
opaque capIndex : Fin 536870911

/-- `CAP_BYTES`, the capacity of each plane in bytes: `1 <= CAP_BYTES <= 536870911` (R5). -/
def capBytes : Nat := capIndex.val + 1

/-- The largest `CAP_BYTES` that R5 allows. -/
def maxCapBytes : Nat := 536870911

/-- The six bytes of the shift request's tag, `73 68 69 66 74 3A` (30_encoding R70; PRESUMED by
the spec itself, D3 and G1; log 2). -/
def tag : List Byte := [0x73#8, 0x68#8, 0x69#8, 0x66#8, 0x74#8, 0x3A#8]

/-- `CNT_W`, the width of WAIT's `cycle_count` in the command word (R6, R63). -/
def cntW : Nat := 24

/-- The transport's answer to the flush numbered by its argument, where `State.answers` gives none
(R9: a draw; log 10). -/
opaque answer : Nat → Answer

/-- A free number: the first argument is the draw, the second tells the registers of one draw
apart (R27 "unspecified", U6, U8; log 8). -/
opaque freeNat : Nat → Nat → Nat

/-- The free content of a storage array whose content R27 leaves unspecified: the first argument
is the draw, the second tells the arrays of one draw apart (U6, U7; log 9). -/
opaque freeCells : Nat → Nat → List Host.Cell

/-- `bitpos` of a byte that is not one-hot: the spec defines it for one-hot bytes only
(00_scope section 6; log 16). -/
opaque bitposOther : Byte → Nat

end Config
end Sys2Proof
end

