-- ==== Sys2Proof/Syntax.lean ====
section
/-! DEFINITION. The instructions: one constructor per row of spec/opcode_table.json. -/

namespace Sys2Proof

/-- The five host commands (30_encoding R61) and the one wire frame (R69). -/
inductive Instr where
  /-- SETUP: start a fresh session (R150). -/
  | setup
  /-- RECORD `tms tdi expected_tdo compare sync_now` (R62, R100). -/
  | record (tms tdi tdo compare sync : Bool)
  /-- WAIT `tms_level cycle_count` (R63, R110). The count is any natural number, as the pseudocode
  of R110 is; a command word holds 24 bits of it (log 23). -/
  | wait (tms : Bool) (count : Nat)
  /-- FLUSH (R120). -/
  | flush
  /-- SHUTDOWN (R151). -/
  | shutdown
  /-- SHIFT_REQ: the shift request, block to remote agent (R69): the bit count, the TMS section and
  the TDI section. The block sends it inside a flush; it is no host command (log 4). -/
  | shiftReq (n : Nat) (tms tdi : List Byte)
  deriving DecidableEq, Repr

end Sys2Proof
end

