-- ==== Sys2Proof/WellFormed.lean ====
section
/-! DEFINITION. Which instructions have an encoding: operand ranges of spec/30_encoding.md R62,
R63, R69, R71, R72. -/

namespace Sys2Proof

/-- R72: when `n mod 8 != 0` the bits `n mod 8` to 7 of the last byte of a section are 0. -/
def paddingIsZero (n : Nat) (sec : List Byte) : Bool :=
  n % 8 == 0 || (sec.getLastD 0#8 >>> (n % 8)) == 0#8

/-- The bit count of a shift request: `1 <= n <= CAP_BITS` (R69) for the largest capacity of R5. -/
def countInRange (n : Nat) : Bool := 1 ≤ n && n ≤ 8 * Config.maxCapBytes

/-- The operands fit the encoding. RECORD's five operands are bits, so every RECORD is well formed
(R62, U14); WAIT's count has `CNT_W` bits (R63); a shift request has sections of `ceil8(n)` bytes
(R69) with zero padding (R72). -/
def Instr.WellFormed : Instr → Bool
  | .setup => true
  | .record _ _ _ _ _ => true
  | .wait _ count => count < 2 ^ Config.cntW
  | .flush => true
  | .shutdown => true
  | .shiftReq n tms tdi =>
    countInRange n && tms.length == ceil8 n && tdi.length == ceil8 n
      && paddingIsZero n tms && paddingIsZero n tdi

end Sys2Proof
end

