-- ==== Sys2Proof/Decode.lean ====
section
/-! DEFINITION. The decoder of command words and of shift requests, total, rejecting by name, and
the encoder beside it (spec/30_encoding.md R60 to R74). -/

namespace Sys2Proof

/-- Why the decoder rejects an encoding. -/
inductive DecodeError where
  /-- `OP` is `0x0` or `0x6` to `0xF` (R66). -/
  | reservedOpcode
  /-- A reserved bit of the format is 1 (R62, R63, R64, R66). -/
  | reservedBits
  /-- The first six bytes are not the tag of a shift request (R70). -/
  | wrongTag
  /-- The bit count is 0 or above the largest `CAP_BITS` (R69). -/
  | countOutOfRange
  /-- The frame is not `10 + 2*N` bytes long (R69, R74). -/
  | wrongLength
  /-- A padding bit of the last byte of a section is 1 (R72). -/
  | paddingBits
  deriving DecidableEq, Repr

/-- An encoded instruction: a command word on the command port (R60) or a frame on the wire (R69). -/
inductive Code where
  | word (w : Word)
  | frame (bs : List Byte)
  deriving DecidableEq, Repr

/-! ### Command words -/

/-- `OP = CMD[31:28]` (R60). -/
def opField (w : Word) : BitVec 4 := w.extractLsb' 28 4

/-- Format Z (R64): bits `[27:0]` are reserved and must be 0. -/
def decodeZ (i : Instr) (w : Word) : Except DecodeError Instr :=
  if w.extractLsb' 0 28 = 0#28 then .ok i else .error .reservedBits

/-- Format R (R62): bits `[27:5]` are reserved and must be 0. -/
def decodeR (w : Word) : Except DecodeError Instr :=
  if w.extractLsb' 5 23 = 0#23 then
    .ok (.record (w.getLsbD 0) (w.getLsbD 1) (w.getLsbD 2) (w.getLsbD 3) (w.getLsbD 4))
  else .error .reservedBits

/-- Format W (R63): bits `[27:25]` are reserved and must be 0; `cycle_count = zext(CMD[23:0])`. -/
def decodeW (w : Word) : Except DecodeError Instr :=
  if w.extractLsb' 25 3 = 0#3 then
    .ok (.wait (w.getLsbD 24) (w.extractLsb' 0 24).toNat)
  else .error .reservedBits

/-- The command decoder: the opcode map of R61; every other `OP` is reserved (R66). -/
def decodeWord (w : Word) : Except DecodeError Instr :=
  if opField w = 0x1#4 then decodeZ .setup w
  else if opField w = 0x2#4 then decodeR w
  else if opField w = 0x3#4 then decodeW w
  else if opField w = 0x4#4 then decodeZ .flush w
  else if opField w = 0x5#4 then decodeZ .shutdown w
  else .error .reservedOpcode

/-- Bit `b` of a command word at position `k`. -/
def bitAt (b : Bool) (k : Nat) : Word := (BitVec.ofBool b).setWidth 32 <<< k

/-- R62: `0x20000000 | sync_now<<4 | compare<<3 | expected_tdo<<2 | tdi<<1 | tms`. -/
def encodeR (tms tdi tdo compare sync : Bool) : Word :=
  0x20000000#32 ||| bitAt sync 4 ||| bitAt compare 3 ||| bitAt tdo 2 ||| bitAt tdi 1 ||| bitAt tms 0

/-- R63: `0x30000000 | tms_level<<24 | cycle_count`. -/
def encodeW (tms : Bool) (count : Nat) : Word :=
  0x30000000#32 ||| bitAt tms 24 ||| (BitVec.ofNat 24 count).setWidth 32

/-! ### Shift requests -/

/-- `le32(n)`: the four bytes of `n`, least-significant byte first (00_scope section 6, R71). -/
def le32 (n : Nat) : List Byte :=
  [BitVec.ofNat 8 n, BitVec.ofNat 8 (n / 2 ^ 8), BitVec.ofNat 8 (n / 2 ^ 16), BitVec.ofNat 8 (n / 2 ^ 24)]

/-- The number that bytes, least-significant first, stand for (R71, R74). -/
def leValue : List Byte → Nat
  | [] => 0
  | b :: bs => b.toNat + 256 * leValue bs

/-- The layout of the shift request (R69): tag, count, TMS section, TDI section. -/
def shiftFrame (n : Nat) (tms tdi : List Byte) : List Byte :=
  Config.tag ++ le32 n ++ tms ++ tdi

/-- Reads a shift request as R74 says a receiver does: 10 bytes, `n` from bytes 6 to 9,
`N = ceil8(n)`, then `2*N` bytes. -/
def decodeFrame (bs : List Byte) : Except DecodeError Instr :=
  let n := leValue ((bs.drop 6).take 4)
  let tms := (bs.drop 10).take (ceil8 n)
  let tdi := bs.drop (10 + ceil8 n)
  if bs.take 6 ≠ Config.tag then .error .wrongTag
  else if countInRange n = false then .error .countOutOfRange
  else if bs.length ≠ 10 + 2 * ceil8 n then .error .wrongLength
  else if (paddingIsZero n tms && paddingIsZero n tdi) = false then .error .paddingBits
  else .ok (.shiftReq n tms tdi)

/-! ### Both -/

/-- The decoder on any encoding. -/
def decode : Code → Except DecodeError Instr
  | .word w => decodeWord w
  | .frame bs => decodeFrame bs

/-- The encoding of an instruction (R62 to R64, R69). -/
def encode : Instr → Code
  | .setup => .word 0x10000000#32
  | .record tms tdi tdo compare sync => .word (encodeR tms tdi tdo compare sync)
  | .wait tms count => .word (encodeW tms count)
  | .flush => .word 0x40000000#32
  | .shutdown => .word 0x50000000#32
  | .shiftReq n tms tdi => .frame (shiftFrame n tms tdi)

/-- The first `k` bytes of a number whose bits 7..0 are the first byte, bits 15..8 the second. -/
def bytesOf : Nat → Nat → List Byte
  | 0, _ => []
  | k + 1, w => BitVec.ofNat 8 w :: bytesOf k (w / 256)

/-- The instruction the decoder reads from an instruction whose bits are `w`, numbered as the
opcode table numbers them. Up to 32 bits are a command word; more are the bytes of a frame, whose
length its own count field gives, with zeros above `nbits` (log 22). -/
def decodeTableWord (nbits w : Nat) : Option Instr :=
  let v := w % 2 ^ nbits
  let code :=
    if nbits ≤ 32 then Code.word (BitVec.ofNat 32 v)
    else Code.frame (bytesOf (10 + 2 * ceil8 (leValue ((bytesOf 10 v).drop 6))) v)
  match decode code with
  | .ok i => some i
  | .error _ => none

end Sys2Proof
end

