-- ==== Sys2Proof/Machine/State.lean ====
section
/-! DEFINITION. The machine's state as plain data (spec/10_state.md), its environment (R9, R28), the
reasons a step can stop, and the state after hardware reset (R27). -/

namespace Sys2Proof.Machine

/-! ### Names the registers hold -/

/-- The status of a command (30_encoding R67). The reserved codes 6 and 7 are never produced (U11). -/
inductive Status where
  | ok
  | alreadyFailed
  | verificationMismatch
  | connectivityError
  | illegalCommand
  | noSession
  deriving DecidableEq, Repr

/-- `ERR_KIND` (R16, R68). The reserved code 3 is never produced (U11). -/
inductive ErrKind where
  | none
  | verificationMismatch
  | connectivityError
  deriving DecidableEq, Repr

/-- The flush phase `FPH` (43_sync_protocol R132): `F_IDLE`, `F_TAG`, `F_CNT`, `F_TMS`, `F_TDI`,
`F_RX`, `F_VFY`, `F_CLR`. -/
inductive FlushPhase where
  | idle | tag | cnt | tms | tdi | rx | vfy | clr
  deriving DecidableEq, Repr

/-- The command phase `CPH` (R134): `C_IDLE`, `C_SETUP`, `C_REC`, `C_WLOOP`, `C_FLUSH`, `C_RSP`. -/
inductive CmdPhase where
  | idle | setup | record | wloop | flush | rsp
  deriving DecidableEq, Repr

/-- Which continuation `C_FLUSH` has (R134 "the caller's continuation", R137): the whole command
(RECORD, FLUSH), the automatic flush of an idle cycle of WAIT, WAIT's trailing flush, or SHUTDOWN
(DEDUCED: log 15). -/
inductive FlushCaller where
  | command | idleCycle | trailing | shutdown
  deriving DecidableEq, Repr

/-- A diagnostic event (R128, R168): index, observed byte, mask byte, expected byte. -/
inductive Event where
  | mismatch (index : Nat) (obs mask exp : Byte)
  deriving DecidableEq, Repr

/-- What the host puts on the block's inputs between commands: a command word (R60) or hardware
reset (R77, R190). -/
inductive HostInput where
  | command (w : Word)
  | reset
  deriving DecidableEq, Repr

/-! ### Storage -/

/-- One storage array of the block (20_memory R40): its bytes by index, in the canonical form of
`Memory.wf`. An unlisted byte reads as `0x00`. -/
abbrev Memory := List Host.Cell

/-- The hidden sequencing registers (R20), with the three that R134 implies (log 15). Between
commands they hold no meaningful value. -/
structure Hidden where
  /-- `FCTR` (R132). -/
  fctr : Nat
  /-- `LEN_BITS` (R132). -/
  lenBits : BitVec 32
  /-- `LEN_BYTES` (R132). -/
  lenBytes : Nat
  /-- `CMD`, the latched command word (R134). -/
  cmd : Word
  /-- `WCNT`, WAIT's down-counter (R111, R134). -/
  wcnt : BitVec 24
  /-- `WRES`, WAIT's first-failure latch (R134). -/
  wres : Status
  /-- The caller of the running flush (log 15). -/
  caller : FlushCaller
  /-- The status of the flush that has just ended (log 15). -/
  fres : Status
  /-- The status `C_RSP` gives (log 15). -/
  rsp : Status
  deriving DecidableEq, Repr

/-- The state: the block's own, then the parameter it carries, then its environment. -/
structure State where
  /-- Plane `TMS` (R11). -/
  tms : Memory
  /-- Plane `TDI` (R11). -/
  tdi : Memory
  /-- Plane `TDO_EXP` (R11). -/
  tdoExp : Memory
  /-- Plane `MASK` (R11). -/
  mask : Memory
  /-- `BYTE_IDX` (R12). -/
  byteIdx : Nat
  /-- `BIT_MASK`, one-hot (R12). -/
  bitMask : Byte
  /-- `ERR`, the sticky error flag (R15). -/
  err : Bool
  /-- `ERR_KIND` (R16). -/
  errKind : ErrKind
  /-- `OPEN` (R17). -/
  isOpen : Bool
  /-- `DIAG_VALID` (R19). -/
  diagValid : Bool
  /-- `DIAG_INDEX` (R19). -/
  diagIndex : Nat
  /-- `DIAG_OBS` (R19). -/
  diagObs : Byte
  /-- `DIAG_MASK` (R19). -/
  diagMask : Byte
  /-- `DIAG_EXP` (R19). -/
  diagExp : Byte
  /-- `OBS`, the receive buffer (R18). -/
  obs : Memory
  /-- `FPH` (R20). -/
  fph : FlushPhase
  /-- `CPH` (R20). -/
  cph : CmdPhase
  /-- The other hidden registers (R20). -/
  hid : Hidden
  /-- `CAP_BYTES`, a parameter that no step writes (R5, R28; log 1). -/
  cap : Nat
  /-- The TX history (R28). -/
  tx : List Byte
  /-- The bytes waiting on the RX stream (R28; log 11, log 30). -/
  rx : List Byte
  /-- The transport's answers to come (R9; log 10). -/
  answers : List Answer
  /-- The host's inputs to come (R7; log 13). -/
  host : List HostInput
  /-- The (command word, status) pairs so far (R9; log 21). -/
  responses : List (Word × Status)
  /-- The diagnostic events so far (R9; log 21). -/
  events : List Event
  /-- The byte comparisons made so far (R128, D28; log 21). -/
  cmps : Nat
  /-- The model's counter of free values (log 8). -/
  draws : Nat
  deriving DecidableEq, Repr

/-! ### Why a step stops -/

/-- Why the machine faults. -/
inductive Fault where
  /-- `InvariantViolation` (R92, R166, U1): an access to a plane at or beyond `CAP_BYTES`. Raised by
  `set_bit`, by `advance` and by the flush; no reachable state raises it. Safe: the machine stops
  where the spec gives no value. -/
  | invariantViolation
  deriving DecidableEq, Repr

/-- Why a step is refused. -/
inductive Refusal where
  /-- The instruction with this mnemonic is not modelled yet. Raised by `exec` only; no arm does.
  Safe. -/
  | notModelled (mnemonic : String)
  /-- The command word is illegal (R66, R163). Raised by `refusingStep` only; `step` answers the status
  `IllegalCommand` and goes on (log 3). Safe. -/
  | illegalCommand (w : Word)
  /-- The command needs a session and `OPEN` is 0 (R156, R163). Raised by `refusingStep` only; `step`
  answers the status `NoSession` and goes on (log 3). Safe. -/
  | noSession (w : Word)
  deriving DecidableEq, Repr

/-! ### Reset -/

/-- The hidden registers of `State.reset`: R27 leaves them unspecified (DESIGN CHOICE, log 7). -/
def Hidden.reset : Hidden where
  fctr := 0
  lenBits := 0#32
  lenBytes := 0
  cmd := 0#32
  wcnt := 0#24
  wres := .ok
  caller := .command
  fres := .ok
  rsp := .ok

/-- The state after hardware reset at the start of a run, for a capacity (R27, R190). The planes and
`OBS`, which R27 leaves unspecified, have nothing listed (DESIGN CHOICE, log 5, log 6). The RX stream,
of which R27 says nothing and which R192 item 5 leaves to the platform, is empty (DESIGN CHOICE,
log 30). -/
def State.resetAt (capBytes : Nat) : State where
  tms := []
  tdi := []
  tdoExp := []
  mask := []
  byteIdx := 0
  bitMask := 0x01#8
  err := false
  errKind := .none
  isOpen := false
  diagValid := false
  diagIndex := 0
  diagObs := 0#8
  diagMask := 0#8
  diagExp := 0#8
  obs := []
  fph := .idle
  cph := .idle
  hid := Hidden.reset
  cap := capBytes
  tx := []
  rx := []
  answers := []
  host := []
  responses := []
  events := []
  cmps := 0
  draws := 0

/-- The state after hardware reset (R27), with the open capacity `Config.capBytes` (R5; log 1). -/
def State.reset : State := State.resetAt Config.capBytes

end Sys2Proof.Machine
end

