-- ==== Sys2Proof/Machine/Memory.lean ====
section
/-! DEFINITION. The operations on one storage array (spec/20_memory.md R40, R46; spec/00_scope.md
section 6, `MemRead`, `MemWrite`). -/

namespace Sys2Proof.Machine

/-- The canonical form: indices strictly rising, no entry equal to `0x00`, which is what an unlisted
byte reads as. -/
def Memory.wf : Memory → Bool
  | [] => true
  | c :: m => c.2 != 0#8 && m.all (fun d => decide (c.1 < d.1)) && Memory.wf m

/-- `P[i]` (00_scope section 6). -/
def Memory.read : Memory → Nat → Byte
  | [], _ => 0#8
  | c :: m, i => if c.1 = i then c.2 else Memory.read m i

/-- Puts an entry before a list, unless it is the value an unlisted byte reads as. -/
def Memory.consCell (i : Nat) (v : Byte) (m : Memory) : Memory :=
  if v = 0#8 then m else (i, v) :: m

/-- `P[i] <- v` (00_scope section 6). -/
def Memory.write : Memory → Nat → Byte → Memory
  | [], i, v => Memory.consCell i v []
  | c :: m, i, v =>
    if c.1 = i then Memory.consCell i v m
    else if i < c.1 then Memory.consCell i v (c :: m)
    else c :: Memory.write m i v

/-- `MemRead(P, i, n)`: the list `P[i], ..., P[i+n-1]`. -/
def Memory.readRange (m : Memory) (i : Nat) : Nat → List Byte
  | 0 => []
  | n + 1 => Memory.read m i :: Memory.readRange m (i + 1) n

/-- `MemWrite(P, i, n, v)`: writes the bytes of the list `v` from index `i` up. -/
def Memory.writeRange (m : Memory) (i : Nat) : List Byte → Memory
  | [] => m
  | b :: bs => Memory.writeRange (Memory.write m i b) (i + 1) bs

/-- The canonical array with the content of any list of cells, an earlier cell winning. -/
def Memory.ofCells : List Host.Cell → Memory
  | [] => []
  | c :: cs => Memory.write (Memory.ofCells cs) c.1 c.2

/-- Every listed byte is one of the `n` bytes of the array. -/
def Memory.within (n : Nat) (m : Memory) : Bool := m.all (fun c => decide (c.1 < n))

end Sys2Proof.Machine
end

