-- ==== Sys2Proof/Machine/Operands.lean ====
section
/-! DEFINITION. The block's operand forms: the cursor and what is derived from it (spec/10_state.md
R12, R14), the planes by name (R11), and the frame of the pending batch (spec/30_encoding.md R69 to
R72). -/

namespace Sys2Proof.Machine

/-- The four bit-planes (R11). -/
inductive Plane where
  | tms | tdi | tdoExp | mask
  deriving DecidableEq, Repr

/-- The array of a plane. -/
def State.plane (s : State) : Plane → Memory
  | .tms => s.tms
  | .tdi => s.tdi
  | .tdoExp => s.tdoExp
  | .mask => s.mask

/-- Replaces the array of one plane. -/
def State.setPlane (s : State) (p : Plane) (m : Memory) : State :=
  match p with
  | .tms => { s with tms := m }
  | .tdi => { s with tdi := m }
  | .tdoExp => { s with tdoExp := m }
  | .mask => { s with mask := m }

/-- The eight values of `BIT_MASK` (R12). -/
def oneHot (m : Byte) : Bool :=
  m == 0x01#8 || m == 0x02#8 || m == 0x04#8 || m == 0x08#8
    || m == 0x10#8 || m == 0x20#8 || m == 0x40#8 || m == 0x80#8

/-- `bitpos(m)`: for a one-hot byte `m = 1 << k`, the number `k` (00_scope section 6); a free value
for any other byte (log 16). -/
def bitpos (m : Byte) : Nat :=
  if m = 0x01#8 then 0
  else if m = 0x02#8 then 1
  else if m = 0x04#8 then 2
  else if m = 0x08#8 then 3
  else if m = 0x10#8 then 4
  else if m = 0x20#8 then 5
  else if m = 0x40#8 then 6
  else if m = 0x80#8 then 7
  else Config.bitposOther m

/-- `CAP_BITS = 8 * CAP_BYTES` (R5). -/
def State.capBits (s : State) : Nat := 8 * s.cap

/-- `nbits = 8 * BYTE_IDX + bitpos(BIT_MASK)` (R14). -/
def State.nbits (s : State) : Nat := 8 * s.byteIdx + bitpos s.bitMask

/-- `nbytes = ceil8(nbits)`, the `N` of a flush (R14, R123). -/
def State.nbytes (s : State) : Nat := ceil8 s.nbits

/-- The cursor is at the origin (R12). -/
def State.atOrigin (s : State) : Bool := s.byteIdx == 0 && s.bitMask == 0x01#8

/-- The next `advance` reaches capacity: the cursor is at the last bit of the planes (R91, R103). -/
def State.atLastBit (s : State) : Bool := s.bitMask == 0x80#8 && s.byteIdx + 1 == s.cap

/-- The shift request of the pending batch: the first `N` bytes of `TMS` and of `TDI` (R72, R124). -/
def State.frame (s : State) : List Byte :=
  shiftFrame s.nbits (Memory.readRange s.tms 0 s.nbytes) (Memory.readRange s.tdi 0 s.nbytes)

end Sys2Proof.Machine
end

