-- ==== Sys2Proof/Machine/Flags.lean ====
section
/-! DEFINITION. The error flag and what decides it: the codes of statuses and failure kinds
(spec/30_encoding.md R67, R68), the masked comparison (spec/43_sync_protocol.md R127) and the failures
that set `ERR` (R126, R128). -/

namespace Sys2Proof.Machine

/-- The 3-bit status code on `rsp_status` (R67). -/
def Status.code : Status → BitVec 3
  | .ok => 0#3
  | .alreadyFailed => 1#3
  | .verificationMismatch => 2#3
  | .connectivityError => 3#3
  | .illegalCommand => 4#3
  | .noSession => 5#3

/-- The 2-bit code of `ERR_KIND` (R16). -/
def ErrKind.code : ErrKind → BitVec 2
  | .none => 0#2
  | .verificationMismatch => 1#2
  | .connectivityError => 2#2

/-- A status picked by a number: how a free number stands for a free status (log 8). -/
def Status.pick (n : Nat) : Status :=
  match n % 6 with
  | 0 => .ok
  | 1 => .alreadyFailed
  | 2 => .verificationMismatch
  | 3 => .connectivityError
  | 4 => .illegalCommand
  | _ => .noSession

/-- A caller picked by a number (log 8). -/
def FlushCaller.pick (n : Nat) : FlushCaller :=
  match n % 4 with
  | 0 => .command
  | 1 => .idleCycle
  | 2 => .trailing
  | _ => .shutdown

/-- Byte `i` agrees: `TDO_EXP[i] = (OBS[i] & MASK[i])` as 8-bit values (R127). -/
def byteAgrees (exp obs mask : Byte) : Bool := exp == (obs &&& mask)

/-- Byte `i` of the batch agrees with the response in `OBS` (R127). -/
def State.agreesAt (s : State) (i : Nat) : Bool :=
  byteAgrees (Memory.read s.tdoExp i) (Memory.read s.obs i) (Memory.read s.mask i)

/-- The least index from `i` up, among `k` bytes, that mismatches (R127, R128: ascending order,
the first mismatch ends the comparison). -/
def State.firstMismatch (s : State) : Nat → Nat → Option Nat
  | _, 0 => none
  | i, k + 1 => if s.agreesAt i then s.firstMismatch (i + 1) k else some i

/-- A failure and the information it carries (R126, R128, R160). -/
inductive Failure where
  | mismatch (index : Nat) (obs mask exp : Byte)
  | connectivity
  deriving DecidableEq, Repr

/-- The status the failing flush returns (R126, R128). -/
def Failure.status : Failure → Status
  | .mismatch _ _ _ _ => .verificationMismatch
  | .connectivity => .connectivityError

/-- The value `ERR_KIND` takes (R161). -/
def Failure.kind : Failure → ErrKind
  | .mismatch _ _ _ _ => .verificationMismatch
  | .connectivity => .connectivityError

/-- The mismatch at byte `i`: the observed byte is the byte as received (R128, D9). -/
def State.mismatchAt (s : State) (i : Nat) : Failure :=
  .mismatch i (Memory.read s.obs i) (Memory.read s.mask i) (Memory.read s.tdoExp i)

end Sys2Proof.Machine
end

