-- ==== Sys2Proof/Machine/Ops.lean ====
section
/-! DEFINITION. The shared operations: free values, the failure latch (the block's exception entry)
and the fresh session (its only return), the micro-operations `set_bit`, `advance` and
`clear_and_reset` (spec/40_bitplane_cursor.md), the wire transaction and the flush
(spec/43_sync_protocol.md), and hardware reset (spec/70_reset_and_hazards.md R190). -/

namespace Sys2Proof.Machine

/-! ### Free values -/

/-- The hidden registers of a draw: R27 leaves each unspecified between commands (log 8). -/
def Hidden.free (d : Nat) : Hidden where
  fctr := Config.freeNat d 0
  lenBits := BitVec.ofNat 32 (Config.freeNat d 1)
  lenBytes := Config.freeNat d 2
  cmd := BitVec.ofNat 32 (Config.freeNat d 3)
  wcnt := BitVec.ofNat 24 (Config.freeNat d 4)
  wres := Status.pick (Config.freeNat d 5)
  caller := FlushCaller.pick (Config.freeNat d 6)
  fres := Status.pick (Config.freeNat d 7)
  rsp := Status.pick (Config.freeNat d 8)

/-- The free content of an array of `n` bytes (log 9). -/
def Memory.free (n d slot : Nat) : Memory :=
  Memory.ofCells ((Config.freeCells d slot).filter (fun c => decide (c.1 < n)))

/-- `OBS` takes an unspecified content: after a flush and after SETUP (R18, R27, U6; log 9). -/
def State.forgetObs (s : State) : State :=
  { s with obs := Memory.free s.cap s.draws 0, draws := s.draws + 1 }

/-! ### The status to the host -/

/-- The end of a command (R60, R134 `C_RSP`): the pair (command word, status) goes to the host, the
block is idle again, and the hidden registers hold no meaningful value (R20, R27). -/
def State.respond (s : State) (st : Status) : State :=
  { s with
    responses := s.responses ++ [(s.hid.cmd, st)]
    fph := .idle
    cph := .idle
    hid := Hidden.free s.draws
    draws := s.draws + 1 }

/-! ### Taking a failure, and the way out -/

/-- `raise K(info)`: entry into the failed state (R126, R128, R168). `ERR` and `ERR_KIND` are set; a
mismatch writes the five `DIAG_*` registers and emits one event. Planes, cursor and `OPEN` stay. -/
def State.raise (s : State) : Failure → State
  | .mismatch i o m e =>
    { s with
      err := true
      errKind := .verificationMismatch
      diagValid := true
      diagIndex := i
      diagObs := o
      diagMask := m
      diagExp := e
      events := s.events ++ [.mismatch i o m e] }
  | .connectivity => { s with err := true, errKind := .connectivityError }

/-- `clear_and_reset()` (R93): every byte of the four planes to `0x00`, the cursor to the origin. -/
def State.clearAndReset (s : State) : State :=
  { s with tms := [], tdi := [], tdoExp := [], mask := [], byteIdx := 0, bitMask := 0x01#8 }

/-- The body of SETUP (R150): the fresh session, the only command that leaves the failed state
(R171). `OBS` is unspecified afterwards (R27). -/
def State.freshSession (s : State) : State :=
  { s.clearAndReset.forgetObs with
    err := false
    errKind := .none
    diagValid := false
    diagIndex := 0
    diagObs := 0#8
    diagMask := 0#8
    diagExp := 0#8
    isOpen := true }

/-- Hardware reset in any state (R27, R190, U17): the control registers take their reset values, the
planes, `OBS` and the hidden registers are unspecified (log 8, log 9). The streams, the histories and
the capacity are not the block's to change. -/
def State.hardwareReset (s : State) : State :=
  { s with
    tms := Memory.free s.cap s.draws 1
    tdi := Memory.free s.cap s.draws 2
    tdoExp := Memory.free s.cap s.draws 3
    mask := Memory.free s.cap s.draws 4
    obs := Memory.free s.cap s.draws 0
    byteIdx := 0
    bitMask := 0x01#8
    err := false
    errKind := .none
    isOpen := false
    diagValid := false
    diagIndex := 0
    diagObs := 0#8
    diagMask := 0#8
    diagExp := 0#8
    fph := .idle
    cph := .idle
    hid := Hidden.free s.draws
    draws := s.draws + 1 }

/-! ### Writing at the cursor -/

/-- The effect of `set_bit(P, v)` where it is allowed (R90): `P[BYTE_IDX] <- P[BYTE_IDX] | BIT_MASK`
if `v` is 1, nothing if it is 0. -/
def State.orBit (s : State) (p : Plane) (v : Bool) : State :=
  if v then
    s.setPlane p (Memory.write (s.plane p) s.byteIdx (Memory.read (s.plane p) s.byteIdx ||| s.bitMask))
  else s

/-- `set_bit(P, v)` (R90): needs `BYTE_IDX < CAP_BYTES`, else InvariantViolation (R92). -/
def State.setBit (s : State) (p : Plane) (v : Bool) : Except Fault State :=
  if s.byteIdx < s.cap then .ok (s.orBit p v) else .error .invariantViolation

/-- The bits of one cycle (R100, R102): TMS and TDI always, TDO_EXP and MASK if `compare` is 1. -/
def State.recordBits (s : State) (tms tdi tdo compare : Bool) : Except Fault State := do
  let s ← s.setBit .tms tms
  let s ← s.setBit .tdi tdi
  if compare then
    let s ← s.setBit .tdoExp tdo
    s.setBit .mask true
  else
    .ok s

/-- The pointer move of `advance` (R91): shift the mask; on wrap, the next byte and the lowest bit. -/
def State.moveCursor (s : State) : State :=
  if s.bitMask = 0x80#8 then { s with byteIdx := s.byteIdx + 1, bitMask := 0x01#8 }
  else { s with bitMask := s.bitMask <<< 1 }

/-! ### The wire transaction -/

/-- The answer of the transport to the next flush: the listed one, or the open one (R9; log 10). -/
def State.nextAnswer (s : State) : Answer :=
  match s.answers with
  | a :: _ => a
  | [] => Config.answer s.draws

/-- The answer has been given. -/
def State.dropAnswer (s : State) : State :=
  match s.answers with
  | _ :: as => { s with answers := as }
  | [] => { s with draws := s.draws + 1 }

/-- What a wire transaction comes to. -/
inductive Wire where
  /-- All `N` response bytes are in `OBS` (R125). -/
  | received (s : State)
  /-- The transport failed (R126). -/
  | linkDown (s : State)
  /-- The transport moves no more: the block stays in the phase it is in (R199). -/
  | stalled (s : State)

/-- The phase and the counter of a flush that has handed over `k` bytes of a request with sections
of `bytes` bytes, `k < 10 + 2*bytes` (R132). -/
def phaseAt (bytes k : Nat) : FlushPhase × Nat :=
  if k < 6 then (.tag, k)
  else if k < 10 then (.cnt, k - 6)
  else if k < 10 + bytes then (.tms, k - 10)
  else if k < 10 + 2 * bytes then (.tdi, k - 10 - bytes)
  else (.rx, 0)

/-- The block stuck inside a flush (R199): `busy` stays 1, in the given phase (R132, R134). The flush does
not know its caller (R137): `caller`, `fres` and `rsp` keep what they held (DESIGN CHOICE, log 29). -/
def State.stuckIn (s : State) (n : Nat) (ph : FlushPhase × Nat) : State :=
  { s with
    cph := .flush
    fph := ph.1
    hid := { s.hid with lenBits := BitVec.ofNat 32 n, lenBytes := ceil8 n, fctr := ph.2 } }

/-- One answer of the transport used: these bytes were handed over (R28: the TX history grows), this
is left on the RX stream, and this is in `OBS`. -/
def State.onWire (s : State) (sent rxAfter : List Byte) (obs : Memory) : State :=
  { s.dropAnswer with tx := s.tx ++ sent, rx := rxAfter, obs := obs }

/-- Steps 4 and 5 of the flush for the request of `n` bits with the given sections (R124, R125,
R126, R199): the frame goes out, then `N = ceil8(n)` bytes come from the RX stream into `OBS`. Bytes
beyond `N` stay on the RX stream (R125, R200). A transport that accepts the whole request and then never
moves again (`never k`, `k >= 10 + 2*N`) hands over no byte that already waits on RX either, be there
`N` of them: the block stays in `F_RX` with `FCTR` 0 (DESIGN CHOICE, log 25). -/
def State.exchange (s : State) (n : Nat) (tms tdi : List Byte) : Wire :=
  let request := shiftFrame n tms tdi
  match s.nextAnswer with
  | .never k =>
    .stalled ((s.onWire (request.take k) s.rx s.obs).stuckIn n (phaseAt (ceil8 n) k))
  | .linkFail k rxAfter => .linkDown (s.onWire (request.take k) rxAfter s.obs)
  | .bytes arriving =>
    let waiting := s.rx ++ arriving
    if waiting.length < ceil8 n then
      .stalled ((s.onWire request [] (Memory.writeRange s.obs 0 waiting)).stuckIn n (.rx, waiting.length))
    else
      .received (s.onWire request (waiting.drop (ceil8 n))
        (Memory.writeRange s.obs 0 (waiting.take (ceil8 n))))

/-! ### The flush -/

/-- How a procedure of the block ends: with a status, never (R199), or in the fault of R92. -/
inductive Ran where
  | done (st : Status) (s : State)
  | hung (s : State)
  | bad (f : Fault)

/-- Counts byte comparisons (R128, R129, D28). -/
def State.countCmps (s : State) (k : Nat) : State := { s with cmps := s.cmps + k }

/-- Steps 6 and 7 of the flush, once `N` response bytes are in `OBS` (R127, R128, R129). -/
def State.verify (s : State) (bytes : Nat) : Status × State :=
  match s.firstMismatch 0 bytes with
  | some i => (.verificationMismatch, ((s.countCmps (i + 1)).raise (s.mismatchAt i)).forgetObs)
  | none => (.ok, (s.countCmps bytes).clearAndReset.forgetObs)

/-- `flush()` (R120), the same for all five callers (R137). A batch longer than the planes, which no
reachable state has, is InvariantViolation (R48, R92; log 17). -/
def State.flush (s : State) : Ran :=
  if s.nbits = 0 then .done .ok s
  else if s.err then .done .alreadyFailed s
  else if s.cap < s.nbytes then .bad .invariantViolation
  else
    match s.exchange s.nbits (Memory.readRange s.tms 0 s.nbytes) (Memory.readRange s.tdi 0 s.nbytes) with
    | .received t => .done (t.verify s.nbytes).1 (t.verify s.nbytes).2
    | .linkDown t => .done .connectivityError (t.raise .connectivity).forgetObs
    | .stalled t => .hung t

/-! ### The recording of one cycle -/

/-- How `advance` ends (R91): the pair `(flushed, status)`, or the overflow of R92. -/
inductive Advanced where
  | moved (s : State)
  | flushed (r : Ran)
  | overflow

/-- `advance()` (R91): move the cursor; if the byte index reaches capacity, flush at once (C5). -/
def State.advance (s : State) : Advanced :=
  if s.cap ≤ s.byteIdx then .overflow
  else if s.atLastBit then .flushed s.moveCursor.flush
  else .moved s.moveCursor

/-- `record_cycle` (R100), the body of RECORD and of every idle cycle of WAIT (R111). -/
def State.recordCycle (s : State) (tms tdi tdo compare sync : Bool) : Ran :=
  if s.err then .done .alreadyFailed s
  else
    match s.recordBits tms tdi tdo compare with
    | .error f => .bad f
    | .ok t =>
      match t.advance with
      | .overflow => .bad .invariantViolation
      | .flushed r => r
      | .moved u => if sync then u.flush else .done .ok u

/-! ### From a procedure to a command -/

/-- The outcome of a command whose body ended so: a status is the command's response; a command that
never returns leaves the block busy (R199; log 12). -/
def Ran.outcome : Ran → Host.Outcome State Fault Refusal
  | .done st s => .next (s.respond st)
  | .hung s => .next s
  | .bad f => .fault f

/-- The gate of R156: with `OPEN = 0` every command but SETUP answers `NoSession`. -/
def State.inSession (s : State) (body : Ran) : Host.Outcome State Fault Refusal :=
  if s.isOpen then body.outcome else .next (s.respond .noSession)

end Sys2Proof.Machine
end

