-- ==== Sys2Proof/Machine/Command.lean ====
section
/-! DEFINITION. The command port of the big step: what the block takes from it and what it decodes
(spec/30_encoding.md R60, R66; spec/60_exceptions.md R163). -/

namespace Sys2Proof.Machine

/-- What the block meets on its inputs (R60, R77, R190). -/
inductive PortEvent where
  /-- `rst = 1`, taken in every state (R190). -/
  | reset
  /-- A command word, accepted (R60). -/
  | command (w : Word)
  /-- Nothing it takes: no input, or a command while `cmd_ready = 0` (R60, R193). -/
  | nothing
  deriving DecidableEq, Repr

/-- `cmd_ready`: 1 in `C_IDLE` only (R60, R134). -/
def State.cmdReady (s : State) : Bool := s.cph == .idle

/-- The next event on the block's inputs. -/
def State.portEvent (s : State) : PortEvent :=
  match s.host with
  | .reset :: _ => .reset
  | .command w :: _ => if s.cmdReady then .command w else .nothing
  | [] => .nothing

/-- The first of the host's inputs has been taken. -/
def State.popHost (s : State) : State := { s with host := s.host.tail }

/-- A command word is accepted and latched in `CMD` (R60, R134). -/
def State.accept (s : State) (w : Word) : State :=
  { s with host := s.host.tail, hid := { s.hid with cmd := w } }

/-- The answer to an illegal word (R66): status `IllegalCommand`, nothing else. The outcome `refused` is
`refusingStep`'s (R163, log 3). -/
def State.rejectIllegal (s : State) : Host.Outcome State Fault Refusal :=
  .next (s.respond .illegalCommand)

/-- The command word `w` (below `2 ^ nbits`) is the next on the command port of an idle block. -/
def State.putCommand (s : State) (nbits w : Nat) : State :=
  { s with
    host := .command (BitVec.ofNat 32 (w % 2 ^ nbits)) :: s.host
    cph := .idle
    fph := .idle }

end Sys2Proof.Machine
end

