-- ==== Sys2Proof/Machine/Record.lean ====
section
/-! DEFINITION. RECORD (spec/41_shift_accumulator.md). -/

namespace Sys2Proof.Machine

/-- RECORD (R100, R101 to R106). -/
def execRecord (tms tdi tdo compare sync : Bool) (s : State) : Host.Outcome State Fault Refusal :=
  s.inSession (s.recordCycle tms tdi tdo compare sync)

end Sys2Proof.Machine
end

