-- ==== Sys2Proof/Machine/Session.lean ====
section
/-! DEFINITION. SETUP and SHUTDOWN (spec/44_session_lifecycle.md). -/

namespace Sys2Proof.Machine

/-- SETUP (R150): accepted in every state, no I/O, always `Ok`. -/
def execSetup (s : State) : Host.Outcome State Fault Refusal :=
  (Ran.done .ok s.freshSession).outcome

/-- `OPEN <- 0`, whatever the final flush's status (R151, D17). -/
def State.closeSession (s : State) : State := { s with isOpen := false }

/-- SHUTDOWN (R151): the final flush, then `OPEN <- 0`; the status is the flush's. -/
def execShutdown (s : State) : Host.Outcome State Fault Refusal :=
  s.inSession <|
    match s.flush with
    | .done st t => .done st t.closeSession
    | r => r

end Sys2Proof.Machine
end

