-- ==== Sys2Proof/Machine/Sync.lean ====
section
/-! DEFINITION. FLUSH (spec/43_sync_protocol.md) and the shift request it sends
(spec/30_encoding.md R69 to R74). -/

namespace Sys2Proof.Machine

/-- FLUSH (R120): `return flush()`. -/
def execFlush (s : State) : Host.Outcome State Fault Refusal :=
  s.inSession s.flush

/-- SHIFT_REQ (R69, R73): the wire transaction of one shift request, steps 4 and 5 of a flush (R124,
R125), with the latch of a transport failure (R126). It is no host command and gives no status
(log 4). The block does I/O only in a session that has not failed (R23, R122, R156): else nothing is
sent and nothing changes. A request longer than the planes is InvariantViolation (R48; log 17). -/
def execShiftReq (n : Nat) (tms tdi : List Byte) (s : State) : Host.Outcome State Fault Refusal :=
  if s.isOpen = false ∨ s.err = true then .next s
  else if s.cap < ceil8 n then .fault .invariantViolation
  else
    match s.exchange n tms tdi with
    | .received t => .next t
    | .linkDown t => .next (t.raise .connectivity).forgetObs
    | .stalled t => .next t

end Sys2Proof.Machine
end

