-- ==== Sys2Proof/Machine/Wait.lean ====
section
/-! DEFINITION. WAIT (spec/42_delay_emulator.md). -/

namespace Sys2Proof.Machine

/-- `WCNT <- k` (R111, R134). -/
def State.setWcnt (s : State) (k : Nat) : State :=
  { s with hid := { s.hid with wcnt := BitVec.ofNat 24 k } }

/-- The entry of WAIT (R134): `WCNT <- cycle_count`, `WRES <- Ok`. -/
def State.enterWait (s : State) (count : Nat) : State :=
  { s with hid := { s.hid with wcnt := BitVec.ofNat 24 count, wres := .ok } }

/-- The idle cycles of WAIT (R110, R111): `k` times RECORD with `tdi = 0`, no compare, no sync (D15),
stopping at the first that does not answer `Ok`. `WCNT` counts down before the cycle's automatic flush,
where R110 and R134 leave the order open (DESIGN CHOICE, log 27). -/
def State.idleCycles (s : State) (tms : Bool) : Nat → Ran
  | 0 => .done .ok s
  | k + 1 =>
    match (s.setWcnt k).recordCycle tms false false false false with
    | .done .ok t => t.idleCycles tms k
    | r => r

/-- The body of WAIT (R110): the idle cycles, then always a flush (R112); the first failure decides
(R114, D16). -/
def State.waitBody (s : State) (tms : Bool) (count : Nat) : Ran :=
  match (s.enterWait count).idleCycles tms count with
  | .done first t =>
    match t.flush with
    | .done st u => .done (if first = .ok then st else first) u
    | r => r
  | r => r

/-- WAIT (R110 to R116). -/
def execWait (tms : Bool) (count : Nat) (s : State) : Host.Outcome State Fault Refusal :=
  s.inSession (s.waitBody tms count)

end Sys2Proof.Machine
end

