-- ==== Sys2Proof/Machine/Dispatch.lean ====
section
/-! DEFINITION. One arm for each instruction. -/

namespace Sys2Proof.Machine

def exec (i : Instr) (s : State) : Host.Outcome State Fault Refusal :=
  match i with
  | .setup => Sys2Proof.Machine.execSetup s
  | .record tms tdi tdo compare sync => Sys2Proof.Machine.execRecord tms tdi tdo compare sync s
  | .wait tms count => Sys2Proof.Machine.execWait tms count s
  | .flush => Sys2Proof.Machine.execFlush s
  | .shutdown => Sys2Proof.Machine.execShutdown s
  | .shiftReq n tms tdi => Sys2Proof.Machine.execShiftReq n tms tdi s

end Sys2Proof.Machine
end

