-- ==== Sys2Proof/Machine/Step.lean ====
section
/-! DEFINITION. One step of the block: hardware reset, one whole command (spec/00_scope.md R8), or
nothing while no command is there to take. -/

namespace Sys2Proof.Machine

/-- One step (R8, R156, R190). With nothing to take the block waits (R190), or stays stuck (R199). -/
def step (s : State) : Host.Outcome State Fault Refusal :=
  match s.portEvent with
  | .reset => .next s.popHost.hardwareReset
  | .nothing => .next s
  | .command w =>
    match decodeWord w with
    | .ok i => exec i (s.accept w)
    | .error _ => (s.accept w).rejectIllegal

/-- The instruction of these bits is the next the step takes: it stands on the command port of an idle
block (log 13, log 22). -/
def State.withFetchWord (s : State) (nbits w : Nat) : State := s.putCommand nbits w

end Sys2Proof.Machine
end

