-- ==== Sys2Proof/Machine/Refuse.lean ====
section
/-! DEFINITION. The decoder's refusals as the outcome `refused` (spec/60_exceptions.md R163, spec/30_encoding.md
R66, spec/44_session_lifecycle.md R156): a second step function beside `step`, which gives the status and goes
on (log 3). -/

namespace Sys2Proof.Machine

/-- What the decoder refuses, in its order: first an illegal word (R66), then a command other than SETUP
with `OPEN = 0` (R156). A shift request is no command: no word decodes to one (log 4). -/
def State.decoderRefusal (s : State) (w : Word) : Option Refusal :=
  match decodeWord w with
  | .error _ => some (.illegalCommand w)
  | .ok .setup => none
  | .ok (.record _ _ _ _ _) => if s.isOpen then none else some (.noSession w)
  | .ok (.wait _ _) => if s.isOpen then none else some (.noSession w)
  | .ok .flush => if s.isOpen then none else some (.noSession w)
  | .ok .shutdown => if s.isOpen then none else some (.noSession w)
  | .ok (.shiftReq _ _ _) => some (.illegalCommand w)

/-- The step with the *refused* outcome of R163: what the decoder refuses is refused, with no state change,
and every other input is a `step`. `step` takes the same refusal's effect: the status, the input taken, and
the block ready for the next command (R66, R67, R156, R163; log 3). -/
def refusingStep (s : State) : Host.Outcome State Fault Refusal :=
  match s.portEvent with
  | .command w =>
    match s.decoderRefusal w with
    | some r => .refused r
    | none => step s
  | .reset => step s
  | .nothing => step s

end Sys2Proof.Machine
end

