-- ==== Sys2Proof/Machine/Ports.lean ====
section
/-! DEFINITION. The block's outputs as functions of its state (spec/10_state.md R29, spec/30_encoding.md
R77): the level outputs the host reads and the handshake outputs of the clocked machine. -/

namespace Sys2Proof.Machine

/-- The status outputs of R29: level outputs, read without a command and without a side effect. -/
structure StatusOutputs where
  busy : Bool
  err : Bool
  errKind : BitVec 2
  isOpen : Bool
  nbits : BitVec 32
  diagValid : Bool
  diagIndex : Nat
  diagObs : Byte
  diagMask : Byte
  diagExp : Byte
  deriving DecidableEq, Repr

/-- `BUSY`: 1 exactly while a command executes, that is in every phase but `C_IDLE` (R29, R134). -/
def State.busy (s : State) : Bool := !s.cmdReady

/-- The status outputs while `busy` is 1: R135 and U8 leave every one but `busy` unspecified (log 8). They
depend on the draw alone, so between two draws of one command they hold steady (DESIGN CHOICE, log 28). -/
def StatusOutputs.whileBusy (d : Nat) : StatusOutputs where
  busy := true
  err := Config.freeNat d 9 % 2 == 1
  errKind := BitVec.ofNat 2 (Config.freeNat d 10)
  isOpen := Config.freeNat d 11 % 2 == 1
  nbits := BitVec.ofNat 32 (Config.freeNat d 12)
  diagValid := Config.freeNat d 13 % 2 == 1
  diagIndex := Config.freeNat d 14
  diagObs := BitVec.ofNat 8 (Config.freeNat d 15)
  diagMask := BitVec.ofNat 8 (Config.freeNat d 16)
  diagExp := BitVec.ofNat 8 (Config.freeNat d 17)

/-- What the host observes (R29, R77): the registers between commands, and only `busy` is defined
while a command executes (U8); the others then change only with a draw (log 28). -/
def State.outputs (s : State) : StatusOutputs :=
  if s.busy then StatusOutputs.whileBusy s.draws
  else
    { busy := false
      err := s.err
      errKind := s.errKind.code
      isOpen := s.isOpen
      nbits := BitVec.ofNat 32 s.nbits
      diagValid := s.diagValid
      diagIndex := s.diagIndex
      diagObs := s.diagObs
      diagMask := s.diagMask
      diagExp := s.diagExp }

/-- `rsp_valid` and `rsp_status` (R77, R134): a status in `C_RSP`, else none. -/
def State.rspPort (s : State) : Option (BitVec 3) :=
  if s.cph = .rsp then some s.hid.rsp.code else none

/-- The byte `i` of a list that a flush is about to send. -/
def byteAt (bs : List Byte) (i : Nat) : Byte := bs.getD i 0#8

/-- `tx_valid` and `tx_data` (R77, R132): the byte of the frame that the phase sends. -/
def State.txPort (s : State) : Option Byte :=
  match s.fph with
  | .tag => some (byteAt Config.tag s.hid.fctr)
  | .cnt => some (byteAt (le32 s.hid.lenBits.toNat) s.hid.fctr)
  | .tms => some (Memory.read s.tms s.hid.fctr)
  | .tdi => some (Memory.read s.tdi s.hid.fctr)
  | _ => none

/-- `rx_ready = 1` only in phase `F_RX` (R77, D22). -/
def State.rxReady (s : State) : Bool := s.fph == .rx

end Sys2Proof.Machine
end

