-- ==== Sys2Proof/Machine/Sequencer.lean ====
section
/-! DEFINITION. The clocked machine: the flush phases and the command sequencer of
spec/43_sync_protocol.md R132 to R136, the spec's own refinement of the big step. One `clock` is one
sample of the inputs of spec/30_encoding.md R77 (log 18). -/

namespace Sys2Proof.Machine

/-- The block's inputs at one clock edge (R77). -/
structure PortIn where
  /-- `rst`. -/
  rst : Bool
  /-- `cmd_valid`. -/
  cmdValid : Bool
  /-- `cmd_word`. -/
  cmdWord : Word
  /-- `tx_ready`. -/
  txReady : Bool
  /-- `rx_valid`. -/
  rxValid : Bool
  /-- `rx_data`. -/
  rxData : Byte
  /-- `link_err`. -/
  linkErr : Bool
  deriving DecidableEq, Repr

/-- The result of one clock: the next state, or the fault of R92. -/
abbrev Clocked := Except Fault State

/-! ### The flush phases -/

/-- Enters a flush phase with a counter value. -/
def State.toPhase (s : State) (ph : FlushPhase) (ctr : Nat) : State :=
  { s with fph := ph, hid := { s.hid with fctr := ctr } }

/-- The flush returns a status: `FPH` is idle again (R133). -/
def State.flushReturns (s : State) (st : Status) : State :=
  { s with fph := .idle, hid := { s.hid with fres := st } }

/-- The start of a flush for a caller: the three `F_IDLE` rows of R133. -/
def State.startFlush (s : State) (caller : FlushCaller) : Clocked :=
  let t := { s with cph := .flush, hid := { s.hid with caller := caller } }
  if s.nbits = 0 then .ok (t.flushReturns .ok)
  else if s.err then .ok (t.flushReturns .alreadyFailed)
  else if s.cap < s.nbytes then .error .invariantViolation
  else
    .ok { t with
      fph := .tag
      hid := { t.hid with lenBits := BitVec.ofNat 32 s.nbits, lenBytes := s.nbytes, fctr := 0 } }

/-- One byte handed over: it joins the TX history; the counter goes on, or the next phase starts. -/
def State.sendByte (s : State) (b : Byte) (last : Nat) (next : FlushPhase) : State :=
  let t := { s with tx := s.tx ++ [b] }
  if s.hid.fctr < last then t.toPhase s.fph (s.hid.fctr + 1) else t.toPhase next 0

/-- A transmitting phase (R133): `link_err` first, then the handshake, else it holds. -/
def State.sendPhase (s : State) (p : PortIn) (last : Nat) (next : FlushPhase) : State :=
  if p.linkErr then ((s.raise .connectivity).forgetObs).flushReturns .connectivityError
  else
    match s.txPort with
    | some b => if p.txReady then s.sendByte b last next else s
    | none => s

/-- Phase `F_RX` (R133): `link_err` first, then one byte into `OBS[FCTR]`, else it holds. -/
def State.receivePhase (s : State) (p : PortIn) : State :=
  if p.linkErr then ((s.raise .connectivity).forgetObs).flushReturns .connectivityError
  else if p.rxValid then
    let t := { s with obs := Memory.write s.obs s.hid.fctr p.rxData }
    if s.hid.fctr < s.hid.lenBytes - 1 then t.toPhase .rx (s.hid.fctr + 1) else t.toPhase .vfy 0
  else s

/-- Phase `F_VFY` (R133): one byte compared; the first mismatch ends the flush. The row to `F_CLR` has
no action: `FCTR` stays at `LEN_BYTES - 1`. -/
def State.verifyPhase (s : State) : State :=
  let t := s.countCmps 1
  if s.agreesAt s.hid.fctr then
    if s.hid.fctr < s.hid.lenBytes - 1 then t.toPhase .vfy (s.hid.fctr + 1)
    else t.toPhase .clr s.hid.fctr
  else ((t.raise (s.mismatchAt s.hid.fctr)).forgetObs).flushReturns .verificationMismatch

/-- The transitions of `FPH` (R133). -/
def State.flushClock (s : State) (p : PortIn) : State :=
  match s.fph with
  | .idle => s
  | .tag => s.sendPhase p 5 .cnt
  | .cnt => s.sendPhase p 3 .tms
  | .tms => s.sendPhase p (s.hid.lenBytes - 1) .tdi
  | .tdi => s.sendPhase p (s.hid.lenBytes - 1) .rx
  | .rx => s.receivePhase p
  | .vfy => s.verifyPhase
  | .clr => (s.clearAndReset.forgetObs).flushReturns .ok

/-! ### The command phases -/

/-- Enters `C_RSP` with a status (R134). -/
def State.toRsp (s : State) (st : Status) : State :=
  { s with cph := .rsp, hid := { s.hid with rsp := st } }

/-- Enters a command phase (R134). -/
def State.toCph (s : State) (ph : CmdPhase) : State := { s with cph := ph }

/-- The decode of `C_IDLE` (R134): legality (R66), then the session (R156), then the command's phase.
A shift request is no command: no word decodes to one. -/
def State.dispatchCommand (s : State) (w : Word) : Clocked :=
  match decodeWord w with
  | .error _ => .ok (s.toRsp .illegalCommand)
  | .ok .setup => .ok (s.toCph .setup)
  | .ok (.shiftReq _ _ _) => .ok (s.toRsp .illegalCommand)
  | .ok (.record _ _ _ _ _) => .ok (if s.isOpen then s.toCph .record else s.toRsp .noSession)
  | .ok (.wait _ count) =>
    .ok (if s.isOpen then (s.enterWait count).toCph .wloop else s.toRsp .noSession)
  | .ok .flush => if s.isOpen then s.startFlush .command else .ok (s.toRsp .noSession)
  | .ok .shutdown => if s.isOpen then s.startFlush .shutdown else .ok (s.toRsp .noSession)

/-- `C_IDLE` (R60, R134): a command offered is accepted and latched in `CMD`. -/
def State.idlePhase (s : State) (p : PortIn) : Clocked :=
  if p.cmdValid then
    { s with hid := { s.hid with cmd := p.cmdWord } }.dispatchCommand p.cmdWord
  else .ok s

/-- `C_REC` (R134): the sticky check, the four `set_bit`s and `advance`; a flush starts when
`advance` reaches capacity or `sync` asks for it. -/
def State.recordPhase (s : State) (tms tdi tdo compare sync : Bool) : Clocked :=
  if s.err then .ok (s.toRsp .alreadyFailed)
  else
    match s.recordBits tms tdi tdo compare with
    | .error f => .error f
    | .ok t =>
      if t.cap ≤ t.byteIdx then .error .invariantViolation
      else if t.atLastBit || sync then t.moveCursor.startFlush .command
      else .ok (t.moveCursor.toRsp .ok)

/-- `WCNT <- WCNT - 1` with the idle cycle's status into `WRES` (R134). An idle cycle with an automatic
flush counts down before that flush starts (DESIGN CHOICE, log 27). -/
def State.countIdle (s : State) (st : Status) : State :=
  { s with hid := { s.hid with wcnt := s.hid.wcnt - 1#24, wres := st } }

/-- `C_WLOOP` (R134): one idle cycle while `WCNT > 0` and `WRES = Ok`, else the trailing flush. -/
def State.waitPhase (s : State) (tms : Bool) : Clocked :=
  if s.hid.wcnt ≠ 0#24 ∧ s.hid.wres = .ok then
    if s.err then .ok (s.countIdle .alreadyFailed)
    else
      match s.recordBits tms false false false with
      | .error f => .error f
      | .ok t =>
        if t.cap ≤ t.byteIdx then .error .invariantViolation
        else if t.atLastBit then (t.moveCursor.countIdle .ok).startFlush .idleCycle
        else .ok (t.moveCursor.countIdle .ok)
  else s.startFlush .trailing

/-- `C_FLUSH` once `FPH` is idle again (R134): the flush's status goes to the caller's continuation. -/
def State.flushDone (s : State) : State :=
  match s.hid.caller with
  | .idleCycle => { s with cph := .wloop, hid := { s.hid with wres := s.hid.fres } }
  | .trailing => s.toRsp (if s.hid.wres = .ok then s.hid.fres else s.hid.wres)
  | .command => s.toRsp s.hid.fres
  | .shutdown => s.toRsp s.hid.fres

/-- `C_RSP` (R134): the status for one clock; SHUTDOWN sets `OPEN <- 0` here. A SHUTDOWN that R156
refused finds `OPEN` 0 already. -/
def State.rspPhase (s : State) : State :=
  let t := match decodeWord s.hid.cmd with
    | .ok .shutdown => s.closeSession
    | _ => s
  t.respond s.hid.rsp

/-- The operands of the latched command (R65): `C_REC` and `C_WLOOP` read them from `CMD`. -/
def State.commandPhase (s : State) : Clocked :=
  match decodeWord s.hid.cmd with
  | .ok (.record tms tdi tdo compare sync) => s.recordPhase tms tdi tdo compare sync
  | .ok (.wait tms _) => s.waitPhase tms
  | _ => .ok s

/-- One clock (R134, R190): hardware reset first, then the command phase. R77 and R190 give no order
between `rst` and a handshake, `link_err` or the status pulse on one edge; here reset wins: with
`rst = 1` no command is accepted, no byte is handed over or taken, no failure is raised and no status
is given (DESIGN CHOICE, log 26). -/
def clock (p : PortIn) (s : State) : Clocked :=
  if p.rst then .ok s.hardwareReset
  else
    match s.cph with
    | .idle => s.idlePhase p
    | .setup => .ok (s.freshSession.toRsp .ok)
    | .record => s.commandPhase
    | .wloop => s.commandPhase
    | .flush => if s.fph = .idle then .ok s.flushDone else .ok (s.flushClock p)
    | .rsp => .ok s.rspPhase

/-- A run of the clocked machine over a sequence of inputs. -/
def runClock : List PortIn → State → Clocked
  | [], s => .ok s
  | p :: ps, s =>
    match clock p s with
    | .ok t => runClock ps t
    | .error f => .error f

/-! ### What a run's inputs spell -/

/-- A phase of step 4 or step 5, the ones that sample `link_err` (R133, R136). -/
def State.inIO (s : State) : Bool :=
  s.fph == .tag || s.fph == .cnt || s.fph == .tms || s.fph == .tdi || s.fph == .rx

/-- How many bytes of the request a flush in an I/O phase has handed over (R69, R132). -/
def State.handedOver (s : State) : Nat :=
  match s.fph with
  | .tag => s.hid.fctr
  | .cnt => 6 + s.hid.fctr
  | .tms => 10 + s.hid.fctr
  | .tdi => 10 + s.hid.lenBytes + s.hid.fctr
  | _ => 10 + 2 * s.hid.lenBytes

/-- What one clock adds to the oracle's answers (R9, R133): the answer it completes, if it does, and
the response bytes taken so far of one still to be completed. A failure completes `LinkFail(k)`, the
last byte taken in `F_RX` completes `Bytes(obs)`. -/
def State.spells (s : State) (p : PortIn) (taken : List Byte) : Option Answer × List Byte :=
  if s.inIO && p.linkErr then (some (.linkFail s.handedOver []), [])
  else if s.rxReady && p.rxValid then
    if s.hid.fctr < s.hid.lenBytes - 1 then (none, taken ++ [p.rxData])
    else (some (.bytes (taken ++ [p.rxData])), [])
  else (none, taken)

/-- The oracle's answers that the inputs of a run are (R9, R135), in order: the bytes of `rx_data` taken
in `F_RX`, and a failure where `link_err` struck. `taken` are the bytes already taken of a response
under way. -/
def spelledAnswers : List PortIn → State → List Byte → List Answer
  | [], _, _ => []
  | p :: ps, s, taken =>
    (s.spells p taken).1.toList ++
      match clock p s with
      | .ok t => spelledAnswers ps t (s.spells p taken).2
      | .error _ => []

end Sys2Proof.Machine
end

