-- ==== Sys2Proof/Safety.lean ====
section
/-! DEFINITION. What the statements speak of: the operating states (spec/60_exceptions.md R173), the
invariant of every state between steps (spec/10_state.md R25), and what the host and the wire can
tell of a state (spec/00_scope.md R9, spec/43_sync_protocol.md R135). -/

namespace Sys2Proof.Machine

/-- The operating states (R173). -/
inductive OperatingState where
  | noSession | active | failed
  deriving DecidableEq, Repr

/-- The operating state, a function of `OPEN` and `ERR` (R173). -/
def State.operating (s : State) : OperatingState :=
  if s.isOpen = false then .noSession else if s.err then .failed else .active

/-- Bit `k` of a plane: bit `k mod 8` of byte `k div 8` (R42). -/
def Memory.bitAt (m : Memory) (k : Nat) : Bool := (Memory.read m (k / 8)).getLsbD (k % 8)

/-- The invariant of the states between steps (R25), with the canonical form of the arrays and, for a
block stuck inside a flush (R199), what a running flush has of it. -/
structure Inv (s : State) : Prop where
  /-- R5. -/
  cap_pos : 1 ≤ s.cap
  /-- R5. -/
  cap_le : s.cap ≤ Config.maxCapBytes
  /-- The planes are in canonical form. -/
  planes_wf : ∀ p, Memory.wf (s.plane p) = true
  /-- `OBS` is in canonical form. -/
  obs_wf : Memory.wf s.obs = true
  /-- A plane has `CAP_BYTES` bytes (R11). -/
  planes_within : ∀ p, Memory.within s.cap (s.plane p) = true
  /-- `OBS` has `CAP_BYTES` bytes (R18). -/
  obs_within : Memory.within s.cap s.obs = true
  /-- R25 item 1. -/
  one_hot : oneHot s.bitMask = true
  /-- R12, R13: the cursor never exceeds capacity. -/
  in_range : s.byteIdx < s.cap ∨ (s.byteIdx = s.cap ∧ s.bitMask = 0x01#8)
  /-- R25 item 2, in a session. -/
  zero_beyond : s.isOpen = true → ∀ p k, s.nbits ≤ k → Memory.bitAt (s.plane p) k = false
  /-- R25 item 3, in a session. -/
  exp_in_mask : s.isOpen = true → ∀ i, Memory.read s.tdoExp i &&& ~~~(Memory.read s.mask i) = 0#8
  /-- R25 item 4. -/
  err_pending : s.err = true → 0 < s.nbits
  /-- R25 item 5. -/
  room : s.cph = .idle → s.err = false → s.byteIdx < s.cap
  /-- R25 item 6. -/
  err_kind : s.err = true ↔ s.errKind ≠ .none
  /-- R25 item 6. -/
  diag_kind : s.diagValid = true ↔ s.errKind = .verificationMismatch
  /-- R25 item 7, or a block stuck in the I/O of a flush (R199). -/
  phases : (s.cph = .idle ∧ s.fph = .idle)
    ∨ (s.cph = .flush ∧ s.fph ≠ .idle ∧ s.isOpen = true ∧ s.err = false ∧ 0 < s.nbits)

/-- What R135 compares: everything but the hidden registers, `OBS` and the inputs still to come. -/
def State.visible (s : State) : State :=
  { s with obs := [], hid := Hidden.reset, draws := 0, rx := [], answers := [], host := [] }

/-- The transport's next answer is this one: the first that is listed, or, where none is, one of the
open ones (R9; log 10). -/
def NextAnswerIs (answers : List Answer) (a : Answer) (later : List Answer) : Prop :=
  answers = a :: later ∨ (answers = [] ∧ later = [] ∧ ∃ d, a = Config.answer d)

/-- A run that spells these answers uses up an RX stream and a list of answers as a big step does: it
takes the response bytes in stream order, from what waits and what arrives, and leaves the rest (R125,
R200); a failure strikes where the answer says, at the latest after the whole request (R126; log 10).
The last two arguments are what is left. -/
def SpellsFrom : List Answer → List Byte → List Answer → List Byte → List Answer → Prop
  | [], rx, answers, rxLeft, answersLeft => rxLeft = rx ∧ answersLeft = answers
  | .bytes got :: spelled, rx, answers, rxLeft, answersLeft =>
    ∃ arriving later rest, NextAnswerIs answers (.bytes arriving) later ∧ rx ++ arriving = got ++ rest
      ∧ SpellsFrom spelled rest later rxLeft answersLeft
  | .linkFail k _ :: spelled, _, answers, rxLeft, answersLeft =>
    ∃ position rxAfter later, NextAnswerIs answers (.linkFail position rxAfter) later ∧ k ≤ position
      ∧ SpellsFrom spelled rxAfter later rxLeft answersLeft
  | .never _ :: _, _, _, _, _ => False

/-! ### What hardware reset leaves -/

/-- `t` is `s` after hardware reset (R190): the control registers at their reset values, no status
given, no byte sent or taken, the block idle and ready for a command. What the planes, `OBS` and the
hidden registers hold is open (R27), and nothing is said of it. -/
def AfterReset (s t : State) : Prop :=
  t.isOpen = false ∧ t.err = false ∧ t.errKind = .none ∧ t.byteIdx = 0 ∧ t.bitMask = 0x01#8
    ∧ t.diagValid = false ∧ t.diagIndex = 0 ∧ t.diagObs = 0#8 ∧ t.diagMask = 0#8 ∧ t.diagExp = 0#8
    ∧ t.fph = .idle ∧ t.cph = .idle
    ∧ t.cmdReady = true ∧ t.rspPort = none ∧ t.txPort = none ∧ t.rxReady = false
    ∧ t.tx = s.tx ∧ t.rx = s.rx ∧ t.responses = s.responses ∧ t.events = s.events
    ∧ t.answers = s.answers ∧ t.cmps = s.cmps ∧ t.cap = s.cap

/-! ### What a command leaves as it was -/

/-- Every byte of every plane reads as before. -/
def SamePlanes (s t : State) : Prop :=
  ∀ p i, Memory.read (t.plane p) i = Memory.read (s.plane p) i

/-- The cursor is as before. -/
def SameCursor (s t : State) : Prop := t.byteIdx = s.byteIdx ∧ t.bitMask = s.bitMask

/-- `ERR` and `ERR_KIND` are as before. -/
def SameErr (s t : State) : Prop := t.err = s.err ∧ t.errKind = s.errKind

/-- The five `DIAG_*` registers and the diagnostic events are as before. -/
def SameDiag (s t : State) : Prop :=
  t.diagValid = s.diagValid ∧ t.diagIndex = s.diagIndex ∧ t.diagObs = s.diagObs
    ∧ t.diagMask = s.diagMask ∧ t.diagExp = s.diagExp ∧ t.events = s.events

/-- No I/O: both streams, the transport's answers and the count of comparisons are as before. -/
def NoIO (s t : State) : Prop :=
  t.tx = s.tx ∧ t.rx = s.rx ∧ t.answers = s.answers ∧ t.cmps = s.cmps

/-- The capacity and the host's inputs to come are as before. -/
def SameSetting (s t : State) : Prop := t.cap = s.cap ∧ t.host = s.host

/-- The command in `CMD` has ended with this status, and the block is idle. -/
def Answered (s t : State) (st : Status) : Prop :=
  t.responses = s.responses ++ [(s.hid.cmd, st)] ∧ t.cph = .idle ∧ t.fph = .idle

/-- Every byte of the four planes is `0x00` and the cursor is at the origin. -/
def EmptyBatch (t : State) : Prop :=
  (∀ p i, Memory.read (t.plane p) i = 0#8) ∧ t.byteIdx = 0 ∧ t.bitMask = 0x01#8

/-- A command that ends with this status and changes no state of the block (R66, R101, R122, R156). -/
def OnlyAnswers (s t : State) (st : Status) : Prop :=
  Answered s t st ∧ SamePlanes s t ∧ SameCursor s t ∧ SameErr s t ∧ SameDiag s t ∧ t.isOpen = s.isOpen
    ∧ t.obs = s.obs ∧ NoIO s t ∧ SameSetting s t

/-! ### What a command word and a batch stand for -/

/-- An illegal command word, by its bits (R66): `OP` is `0x0` or `0x6` to `0xF`, or a reserved bit of
its format is 1. -/
def IllegalWord (w : Word) : Prop :=
  w.extractLsb' 28 4 = 0x0#4 ∨ 0x6#4 ≤ w.extractLsb' 28 4
    ∨ (w.extractLsb' 28 4 = 0x2#4 ∧ w.extractLsb' 5 23 ≠ 0#23)
    ∨ (w.extractLsb' 28 4 = 0x3#4 ∧ w.extractLsb' 25 3 ≠ 0#3)
    ∨ ((w.extractLsb' 28 4 = 0x1#4 ∨ w.extractLsb' 28 4 = 0x4#4 ∨ w.extractLsb' 28 4 = 0x5#4)
        ∧ w.extractLsb' 0 28 ≠ 0#28)

/-- The four commands that R156 refuses without a session. -/
def NeedsSession : Instr → Prop
  | .record _ _ _ _ _ => True
  | .wait _ _ => True
  | .flush => True
  | .shutdown => True
  | .setup => False
  | .shiftReq _ _ _ => False

/-- The state once RECORD has stored its cycle and moved the cursor, before any flush (R100, R102). -/
def State.afterCycle (s : State) (tms tdi tdo compare : Bool) : State :=
  let t := (s.orBit .tms tms).orBit .tdi tdi
  (if compare then (t.orBit .tdoExp tdo).orBit .mask true else t).moveCursor

/-- The pending cycles of a plane, in the order recorded (R42). -/
def State.pendingBits (s : State) (p : Plane) : List Bool :=
  (List.range s.nbits).map (Memory.bitAt (s.plane p))

/-- The first `n` bits of a section of a shift request, in the order recorded (R42, R72). -/
def sectionBits (n : Nat) (sec : List Byte) : List Bool :=
  (List.range n).map (fun k => (sec.getD (k / 8) 0#8).getLsbD (k % 8))

/-- The `tms` bits of the cycles a command records (R100, R111). -/
def recordedTms : Instr → List Bool
  | .record tms _ _ _ _ => [tms]
  | .wait tms count => List.replicate count tms
  | .setup => []
  | .flush => []
  | .shutdown => []
  | .shiftReq _ _ _ => []

/-- The `tdi` bits of the cycles a command records (R100, R111). -/
def recordedTdi : Instr → List Bool
  | .record _ tdi _ _ _ => [tdi]
  | .wait _ count => List.replicate count false
  | .setup => []
  | .flush => []
  | .shutdown => []
  | .shiftReq _ _ _ => []

/-- The frames of a list of shift requests, one after another (R51). -/
def framesOf (whole : List (Nat × List Byte × List Byte)) : List Byte :=
  (whole.map (fun f => shiftFrame f.1 f.2.1 f.2.2)).flatten

end Sys2Proof.Machine
end

