-- ==== Sys2Proof/Certificates/Slice0/Obligations.lean ====
section
/-! DEFINITION. The statements for the provers. Each docstring names the rule of the spec that it
formalises, or the log entry that it rests on. -/

open Sys2Proof Sys2Proof.Machine

/-! ### Encoding -/

/-- 30_encoding sections 1 and 4: decoding the encoding of a well-formed instruction, any command or
shift request, gives that instruction. -/
def Obligations.DecodeInvertsEncode : Prop :=
  ∀ i : Instr, i.WellFormed = true → decode (encode i) = .ok i

/-- 30_encoding sections 1 and 2 for command words; for frames the model's own choice (log 20, DEDUCED:
section 4 says what the block sends, not what a receiver rejects). Whatever decodes is the one
encoding of a well-formed instruction, so no two encodings mean the same and none decodes to an ill-formed one. -/
def Obligations.DecodedCodeIsTheEncoding : Prop :=
  ∀ (c : Code) (i : Instr), decode c = .ok i → encode i = c ∧ i.WellFormed = true

/-- 30_encoding R61 to R64, with words of 95_test_vectors: a few command words and one shift request
decode to what they stand for. -/
def Obligations.WordsOfTheSpecDecode : Prop :=
  decodeWord 0x10000000#32 = .ok .setup
    ∧ decodeWord 0x2000001B#32 = .ok (.record true true false true true)
    ∧ decodeWord 0x20000004#32 = .ok (.record false false true false false)
    ∧ decodeWord 0x3100000C#32 = .ok (.wait true 12)
    ∧ decodeWord 0x30FFFFFF#32 = .ok (.wait false 16777215)
    ∧ decodeWord 0x40000000#32 = .ok .flush
    ∧ decodeWord 0x50000000#32 = .ok .shutdown
    ∧ decodeFrame [0x73#8, 0x68#8, 0x69#8, 0x66#8, 0x74#8, 0x3A#8, 0x05#8, 0#8, 0#8, 0#8, 0x1F#8, 0#8]
        = .ok (.shiftReq 5 [0x1F#8] [0#8])

/-- R69, R71: the frame of a batch of `n` bits is the tag, the four bytes of `n` least significant
first, the first `N` bytes of `TMS` and the first `N` bytes of `TDI`. -/
def Obligations.FrameLayout : Prop :=
  ∀ s : State,
    s.frame.length = 10 + 2 * s.nbytes
    ∧ s.frame.take 6 = Config.tag
    ∧ (∀ j, j < 4 → s.frame.getD (6 + j) 0#8 = (BitVec.ofNat 32 s.nbits).extractLsb' (8 * j) 8)
    ∧ (∀ i, i < s.nbytes → s.frame.getD (10 + i) 0#8 = Memory.read s.tms i)
    ∧ (∀ i, i < s.nbytes → s.frame.getD (10 + s.nbytes + i) 0#8 = Memory.read s.tdi i)

/-- R72: the sections of a frame are the first `N` bytes of `TMS` and `TDI`, and their padding is 0;
so the frame is the encoding of a well-formed shift request. -/
def Obligations.FrameOfABatchIsAWellFormedRequest : Prop :=
  ∀ s : State, Inv s → s.isOpen = true → 0 < s.nbits →
    ∃ tms tdi, (Instr.shiftReq s.nbits tms tdi).WellFormed = true
      ∧ encode (.shiftReq s.nbits tms tdi) = .frame s.frame
      ∧ tms.length = s.nbytes ∧ tdi.length = s.nbytes
      ∧ (∀ i, i < s.nbytes → tms.getD i 0#8 = Memory.read s.tms i)
      ∧ (∀ i, i < s.nbytes → tdi.getD i 0#8 = Memory.read s.tdi i)

/-- R67, R16, R68: the numbers of the status codes and of `ERR_KIND`. -/
def Obligations.CodesOfTheSpec : Prop :=
  Status.ok.code = 0#3 ∧ Status.alreadyFailed.code = 1#3 ∧ Status.verificationMismatch.code = 2#3
    ∧ Status.connectivityError.code = 3#3 ∧ Status.illegalCommand.code = 4#3
    ∧ Status.noSession.code = 5#3
    ∧ ErrKind.none.code = 0#2 ∧ ErrKind.verificationMismatch.code = 1#2
    ∧ ErrKind.connectivityError.code = 2#2

/-- R14: `nbits = 8 * BYTE_IDX + bitpos(BIT_MASK) <= CAP_BITS`,
`nbytes = ceil8(nbits) = BYTE_IDX + (0 if BIT_MASK = 0x01 else 1) <= CAP_BYTES`, and zero bits are
pending exactly when the cursor is at the origin. `BIT_MASK = 1 << k` has `bitpos` `k`. -/
def Obligations.BatchLengthFromTheCursor : Prop :=
  ∀ (s : State) (k : Nat), Inv s → k < 8 → s.bitMask = 0x01#8 <<< k →
    s.nbits = 8 * s.byteIdx + k ∧ s.nbits ≤ s.capBits
    ∧ s.nbytes = ceil8 s.nbits
    ∧ s.nbytes = s.byteIdx + (if s.bitMask = 0x01#8 then 0 else 1) ∧ s.nbytes ≤ s.cap
    ∧ (s.nbits = 0 ↔ s.byteIdx = 0 ∧ s.bitMask = 0x01#8)

/-- R29: between commands the status outputs are the registers; `busy` is 1 while a command
executes. -/
def Obligations.StatusOutputsShowTheRegisters : Prop :=
  ∀ s : State,
    (s.cph = .idle → s.outputs =
      { busy := false, err := s.err, errKind := s.errKind.code, isOpen := s.isOpen
        nbits := BitVec.ofNat 32 s.nbits, diagValid := s.diagValid, diagIndex := s.diagIndex
        diagObs := s.diagObs, diagMask := s.diagMask, diagExp := s.diagExp })
    ∧ (s.cph ≠ .idle → s.outputs.busy = true)

/-! ### Reset -/

/-- R190: hardware reset gives the `NOSESSION` state, and the block waits for a command: between commands
and in a stuck flush as a step, and at any instant of a command, in every phase, as a clock with
`rst = 1`, whatever the other inputs. The streams and what the host has seen are as they were, so an
abandoned command has no status, a frame being sent is cut short, and response bytes not yet taken
stay. That the clock with `rst = 1` itself hands over and takes no byte and gives no status, where a
handshake or the status pulse falls on that edge, is the model's own choice (log 26, DESIGN CHOICE):
no rule gives that order. What the planes, `OBS` and the hidden registers hold afterwards is open, and
nothing is said of it. -/
def Obligations.HardwareResetFromAnyState : Prop :=
  (∀ (s : State) (later : List HostInput), s.host = .reset :: later →
    ∃ t, step s = .next t ∧ AfterReset s t ∧ t.host = later)
  ∧ (∀ (s : State) (p : PortIn), p.rst = true →
    ∃ t, clock p s = .ok t ∧ AfterReset s t ∧ t.host = s.host)

/-- R27: the control registers of the state after reset, and a capacity within R5. -/
def Obligations.ResetState : Prop :=
  State.reset.isOpen = false ∧ State.reset.err = false ∧ State.reset.errKind = .none
    ∧ State.reset.byteIdx = 0 ∧ State.reset.bitMask = 0x01#8
    ∧ State.reset.diagValid = false ∧ State.reset.diagIndex = 0 ∧ State.reset.diagObs = 0#8
    ∧ State.reset.diagMask = 0#8 ∧ State.reset.diagExp = 0#8
    ∧ State.reset.fph = .idle ∧ State.reset.cph = .idle ∧ State.reset.tx = []
    ∧ 1 ≤ State.reset.cap ∧ State.reset.cap ≤ 536870911

/-- R25: the invariant holds after reset. -/
def Obligations.ResetMeetsTheInvariant : Prop := Inv State.reset

/-! ### The step -/

/-- R60, R134: a command word offered to an idle block is accepted, latched in `CMD`, and the step is
the meaning of the instruction it decodes to. -/
def Obligations.StepRunsTheDecodedCommand : Prop :=
  ∀ (s : State) (w : Word) (later : List HostInput) (i : Instr),
    s.host = .command w :: later → s.cph = .idle → decodeWord w = .ok i →
    step s = exec i { s with host := later, hid := { s.hid with cmd := w } }

/-- R190, R193, R199 (log 12, log 13): with no input the block waits; a block that is busy takes no
command, and its step changes nothing. -/
def Obligations.StepWaits : Prop :=
  ∀ s : State, (s.host = [] ∨ (∃ w later, s.host = .command w :: later) ∧ s.cph ≠ .idle) →
    step s = .next s

/-- R66 (log 3: the answer is a next state of the model, not a refusal): an illegal command word
changes no state, does no I/O, does not set `ERR`, and answers
`IllegalCommand`, with `OPEN` 0 as with `OPEN` 1. -/
def Obligations.IllegalWordChangesNothing : Prop :=
  ∀ (s : State) (w : Word) (later : List HostInput),
    s.host = .command w :: later → s.cph = .idle → IllegalWord w →
    ∃ t, step s = .next t
      ∧ t.responses = s.responses ++ [(w, .illegalCommand)] ∧ t.cph = .idle
      ∧ SamePlanes s t ∧ SameCursor s t ∧ SameErr s t ∧ SameDiag s t ∧ t.isOpen = s.isOpen
      ∧ t.obs = s.obs ∧ NoIO s t ∧ t.cap = s.cap ∧ t.host = later

/-- R156 (log 3): with `OPEN = 0` a RECORD, WAIT, FLUSH or SHUTDOWN answers `NoSession`, changes no state and
does no I/O. -/
def Obligations.NoSessionChangesNothing : Prop :=
  ∀ (s : State) (i : Instr), s.isOpen = false → NeedsSession i →
    ∃ t, exec i s = .next t ∧ OnlyAnswers s t .noSession

/-- R163, R66, R156 (log 3): the step with the *refused* outcome refuses an illegal word, and with
`OPEN = 0` a RECORD, WAIT, FLUSH or SHUTDOWN, and nothing else; on every other input it is `step`. What it
refuses `step` answers with the status of that refusal, and latches no `ERR`, keeps the session, does no
I/O and leaves the block ready for the next command. -/
def Obligations.DecoderRefuses : Prop :=
  (∀ (s : State) (w : Word) (later : List HostInput), s.host = .command w :: later → s.cph = .idle →
    (IllegalWord w → refusingStep s = .refused (.illegalCommand w))
    ∧ (∀ i, decodeWord w = .ok i → NeedsSession i → s.isOpen = false →
        refusingStep s = .refused (.noSession w)))
  ∧ (∀ s : State, refusingStep s = step s
      ∨ ∃ w later t, s.host = .command w :: later ∧ s.cph = .idle ∧ step s = .next t
        ∧ ((IllegalWord w ∧ refusingStep s = .refused (.illegalCommand w)
              ∧ t.responses = s.responses ++ [(w, .illegalCommand)])
          ∨ (s.isOpen = false ∧ refusingStep s = .refused (.noSession w)
              ∧ t.responses = s.responses ++ [(w, .noSession)]))
        ∧ SamePlanes s t ∧ SameCursor s t ∧ SameErr s t ∧ SameDiag s t ∧ t.isOpen = s.isOpen
        ∧ NoIO s t ∧ t.cmdReady = true ∧ t.cap = s.cap ∧ t.host = later)

/-! ### SETUP and SHUTDOWN -/

/-- R150: the word `0x10000000` is SETUP, and SETUP, in every state, clears the planes, the cursor, the
error and the diagnostics, opens the session, answers `Ok` and does no I/O. -/
def Obligations.SetupStartsAFreshSession : Prop :=
  decodeWord 0x10000000#32 = .ok .setup
  ∧ ∀ s : State, ∃ t, exec .setup s = .next t
    ∧ Answered s t .ok ∧ EmptyBatch t ∧ t.err = false ∧ t.errKind = .none
    ∧ t.diagValid = false ∧ t.diagIndex = 0 ∧ t.diagObs = 0#8 ∧ t.diagMask = 0#8 ∧ t.diagExp = 0#8
    ∧ t.isOpen = true ∧ NoIO s t ∧ t.events = s.events ∧ SameSetting s t

/-- R151: SHUTDOWN is the flush, then `OPEN <- 0`, with the flush's status. -/
def Obligations.ShutdownIsFlushThenClose : Prop :=
  ∀ s t : State, s.isOpen = true → exec .flush s = .next t → t.cph = .idle →
    exec .shutdown s = .next { t with isOpen := false }

/-- R151, R122: SHUTDOWN with nothing to send, or in the failed state, does no I/O and closes the
session; every other register is kept. -/
def Obligations.ShutdownWithNothingToSend : Prop :=
  ∀ s : State, s.isOpen = true → (s.nbits = 0 ∨ s.err = true) →
    ∃ t, exec .shutdown s = .next t
      ∧ Answered s t (if s.nbits = 0 then .ok else .alreadyFailed) ∧ t.isOpen = false
      ∧ SamePlanes s t ∧ SameCursor s t ∧ SameErr s t ∧ SameDiag s t ∧ t.obs = s.obs
      ∧ NoIO s t ∧ SameSetting s t

/-- R151, R129: SHUTDOWN sends the pending batch; if the response verifies, the planes are cleared,
the status is `Ok` and the session is closed. -/
def Obligations.ShutdownDrainsThePendingBatch : Prop :=
  ∀ (s : State) (arriving : List Byte) (later : List Answer),
    s.isOpen = true → s.err = false → 0 < s.nbits → s.nbytes ≤ s.cap → Memory.wf s.obs = true →
    s.answers = .bytes arriving :: later → s.nbytes ≤ (s.rx ++ arriving).length →
    (∀ i, i < s.nbytes → Memory.read s.tdoExp i = (s.rx ++ arriving).getD i 0#8 &&& Memory.read s.mask i) →
    ∃ t, exec .shutdown s = .next t ∧ Answered s t .ok ∧ EmptyBatch t ∧ t.isOpen = false
      ∧ t.tx = s.tx ++ s.frame ∧ t.rx = (s.rx ++ arriving).drop s.nbytes ∧ t.answers = later
      ∧ t.cmps = s.cmps + s.nbytes ∧ SameErr s t ∧ SameDiag s t ∧ SameSetting s t

/-! ### RECORD -/

/-- R102: RECORD with room to spare and no `sync` stores the cycle at bit `nbits` of the four planes,
moves the cursor by one bit, answers `Ok` and does no I/O; no other bit and no other register
changes. -/
def Obligations.RecordStoresTheCycle : Prop :=
  ∀ (s : State) (tms tdi tdo compare : Bool),
    Inv s → s.isOpen = true → s.cph = .idle → s.err = false → s.atLastBit = false →
    ∃ t, exec (.record tms tdi tdo compare false) s = .next t ∧ Answered s t .ok
      ∧ Memory.bitAt t.tms s.nbits = tms
      ∧ Memory.bitAt t.tdi s.nbits = tdi
      ∧ Memory.bitAt t.tdoExp s.nbits = (tdo && compare)
      ∧ Memory.bitAt t.mask s.nbits = compare
      ∧ (∀ p k, k ≠ s.nbits → Memory.bitAt (t.plane p) k = Memory.bitAt (s.plane p) k)
      ∧ t.byteIdx = (if s.bitMask = 0x80#8 then s.byteIdx + 1 else s.byteIdx)
      ∧ t.bitMask = (if s.bitMask = 0x80#8 then 0x01#8 else s.bitMask <<< 1)
      ∧ t.nbits = s.nbits + 1
      ∧ SameErr s t ∧ SameDiag s t ∧ t.isOpen = s.isOpen ∧ t.obs = s.obs ∧ NoIO s t ∧ SameSetting s t

/-- R101: RECORD in the failed state answers `AlreadyFailed` and changes nothing, whatever its
operands. -/
def Obligations.RecordInTheFailedState : Prop :=
  ∀ (s : State) (tms tdi tdo compare sync : Bool), s.isOpen = true → s.err = true →
    ∃ t, exec (.record tms tdi tdo compare sync) s = .next t ∧ OnlyAnswers s t .alreadyFailed

/-- R103, R104: a RECORD that fills the planes, or asks for `sync`, is the FLUSH of the batch with its
own cycle in it; there is one flush, not two. -/
def Obligations.RecordFlushesItsOwnCycle : Prop :=
  ∀ (s : State) (tms tdi tdo compare sync : Bool),
    s.isOpen = true → s.err = false → s.byteIdx < s.cap → (s.atLastBit = true ∨ sync = true) →
    exec (.record tms tdi tdo compare sync) s = exec .flush (s.afterCycle tms tdi tdo compare)

/-- R103, R104, R129: a RECORD that fills the planes, or asks for `sync`, and whose response verifies
sends one frame with its own cycle in it, clears the planes and answers `Ok`. -/
def Obligations.RecordThatFlushesVerified : Prop :=
  ∀ (s r : State) (tms tdi tdo compare sync : Bool) (arriving : List Byte) (later : List Answer),
    Inv s → s.isOpen = true → s.cph = .idle → s.err = false → (s.atLastBit = true ∨ sync = true) →
    r = s.afterCycle tms tdi tdo compare →
    s.answers = .bytes arriving :: later → r.nbytes ≤ (s.rx ++ arriving).length →
    (∀ i, i < r.nbytes → Memory.read r.tdoExp i = (s.rx ++ arriving).getD i 0#8 &&& Memory.read r.mask i) →
    ∃ t, exec (.record tms tdi tdo compare sync) s = .next t ∧ Answered s t .ok ∧ EmptyBatch t
      ∧ t.tx = s.tx ++ r.frame ∧ t.rx = (s.rx ++ arriving).drop r.nbytes ∧ t.answers = later
      ∧ t.cmps = s.cmps + r.nbytes
      ∧ SameErr s t ∧ SameDiag s t ∧ t.isOpen = s.isOpen ∧ SameSetting s t

/-- R92, R166: a RECORD at `BYTE_IDX = CAP_BYTES` outside the failed state is the fault
InvariantViolation, never a wrapped index. -/
def Obligations.OverflowIsInvariantViolation : Prop :=
  ∀ (s : State) (tms tdi tdo compare sync : Bool),
    s.isOpen = true → s.err = false → s.byteIdx = s.cap →
    exec (.record tms tdi tdo compare sync) s = .fault .invariantViolation

/-- R21: a RECORD that answers `Ok` adds exactly 1 to `nbits` or leaves `nbits = 0`, and the cursor
does not exceed capacity. -/
def Obligations.RecordAdvancesByOneOrEmpties : Prop :=
  ∀ (s t : State) (tms tdi tdo compare sync : Bool),
    Inv s → s.isOpen = true → s.cph = .idle → exec (.record tms tdi tdo compare sync) s = .next t →
    t.responses = s.responses ++ [(s.hid.cmd, .ok)] →
    (t.nbits = s.nbits + 1 ∨ t.nbits = 0) ∧ t.byteIdx ≤ t.cap

/-! ### FLUSH -/

/-- R121: a flush with zero bits pending answers `Ok`, before `ERR` is looked at, and changes
nothing. -/
def Obligations.FlushOfAnEmptyBatch : Prop :=
  ∀ s : State, s.isOpen = true → s.nbits = 0 →
    ∃ t, exec .flush s = .next t ∧ OnlyAnswers s t .ok

/-- R122: a flush with bits pending in the failed state answers `AlreadyFailed` and changes
nothing. -/
def Obligations.FlushInTheFailedState : Prop :=
  ∀ s : State, s.isOpen = true → 0 < s.nbits → s.err = true →
    ∃ t, exec .flush s = .next t ∧ OnlyAnswers s t .alreadyFailed

/-- R124, R125, R129: a flush whose `N` response bytes all agree sends the whole frame, takes exactly
`N` bytes, makes `N` comparisons, clears the planes and the cursor, and answers `Ok`. -/
def Obligations.FlushVerified : Prop :=
  ∀ (s : State) (arriving : List Byte) (later : List Answer),
    s.isOpen = true → s.err = false → 0 < s.nbits → s.nbytes ≤ s.cap → Memory.wf s.obs = true →
    s.answers = .bytes arriving :: later → s.nbytes ≤ (s.rx ++ arriving).length →
    (∀ i, i < s.nbytes → Memory.read s.tdoExp i = (s.rx ++ arriving).getD i 0#8 &&& Memory.read s.mask i) →
    ∃ t, exec .flush s = .next t ∧ Answered s t .ok ∧ EmptyBatch t
      ∧ t.tx = s.tx ++ s.frame ∧ t.rx = (s.rx ++ arriving).drop s.nbytes ∧ t.answers = later
      ∧ t.cmps = s.cmps + s.nbytes
      ∧ SameErr s t ∧ SameDiag s t ∧ t.isOpen = s.isOpen ∧ SameSetting s t

/-- R128: a flush whose least mismatching byte is `i` sets `ERR` and `ERR_KIND`, records the byte as
received, the mask byte and the expected byte, emits one event, makes `i + 1` comparisons, answers
`VerificationMismatch`, and leaves planes and cursor as they were. One FLUSH straight after sends
nothing; what every other step does in the failed state is `FailedStateIsFrozen`. -/
def Obligations.FlushMismatch : Prop :=
  ∀ (s : State) (arriving : List Byte) (later : List Answer) (i : Nat),
    s.isOpen = true → s.err = false → 0 < s.nbits → s.nbytes ≤ s.cap → Memory.wf s.obs = true →
    s.answers = .bytes arriving :: later → s.nbytes ≤ (s.rx ++ arriving).length →
    i < s.nbytes →
    Memory.read s.tdoExp i ≠ (s.rx ++ arriving).getD i 0#8 &&& Memory.read s.mask i →
    (∀ j, j < i → Memory.read s.tdoExp j = (s.rx ++ arriving).getD j 0#8 &&& Memory.read s.mask j) →
    ∃ t, exec .flush s = .next t ∧ Answered s t .verificationMismatch
      ∧ t.err = true ∧ t.errKind = .verificationMismatch
      ∧ t.diagValid = true ∧ t.diagIndex = i ∧ t.diagObs = (s.rx ++ arriving).getD i 0#8
      ∧ t.diagMask = Memory.read s.mask i ∧ t.diagExp = Memory.read s.tdoExp i
      ∧ t.events = s.events ++ [.mismatch i ((s.rx ++ arriving).getD i 0#8) (Memory.read s.mask i)
          (Memory.read s.tdoExp i)]
      ∧ t.tx = s.tx ++ s.frame ∧ t.rx = (s.rx ++ arriving).drop s.nbytes ∧ t.answers = later
      ∧ t.cmps = s.cmps + (i + 1)
      ∧ SamePlanes s t ∧ SameCursor s t ∧ t.isOpen = s.isOpen ∧ SameSetting s t
      ∧ (∃ u, exec .flush t = .next u ∧ NoIO t u)

/-- R126: a transport failure after `k` request bytes sets `ERR` and `ERR_KIND`, answers
`ConnectivityError`, makes no comparison, and leaves planes, cursor and `DIAG_*` as they were; the TX
history gains the first `k` bytes of the frame. -/
def Obligations.FlushLinkFailure : Prop :=
  ∀ (s : State) (k : Nat) (rxAfter : List Byte) (later : List Answer),
    s.isOpen = true → s.err = false → 0 < s.nbits → s.nbytes ≤ s.cap →
    s.answers = .linkFail k rxAfter :: later →
    ∃ t, exec .flush s = .next t ∧ Answered s t .connectivityError
      ∧ t.err = true ∧ t.errKind = .connectivityError ∧ SameDiag s t
      ∧ t.tx = s.tx ++ s.frame.take k ∧ t.rx = rxAfter ∧ t.answers = later ∧ t.cmps = s.cmps
      ∧ SamePlanes s t ∧ SameCursor s t ∧ t.isOpen = s.isOpen ∧ SameSetting s t

/-- R199, R130 last row (log 12): a flush whose transport stops, or whose response stays short, never
answers: `busy` stays 1, the block holds in its phase whatever command is offered, planes, cursor and
`ERR` are as they were, and the TX history gains the frame or a prefix of it. For `never k` with
`k ≥ 10 + 2 * N` and `N` or more bytes already waiting on RX, that the flush takes none of them and
gives no status is the model's own choice (log 25, DESIGN CHOICE): R199 and R200 leave it open. -/
def Obligations.FlushNeverAnswered : Prop :=
  ∀ (s : State) (later : List Answer),
    s.isOpen = true → s.err = false → 0 < s.nbits → s.nbytes ≤ s.cap →
    ((∃ k, s.answers = .never k :: later)
      ∨ (∃ arriving, s.answers = .bytes arriving :: later ∧ (s.rx ++ arriving).length < s.nbytes)) →
    ∃ t k, exec .flush s = .next t ∧ t.busy = true ∧ t.responses = s.responses
      ∧ t.tx = s.tx ++ s.frame.take k ∧ t.answers = later ∧ t.cmps = s.cmps
      ∧ SamePlanes s t ∧ SameCursor s t ∧ SameErr s t ∧ SameDiag s t ∧ t.isOpen = s.isOpen
      ∧ SameSetting s t
      ∧ (∀ host, (∀ later', host ≠ .reset :: later') → step { t with host := host } = .next { t with host := host })

/-- R131: after a flush that answered, a second flush at once does no I/O and changes nothing: it
answers `Ok` if the first did, else `AlreadyFailed`. -/
def Obligations.FlushTwice : Prop :=
  ∀ (s t : State) (st : Status), s.isOpen = true → exec .flush s = .next t →
    t.responses = s.responses ++ [(s.hid.cmd, st)] →
    ∃ u, exec .flush t = .next u ∧ OnlyAnswers t u (if st = .ok then .ok else .alreadyFailed)

/-- R127: where the expected bits lie within the mask, a byte agrees exactly when every bit with mask
1 is observed as expected; a bit with mask 0 plays no part. -/
def Obligations.ComparisonInspectsMaskedBitsOnly : Prop :=
  ∀ e o m : Byte, e &&& ~~~m = 0#8 →
    (byteAgrees e o m = true ↔ ∀ k, k < 8 → m.getLsbD k = true → o.getLsbD k = e.getLsbD k)

/-! ### SHIFT_REQ -/

/-- R69, R73 (log 4): the wire transaction of a shift request hands over the whole frame, takes
exactly `N` bytes, byte `i` of the response into `OBS[i]`, and changes nothing else of the block. -/
def Obligations.ShiftRequestExchangesBytes : Prop :=
  ∀ (s : State) (n : Nat) (tms tdi arriving : List Byte) (later : List Answer),
    s.isOpen = true → s.err = false → ceil8 n ≤ s.cap → Memory.wf s.obs = true →
    s.answers = .bytes arriving :: later → ceil8 n ≤ (s.rx ++ arriving).length →
    ∃ t, exec (.shiftReq n tms tdi) s = .next t
      ∧ t.tx = s.tx ++ shiftFrame n tms tdi
      ∧ (∀ i, i < ceil8 n → Memory.read t.obs i = (s.rx ++ arriving).getD i 0#8)
      ∧ (∀ i, ceil8 n ≤ i → Memory.read t.obs i = Memory.read s.obs i)
      ∧ t.rx = (s.rx ++ arriving).drop (ceil8 n) ∧ t.answers = later ∧ t.cmps = s.cmps
      ∧ t.responses = s.responses ∧ SamePlanes s t ∧ SameCursor s t ∧ SameErr s t ∧ SameDiag s t
      ∧ t.isOpen = s.isOpen ∧ t.cph = s.cph ∧ t.fph = s.fph ∧ SameSetting s t

/-- R126 (log 4): a transport failure during the shift request latches `ConnectivityError`. -/
def Obligations.ShiftRequestLinkFailure : Prop :=
  ∀ (s : State) (n k : Nat) (tms tdi rxAfter : List Byte) (later : List Answer),
    s.isOpen = true → s.err = false → ceil8 n ≤ s.cap → s.answers = .linkFail k rxAfter :: later →
    ∃ t, exec (.shiftReq n tms tdi) s = .next t
      ∧ t.err = true ∧ t.errKind = .connectivityError ∧ SameDiag s t
      ∧ t.tx = s.tx ++ (shiftFrame n tms tdi).take k ∧ t.rx = rxAfter ∧ t.answers = later
      ∧ t.responses = s.responses ∧ SamePlanes s t ∧ SameCursor s t ∧ t.isOpen = s.isOpen
      ∧ SameSetting s t

/-- R23, R122, R156 (log 4): without a session or in the failed state no shift request is sent and
nothing changes. -/
def Obligations.ShiftRequestOnlyInALiveSession : Prop :=
  ∀ (s : State) (n : Nat) (tms tdi : List Byte), (s.isOpen = false ∨ s.err = true) →
    exec (.shiftReq n tms tdi) s = .next s

/-! ### WAIT -/

/-- R112, R198: a WAIT of zero cycles is a FLUSH. -/
def Obligations.WaitOfZeroCyclesIsFlush : Prop :=
  ∀ (s t : State) (tms : Bool), s.isOpen = true → exec .flush s = .next t → t.cph = .idle →
    exec (.wait tms 0) s = .next t

/-- R111: where an idle cycle needs no flush, a WAIT of `k + 1` cycles is a WAIT of `k` cycles from
the state in which that cycle (TDI 0, no compare) is recorded. -/
def Obligations.WaitRecordsOneIdleCycleAtATime : Prop :=
  ∀ (s : State) (tms : Bool) (k : Nat),
    s.isOpen = true → s.err = false → s.byteIdx < s.cap → s.atLastBit = false →
    exec (.wait tms (k + 1)) s = exec (.wait tms k) (s.afterCycle tms false false false)

/-- R111, R113, R114: where an idle cycle fills the planes and its automatic flush fails, the WAIT ends
there with that flush's status: the rest of the cycles are not recorded, and the trailing flush does
nothing. -/
def Obligations.WaitAbortsAtAFailingFlush : Prop :=
  ∀ (s t : State) (tms : Bool) (k : Nat),
    s.isOpen = true → s.err = false → s.byteIdx < s.cap → s.atLastBit = true →
    exec .flush (s.afterCycle tms false false false) = .next t → t.err = true →
    exec (.wait tms (k + 1)) s = .next t

/-- R115: a WAIT sets no bit of MASK, TDO_EXP or TDI, and where no compared cycle is pending it does
not answer `VerificationMismatch`. -/
def Obligations.WaitNeverSetsMaskBits : Prop :=
  ∀ (s t : State) (tms : Bool) (count : Nat), exec (.wait tms count) s = .next t →
    (∀ i, Memory.read t.mask i &&& ~~~(Memory.read s.mask i) = 0#8)
    ∧ (∀ i, Memory.read t.tdoExp i &&& ~~~(Memory.read s.tdoExp i) = 0#8)
    ∧ (∀ i, Memory.read t.tdi i &&& ~~~(Memory.read s.tdi i) = 0#8)
    ∧ ((∀ i, Memory.read s.mask i = 0#8) → (∀ i, Memory.read s.tdoExp i = 0#8) →
        t.responses ≠ s.responses ++ [(s.hid.cmd, .verificationMismatch)])

/-- R114: a WAIT in the failed state, with any count, answers `AlreadyFailed` and changes nothing. -/
def Obligations.WaitInTheFailedState : Prop :=
  ∀ (s : State) (tms : Bool) (count : Nat), s.isOpen = true → s.err = true → 0 < s.nbits →
    ∃ t, exec (.wait tms count) s = .next t ∧ OnlyAnswers s t .alreadyFailed

/-- R114: after a WAIT that answers `Ok` the batch is empty. -/
def Obligations.WaitThatSucceedsDrains : Prop :=
  ∀ (s t : State) (tms : Bool) (count : Nat), s.isOpen = true → exec (.wait tms count) s = .next t →
    t.responses = s.responses ++ [(s.hid.cmd, .ok)] → t.nbits = 0

/-- R116: a WAIT from `b` pending bits, none of them compared, with an empty RX stream and a transport
that answers each request in full, ends with `Ok` and an empty batch after `floor((b + count) / CAP_BITS)` automatic
flushes and one trailing flush if `(b + count) mod CAP_BITS != 0`. -/
def Obligations.WaitSendsItsFrames : Prop :=
  ∀ (s : State) (tms : Bool) (count : Nat) (full last : List (List Byte)) (later : List Answer),
    Inv s → s.isOpen = true → s.cph = .idle → s.err = false → s.rx = [] →
    (∀ i, Memory.read s.mask i = 0#8) →
    full.length = (s.nbits + count) / s.capBits → (∀ r ∈ full, r.length = s.cap) →
    last.length = (if (s.nbits + count) % s.capBits = 0 then 0 else 1) →
    (∀ r ∈ last, r.length = ceil8 ((s.nbits + count) % s.capBits)) →
    s.answers = (full ++ last).map Answer.bytes ++ later →
    ∃ t, exec (.wait tms count) s = .next t ∧ Answered s t .ok ∧ EmptyBatch t
      ∧ t.answers = later ∧ t.rx = []
      ∧ t.tx.length = s.tx.length + full.length * (10 + 2 * s.cap)
          + last.length * (10 + 2 * ceil8 ((s.nbits + count) % s.capBits))
      ∧ t.cmps = s.cmps + full.length * s.cap + last.length * ceil8 ((s.nbits + count) % s.capBits)
      ∧ SameErr s t ∧ SameDiag s t ∧ t.isOpen = s.isOpen ∧ SameSetting s t

/-! ### The whole machine -/

/-- R25: every step keeps the invariant, from every state that meets it. -/
def Obligations.EveryStepKeepsTheInvariant : Prop :=
  ∀ s t : State, Inv s → step s = .next t → Inv t

/-- R92, R166: from a state that meets the invariant no step faults. That no step refuses at all is the
model's own choice (log 3, DESIGN CHOICE): R66 and R163 speak of a refusal where the model gives a next
state with the status `IllegalCommand` or `NoSession`. -/
def Obligations.NoStepFaults : Prop :=
  (∀ (s : State) (f : Fault), Inv s → step s ≠ .fault f) ∧ (∀ (s : State) (r : Refusal), step s ≠ .refused r)

/-- R15: `ERR` is cleared by SETUP and by hardware reset only. -/
def Obligations.StickyErrorIsClearedBySetupOrResetOnly : Prop :=
  ∀ s t : State, step s = .next t → s.err = true → t.err = false →
    (∃ later, s.host = .reset :: later)
    ∨ (∃ w later, s.host = .command w :: later ∧ s.cph = .idle ∧ decodeWord w = .ok .setup)

/-- R15, R160, R161: `ERR` is set only by a step whose command answers `VerificationMismatch` or
`ConnectivityError`, and `ERR_KIND` records which. -/
def Obligations.ErrorIsSetByAFailingFlushOnly : Prop :=
  ∀ s t : State, step s = .next t → s.err = false → t.err = true →
    ∃ w, (t.responses = s.responses ++ [(w, .verificationMismatch)] ∧ t.errKind = .verificationMismatch)
      ∨ (t.responses = s.responses ++ [(w, .connectivityError)] ∧ t.errKind = .connectivityError)

/-- R23, R151: while `ERR` is set, every step but a SETUP and hardware reset leaves the planes, the
cursor, the error and diagnostic registers and both streams as they are, and `OPEN` too, but for a
SHUTDOWN, which clears it. -/
def Obligations.FailedStateIsFrozen : Prop :=
  ∀ s t : State, step s = .next t → s.err = true →
    (∀ later, s.host ≠ .reset :: later) →
    (∀ w later, s.host = .command w :: later → decodeWord w ≠ .ok .setup) →
    SamePlanes s t ∧ SameCursor s t ∧ SameErr s t ∧ SameDiag s t ∧ NoIO s t ∧ t.cap = s.cap
    ∧ (t.isOpen = s.isOpen
      ∨ (t.isOpen = false ∧ ∃ w later, s.host = .command w :: later ∧ decodeWord w = .ok .shutdown))

/-- R173: how the operating states are entered. `NOSESSION` by hardware reset or SHUTDOWN, `ACTIVE`
by SETUP, `FAILED` from `ACTIVE` by a failing flush. -/
def Obligations.OperatingStatesAreEnteredAsStated : Prop :=
  ∀ s t : State, step s = .next t → t.operating ≠ s.operating →
    (t.operating = .noSession → (∃ later, s.host = .reset :: later)
      ∨ (∃ w later, s.host = .command w :: later ∧ decodeWord w = .ok .shutdown))
    ∧ (t.operating = .active → ∃ w later, s.host = .command w :: later ∧ decodeWord w = .ok .setup)
    ∧ (t.operating = .failed → s.operating = .active ∧ ∃ w,
        t.responses = s.responses ++ [(w, .verificationMismatch)]
        ∨ t.responses = s.responses ++ [(w, .connectivityError)])

/-- R28: no step changes the capacity or takes back a byte sent, a status given or an event emitted,
and a step gives at most one status. -/
def Obligations.HistoriesOnlyGrow : Prop :=
  ∀ s t : State, step s = .next t →
    t.cap = s.cap ∧ s.tx <+: t.tx ∧ s.events <+: t.events ∧ s.responses <+: t.responses
    ∧ t.responses.length ≤ s.responses.length + 1

/-- R51, R74: what one step adds to the TX history is whole well-formed shift requests of at most
`CAP_BITS` bits, one after another, and after them at most a prefix of one, which only a transport
failure or a transport that never moves again leaves. Which cycles the requests hold is another
statement's, `CyclesAreSentOnceAndInOrder`. -/
def Obligations.TxHistoryIsFrames : Prop :=
  ∀ s t : State, Inv s → step s = .next t →
    ∃ (whole : List (Nat × List Byte × List Byte)) (cut : List Byte),
      t.tx = s.tx ++ framesOf whole ++ cut
      ∧ (∀ f ∈ whole, (Instr.shiftReq f.1 f.2.1 f.2.2).WellFormed = true ∧ f.1 ≤ s.capBits)
      ∧ (cut ≠ [] → (t.errKind = .connectivityError ∨ t.busy = true)
          ∧ ∃ n tms tdi, (Instr.shiftReq n tms tdi).WellFormed = true ∧ n ≤ s.capBits
              ∧ cut <+: shiftFrame n tms tdi)

/-- R52, R42: a command that answers `Ok` sends the pending cycles and its own in the order recorded,
each once: what it sends is whole well-formed shift requests of at most `CAP_BITS` bits and nothing
else; their `tms` bits, followed by the `tms` bits still pending, are the `tms` bits that were pending
followed by its own; and so for `tdi`. -/
def Obligations.CyclesAreSentOnceAndInOrder : Prop :=
  ∀ (s t : State) (w : Word) (later : List HostInput) (i : Instr),
    Inv s → s.isOpen = true → s.cph = .idle → s.host = .command w :: later → decodeWord w = .ok i →
    i ≠ .setup → step s = .next t → t.responses = s.responses ++ [(w, .ok)] →
    ∃ whole : List (Nat × List Byte × List Byte),
      t.tx = s.tx ++ framesOf whole
      ∧ (∀ f ∈ whole, (Instr.shiftReq f.1 f.2.1 f.2.2).WellFormed = true ∧ f.1 ≤ s.capBits)
      ∧ whole.flatMap (fun f => sectionBits f.1 f.2.1) ++ t.pendingBits .tms
          = s.pendingBits .tms ++ recordedTms i
      ∧ whole.flatMap (fun f => sectionBits f.1 f.2.2) ++ t.pendingBits .tdi
          = s.pendingBits .tdi ++ recordedTdi i

/-! ### The clocked machine -/

/-- R135, first half: a run of the clocked machine from an idle block that accepts one command and
gives its status ends in the state, with the status and the TX history, that the big step gives for
the transport answers that the run's inputs spell, the bytes of `rx_data` taken in `F_RX` and a failure
where `link_err` struck; and the big step uses all of them. -/
def Obligations.ClockedRunIsABigStep : Prop :=
  ∀ (s t : State) (p : PortIn) (ps : List PortIn),
    Inv s → s.cph = .idle → p.cmdValid = true → (∀ q ∈ p :: ps, q.rst = false) →
    runClock (p :: ps) s = .ok t → t.cph = .idle → t.responses.length = s.responses.length + 1 →
    ∃ u, step { s with
          host := [.command p.cmdWord], answers := spelledAnswers (p :: ps) s [], rx := [] } = .next u
      ∧ u.visible = t.visible ∧ u.answers = [] ∧ u.rx = []

/-- R135, second half: every big step that ends with a status is a run of the clocked machine on inputs
that spell what the big step took from the RX stream and from the transport's answers. -/
def Obligations.BigStepIsAClockedRun : Prop :=
  ∀ (s u : State) (w : Word) (later : List HostInput),
    Inv s → s.cph = .idle → s.host = .command w :: later → step s = .next u → u.cph = .idle →
    ∃ (p : PortIn) (ps : List PortIn) (t : State),
      p.cmdValid = true ∧ p.cmdWord = w ∧ (∀ q ∈ p :: ps, q.rst = false)
      ∧ runClock (p :: ps) s = .ok t ∧ t.visible = u.visible
      ∧ SpellsFrom (spelledAnswers (p :: ps) s []) s.rx s.answers u.rx u.answers

/-- R133: the phases that wait for the transport hold while it does not move. -/
def Obligations.TransportPhasesHold : Prop :=
  ∀ (s : State) (p : PortIn), s.cph = .flush → p.rst = false → p.linkErr = false →
    ((s.fph = .tag ∨ s.fph = .cnt ∨ s.fph = .tms ∨ s.fph = .tdi) → p.txReady = false →
      clock p s = .ok s)
    ∧ (s.fph = .rx → p.rxValid = false → clock p s = .ok s)

/-- R136: outside the five I/O phases of a running flush `link_err` is not sampled. -/
def Obligations.LinkErrorIsSampledInIOPhasesOnly : Prop :=
  ∀ (s : State) (p : PortIn) (b : Bool),
    ¬ (s.cph = .flush ∧ (s.fph = .tag ∨ s.fph = .cnt ∨ s.fph = .tms ∨ s.fph = .tdi ∨ s.fph = .rx)) →
    clock { p with linkErr := b } s = clock p s
end

