-- ==== Sys2Proof/Laws/Memory.lean ====
section
/-! SUPPORT. The laws of a storage array: read after write, the canonical form and the bound of every
operation. -/

namespace Sys2Proof.Machine

theorem Memory.read_nil (i : Nat) : Memory.read [] i = 0#8 := rfl

/-- Every listed index lies above `i`. -/
theorem Memory.read_eq_zero_of_lt {m : Memory} {i j : Nat} (h : m.all (fun d => decide (i < d.1)) = true)
    (hj : j ≤ i) : Memory.read m j = 0#8 := by
  induction m with
  | nil => rfl
  | cons c m ih =>
    simp only [List.all_cons, Bool.and_eq_true, decide_eq_true_eq] at h
    rw [Memory.read, if_neg (by omega), ih h.2]

theorem Memory.wf_cons {c : Host.Cell} {m : Memory} :
    Memory.wf (c :: m) = true ↔
      c.2 ≠ 0#8 ∧ m.all (fun d => decide (c.1 < d.1)) = true ∧ Memory.wf m = true := by
  simp [Memory.wf, and_assoc]

theorem Memory.read_consCell {m : Memory} {i : Nat} {v : Byte}
    (h : m.all (fun d => decide (i < d.1)) = true) (j : Nat) :
    Memory.read (Memory.consCell i v m) j = if j = i then v else Memory.read m j := by
  unfold Memory.consCell
  split
  · rename_i hv
    split
    · rename_i hj; rw [Memory.read_eq_zero_of_lt h (le_of_eq hj), hv]
    · rfl
  · simp [Memory.read, eq_comm]

/-- Read after write: the written byte reads as written, every other as before. -/
theorem Memory.read_write {m : Memory} (hm : Memory.wf m = true) (i : Nat) (v : Byte) (j : Nat) :
    Memory.read (Memory.write m i v) j = if j = i then v else Memory.read m j := by
  induction m with
  | nil => exact Memory.read_consCell rfl j
  | cons c m ih =>
    obtain ⟨_, hlt, hwf⟩ := Memory.wf_cons.1 hm
    unfold Memory.write
    split
    · rename_i hci
      rw [Memory.read_consCell (by rw [← hci]; exact hlt)]
      split
      · rfl
      · rename_i hj; rw [Memory.read, if_neg (by omega)]
    · split
      · rename_i hci hlt'
        refine Memory.read_consCell ?_ j
        simp only [List.all_cons, Bool.and_eq_true, decide_eq_true_eq, List.all_eq_true] at hlt ⊢
        exact ⟨hlt', fun x hx => lt_trans hlt' (hlt x hx)⟩
      · rename_i hci hge
        simp only [Memory.read]
        split
        · rename_i hj; rw [if_neg (by omega)]
        · rw [ih hwf]

theorem Memory.wf_consCell {m : Memory} {i : Nat} {v : Byte} (hm : Memory.wf m = true)
    (h : m.all (fun d => decide (i < d.1)) = true) : Memory.wf (Memory.consCell i v m) = true := by
  unfold Memory.consCell
  split
  · exact hm
  · rename_i hv; exact Memory.wf_cons.2 ⟨hv, h, hm⟩

theorem Memory.all_consCell {m : Memory} {i : Nat} {v : Byte} {p : Nat → Bool}
    (hi : p i = true) (h : m.all (fun d => p d.1) = true) :
    (Memory.consCell i v m).all (fun d => p d.1) = true := by
  unfold Memory.consCell
  split
  · exact h
  · simp only [List.all_cons, Bool.and_eq_true]; exact ⟨hi, h⟩

/-- What holds of every listed index and of the written one holds after the write. -/
theorem Memory.all_write {m : Memory} {i : Nat} {v : Byte} {p : Nat → Bool}
    (hi : p i = true) (h : m.all (fun d => p d.1) = true) :
    (Memory.write m i v).all (fun d => p d.1) = true := by
  induction m with
  | nil => exact Memory.all_consCell hi rfl
  | cons c m ih =>
    have h' := h
    simp only [List.all_cons, Bool.and_eq_true] at h
    unfold Memory.write
    split
    · exact Memory.all_consCell hi h.2
    · split
      · exact Memory.all_consCell hi h'
      · simp only [List.all_cons, Bool.and_eq_true]; exact ⟨h.1, ih h.2⟩

/-- A write keeps the canonical form. -/
theorem Memory.wf_write {m : Memory} (hm : Memory.wf m = true) (i : Nat) (v : Byte) :
    Memory.wf (Memory.write m i v) = true := by
  induction m with
  | nil => exact Memory.wf_consCell rfl rfl
  | cons c m ih =>
    obtain ⟨h0, hlt, hwf⟩ := Memory.wf_cons.1 hm
    unfold Memory.write
    split
    · rename_i hci; exact Memory.wf_consCell hwf (by rw [← hci]; exact hlt)
    · split
      · rename_i hlt'
        refine Memory.wf_consCell hm ?_
        simp only [List.all_cons, Bool.and_eq_true, decide_eq_true_eq, List.all_eq_true] at hlt ⊢
        exact ⟨hlt', fun x hx => lt_trans hlt' (hlt x hx)⟩
      · rename_i hci hge
        exact Memory.wf_cons.2
          ⟨h0, Memory.all_write (p := fun a => decide (c.1 < a)) (by simp; omega) hlt, ih hwf⟩

/-- A write inside the array keeps every listed byte inside it. -/
theorem Memory.within_write {n : Nat} {m : Memory} (hm : Memory.within n m = true) {i : Nat} (hi : i < n)
    (v : Byte) : Memory.within n (Memory.write m i v) = true :=
  Memory.all_write (p := fun a => decide (a < n)) (by simpa using hi) hm

theorem Memory.wf_writeRange {m : Memory} (hm : Memory.wf m = true) (i : Nat) (bs : List Byte) :
    Memory.wf (Memory.writeRange m i bs) = true := by
  induction bs generalizing m i with
  | nil => exact hm
  | cons b bs ih => exact ih (Memory.wf_write hm i b) (i + 1)

theorem Memory.within_writeRange {n : Nat} {m : Memory} (hm : Memory.within n m = true) {i : Nat}
    {bs : List Byte} (h : i + bs.length ≤ n) : Memory.within n (Memory.writeRange m i bs) = true := by
  induction bs generalizing m i with
  | nil => exact hm
  | cons b bs ih =>
    simp only [List.length_cons] at h
    exact ih (Memory.within_write hm (by omega) b) (by omega)

/-- `MemWrite` then a read: inside the range the byte written there, outside it the byte before. -/
theorem Memory.read_writeRange {m : Memory} (hm : Memory.wf m = true) (i : Nat) (bs : List Byte) (j : Nat) :
    Memory.read (Memory.writeRange m i bs) j =
      if i ≤ j ∧ j < i + bs.length then bs.getD (j - i) 0#8 else Memory.read m j := by
  induction bs generalizing m i with
  | nil => simp [Memory.writeRange]
  | cons b bs ih =>
    rw [Memory.writeRange, ih (Memory.wf_write hm i b), Memory.read_write hm]
    by_cases hj : j = i
    · subst hj; simp
    · rw [if_neg hj]
      by_cases hin : i + 1 ≤ j ∧ j < i + 1 + bs.length
      · rw [if_pos hin, if_pos (by simp only [List.length_cons]; omega)]
        rw [show j - i = (j - (i + 1)) + 1 by omega, List.getD_cons_succ]
      · rw [if_neg hin, if_neg (by simp only [List.length_cons]; omega)]

@[simp] theorem Memory.length_readRange (m : Memory) (i n : Nat) :
    (Memory.readRange m i n).length = n := by
  induction n generalizing i with
  | zero => rfl
  | succ n ih => simp [Memory.readRange, ih]

theorem Memory.getD_readRange (m : Memory) (i n k : Nat) (h : k < n) :
    (Memory.readRange m i n).getD k 0#8 = Memory.read m (i + k) := by
  induction n generalizing i k with
  | zero => omega
  | succ n ih =>
    cases k with
    | zero => rfl
    | succ k =>
      rw [Memory.readRange, List.getD_cons_succ, ih (i + 1) k (by omega)]
      congr 1; omega

theorem Memory.wf_ofCells (cs : List Host.Cell) : Memory.wf (Memory.ofCells cs) = true := by
  induction cs with
  | nil => rfl
  | cons c cs ih => exact Memory.wf_write ih c.1 c.2

theorem Memory.within_ofCells {n : Nat} {cs : List Host.Cell} (h : ∀ c ∈ cs, c.1 < n) :
    Memory.within n (Memory.ofCells cs) = true := by
  induction cs with
  | nil => rfl
  | cons c cs ih =>
    exact Memory.within_write (ih fun d hd => h d (List.mem_cons_of_mem _ hd)) (h c List.mem_cons_self) c.2

/-- Two canonical arrays that read the same are the same list. -/
theorem Memory.ext_read {m m' : Memory} (hm : Memory.wf m = true) (hm' : Memory.wf m' = true)
    (h : ∀ i, Memory.read m i = Memory.read m' i) : m = m' := by
  induction m generalizing m' with
  | nil =>
    cases m' with
    | nil => rfl
    | cons c m' =>
      have := h c.1
      simp [Memory.read] at this
      exact absurd this.symm (Memory.wf_cons.1 hm').1
  | cons c m ih =>
    obtain ⟨h0, hlt, hwf⟩ := Memory.wf_cons.1 hm
    cases m' with
    | nil =>
      have := h c.1
      simp [Memory.read] at this
      exact absurd this h0
    | cons d m' =>
      obtain ⟨h0', hlt', hwf'⟩ := Memory.wf_cons.1 hm'
      have hcd : c.1 = d.1 := by
        by_contra hne
        rcases Nat.lt_or_gt_of_ne hne with hl | hg
        · have := h c.1
          rw [Memory.read, if_pos rfl, Memory.read, if_neg (by omega),
            Memory.read_eq_zero_of_lt hlt' (le_of_lt hl)] at this
          exact h0 this
        · have := h d.1
          rw [Memory.read, if_neg (by omega), Memory.read_eq_zero_of_lt hlt (le_of_lt hg),
            Memory.read, if_pos rfl] at this
          exact h0' this.symm
      have hv : c.2 = d.2 := by
        have := h c.1
        rwa [Memory.read, if_pos rfl, Memory.read, if_pos hcd.symm] at this
      have htail : m = m' := by
        refine ih hwf hwf' fun i => ?_
        by_cases hi : i = c.1
        · rw [Memory.read_eq_zero_of_lt hlt (le_of_eq hi),
            Memory.read_eq_zero_of_lt hlt' (by omega)]
        · have := h i
          rwa [Memory.read, if_neg (fun e => hi e.symm), Memory.read, if_neg (fun e => hi (by omega))] at this
      rw [htail, show c = d from Prod.ext hcd hv]

end Sys2Proof.Machine
end

