-- ==== Sys2Proof/Laws/State.lean ====
section
/-! SUPPORT. One lemma per field per update of the state: what each named update leaves and what it
sets. Written so that no proof unfolds a record update. -/

namespace Sys2Proof.Machine.State

variable (s : State)

/-! ### setPlane -/

@[simp] theorem setPlane_byteIdx (p : Plane) (m : Memory) : (s.setPlane p m).byteIdx = s.byteIdx := by cases p <;> rfl
@[simp] theorem setPlane_bitMask (p : Plane) (m : Memory) : (s.setPlane p m).bitMask = s.bitMask := by cases p <;> rfl
@[simp] theorem setPlane_err (p : Plane) (m : Memory) : (s.setPlane p m).err = s.err := by cases p <;> rfl
@[simp] theorem setPlane_errKind (p : Plane) (m : Memory) : (s.setPlane p m).errKind = s.errKind := by cases p <;> rfl
@[simp] theorem setPlane_isOpen (p : Plane) (m : Memory) : (s.setPlane p m).isOpen = s.isOpen := by cases p <;> rfl
@[simp] theorem setPlane_diagValid (p : Plane) (m : Memory) : (s.setPlane p m).diagValid = s.diagValid := by cases p <;> rfl
@[simp] theorem setPlane_diagIndex (p : Plane) (m : Memory) : (s.setPlane p m).diagIndex = s.diagIndex := by cases p <;> rfl
@[simp] theorem setPlane_diagObs (p : Plane) (m : Memory) : (s.setPlane p m).diagObs = s.diagObs := by cases p <;> rfl
@[simp] theorem setPlane_diagMask (p : Plane) (m : Memory) : (s.setPlane p m).diagMask = s.diagMask := by cases p <;> rfl
@[simp] theorem setPlane_diagExp (p : Plane) (m : Memory) : (s.setPlane p m).diagExp = s.diagExp := by cases p <;> rfl
@[simp] theorem setPlane_obs (p : Plane) (m : Memory) : (s.setPlane p m).obs = s.obs := by cases p <;> rfl
@[simp] theorem setPlane_fph (p : Plane) (m : Memory) : (s.setPlane p m).fph = s.fph := by cases p <;> rfl
@[simp] theorem setPlane_cph (p : Plane) (m : Memory) : (s.setPlane p m).cph = s.cph := by cases p <;> rfl
@[simp] theorem setPlane_hid (p : Plane) (m : Memory) : (s.setPlane p m).hid = s.hid := by cases p <;> rfl
@[simp] theorem setPlane_cap (p : Plane) (m : Memory) : (s.setPlane p m).cap = s.cap := by cases p <;> rfl
@[simp] theorem setPlane_tx (p : Plane) (m : Memory) : (s.setPlane p m).tx = s.tx := by cases p <;> rfl
@[simp] theorem setPlane_rx (p : Plane) (m : Memory) : (s.setPlane p m).rx = s.rx := by cases p <;> rfl
@[simp] theorem setPlane_answers (p : Plane) (m : Memory) : (s.setPlane p m).answers = s.answers := by cases p <;> rfl
@[simp] theorem setPlane_host (p : Plane) (m : Memory) : (s.setPlane p m).host = s.host := by cases p <;> rfl
@[simp] theorem setPlane_responses (p : Plane) (m : Memory) : (s.setPlane p m).responses = s.responses := by cases p <;> rfl
@[simp] theorem setPlane_events (p : Plane) (m : Memory) : (s.setPlane p m).events = s.events := by cases p <;> rfl
@[simp] theorem setPlane_cmps (p : Plane) (m : Memory) : (s.setPlane p m).cmps = s.cmps := by cases p <;> rfl
@[simp] theorem setPlane_draws (p : Plane) (m : Memory) : (s.setPlane p m).draws = s.draws := by cases p <;> rfl

/-! ### orBit -/

@[simp] theorem orBit_byteIdx (p : Plane) (v : Bool) : (s.orBit p v).byteIdx = s.byteIdx := by cases p <;> cases v <;> rfl
@[simp] theorem orBit_bitMask (p : Plane) (v : Bool) : (s.orBit p v).bitMask = s.bitMask := by cases p <;> cases v <;> rfl
@[simp] theorem orBit_err (p : Plane) (v : Bool) : (s.orBit p v).err = s.err := by cases p <;> cases v <;> rfl
@[simp] theorem orBit_errKind (p : Plane) (v : Bool) : (s.orBit p v).errKind = s.errKind := by cases p <;> cases v <;> rfl
@[simp] theorem orBit_isOpen (p : Plane) (v : Bool) : (s.orBit p v).isOpen = s.isOpen := by cases p <;> cases v <;> rfl
@[simp] theorem orBit_diagValid (p : Plane) (v : Bool) : (s.orBit p v).diagValid = s.diagValid := by cases p <;> cases v <;> rfl
@[simp] theorem orBit_diagIndex (p : Plane) (v : Bool) : (s.orBit p v).diagIndex = s.diagIndex := by cases p <;> cases v <;> rfl
@[simp] theorem orBit_diagObs (p : Plane) (v : Bool) : (s.orBit p v).diagObs = s.diagObs := by cases p <;> cases v <;> rfl
@[simp] theorem orBit_diagMask (p : Plane) (v : Bool) : (s.orBit p v).diagMask = s.diagMask := by cases p <;> cases v <;> rfl
@[simp] theorem orBit_diagExp (p : Plane) (v : Bool) : (s.orBit p v).diagExp = s.diagExp := by cases p <;> cases v <;> rfl
@[simp] theorem orBit_obs (p : Plane) (v : Bool) : (s.orBit p v).obs = s.obs := by cases p <;> cases v <;> rfl
@[simp] theorem orBit_fph (p : Plane) (v : Bool) : (s.orBit p v).fph = s.fph := by cases p <;> cases v <;> rfl
@[simp] theorem orBit_cph (p : Plane) (v : Bool) : (s.orBit p v).cph = s.cph := by cases p <;> cases v <;> rfl
@[simp] theorem orBit_hid (p : Plane) (v : Bool) : (s.orBit p v).hid = s.hid := by cases p <;> cases v <;> rfl
@[simp] theorem orBit_cap (p : Plane) (v : Bool) : (s.orBit p v).cap = s.cap := by cases p <;> cases v <;> rfl
@[simp] theorem orBit_tx (p : Plane) (v : Bool) : (s.orBit p v).tx = s.tx := by cases p <;> cases v <;> rfl
@[simp] theorem orBit_rx (p : Plane) (v : Bool) : (s.orBit p v).rx = s.rx := by cases p <;> cases v <;> rfl
@[simp] theorem orBit_answers (p : Plane) (v : Bool) : (s.orBit p v).answers = s.answers := by cases p <;> cases v <;> rfl
@[simp] theorem orBit_host (p : Plane) (v : Bool) : (s.orBit p v).host = s.host := by cases p <;> cases v <;> rfl
@[simp] theorem orBit_responses (p : Plane) (v : Bool) : (s.orBit p v).responses = s.responses := by cases p <;> cases v <;> rfl
@[simp] theorem orBit_events (p : Plane) (v : Bool) : (s.orBit p v).events = s.events := by cases p <;> cases v <;> rfl
@[simp] theorem orBit_cmps (p : Plane) (v : Bool) : (s.orBit p v).cmps = s.cmps := by cases p <;> cases v <;> rfl
@[simp] theorem orBit_draws (p : Plane) (v : Bool) : (s.orBit p v).draws = s.draws := by cases p <;> cases v <;> rfl

/-! ### moveCursor -/

@[simp] theorem moveCursor_tms : (s.moveCursor).tms = s.tms := by unfold State.moveCursor; split <;> rfl
@[simp] theorem moveCursor_tdi : (s.moveCursor).tdi = s.tdi := by unfold State.moveCursor; split <;> rfl
@[simp] theorem moveCursor_tdoExp : (s.moveCursor).tdoExp = s.tdoExp := by unfold State.moveCursor; split <;> rfl
@[simp] theorem moveCursor_mask : (s.moveCursor).mask = s.mask := by unfold State.moveCursor; split <;> rfl
@[simp] theorem moveCursor_err : (s.moveCursor).err = s.err := by unfold State.moveCursor; split <;> rfl
@[simp] theorem moveCursor_errKind : (s.moveCursor).errKind = s.errKind := by unfold State.moveCursor; split <;> rfl
@[simp] theorem moveCursor_isOpen : (s.moveCursor).isOpen = s.isOpen := by unfold State.moveCursor; split <;> rfl
@[simp] theorem moveCursor_diagValid : (s.moveCursor).diagValid = s.diagValid := by unfold State.moveCursor; split <;> rfl
@[simp] theorem moveCursor_diagIndex : (s.moveCursor).diagIndex = s.diagIndex := by unfold State.moveCursor; split <;> rfl
@[simp] theorem moveCursor_diagObs : (s.moveCursor).diagObs = s.diagObs := by unfold State.moveCursor; split <;> rfl
@[simp] theorem moveCursor_diagMask : (s.moveCursor).diagMask = s.diagMask := by unfold State.moveCursor; split <;> rfl
@[simp] theorem moveCursor_diagExp : (s.moveCursor).diagExp = s.diagExp := by unfold State.moveCursor; split <;> rfl
@[simp] theorem moveCursor_obs : (s.moveCursor).obs = s.obs := by unfold State.moveCursor; split <;> rfl
@[simp] theorem moveCursor_fph : (s.moveCursor).fph = s.fph := by unfold State.moveCursor; split <;> rfl
@[simp] theorem moveCursor_cph : (s.moveCursor).cph = s.cph := by unfold State.moveCursor; split <;> rfl
@[simp] theorem moveCursor_hid : (s.moveCursor).hid = s.hid := by unfold State.moveCursor; split <;> rfl
@[simp] theorem moveCursor_cap : (s.moveCursor).cap = s.cap := by unfold State.moveCursor; split <;> rfl
@[simp] theorem moveCursor_tx : (s.moveCursor).tx = s.tx := by unfold State.moveCursor; split <;> rfl
@[simp] theorem moveCursor_rx : (s.moveCursor).rx = s.rx := by unfold State.moveCursor; split <;> rfl
@[simp] theorem moveCursor_answers : (s.moveCursor).answers = s.answers := by unfold State.moveCursor; split <;> rfl
@[simp] theorem moveCursor_host : (s.moveCursor).host = s.host := by unfold State.moveCursor; split <;> rfl
@[simp] theorem moveCursor_responses : (s.moveCursor).responses = s.responses := by unfold State.moveCursor; split <;> rfl
@[simp] theorem moveCursor_events : (s.moveCursor).events = s.events := by unfold State.moveCursor; split <;> rfl
@[simp] theorem moveCursor_cmps : (s.moveCursor).cmps = s.cmps := by unfold State.moveCursor; split <;> rfl
@[simp] theorem moveCursor_draws : (s.moveCursor).draws = s.draws := by unfold State.moveCursor; split <;> rfl
@[simp] theorem moveCursor_plane (q : Plane) : (s.moveCursor).plane q = s.plane q := by cases q <;> simp [State.plane]

/-! ### forgetObs -/

@[simp] theorem forgetObs_tms : (s.forgetObs).tms = s.tms := rfl
@[simp] theorem forgetObs_tdi : (s.forgetObs).tdi = s.tdi := rfl
@[simp] theorem forgetObs_tdoExp : (s.forgetObs).tdoExp = s.tdoExp := rfl
@[simp] theorem forgetObs_mask : (s.forgetObs).mask = s.mask := rfl
@[simp] theorem forgetObs_byteIdx : (s.forgetObs).byteIdx = s.byteIdx := rfl
@[simp] theorem forgetObs_bitMask : (s.forgetObs).bitMask = s.bitMask := rfl
@[simp] theorem forgetObs_err : (s.forgetObs).err = s.err := rfl
@[simp] theorem forgetObs_errKind : (s.forgetObs).errKind = s.errKind := rfl
@[simp] theorem forgetObs_isOpen : (s.forgetObs).isOpen = s.isOpen := rfl
@[simp] theorem forgetObs_diagValid : (s.forgetObs).diagValid = s.diagValid := rfl
@[simp] theorem forgetObs_diagIndex : (s.forgetObs).diagIndex = s.diagIndex := rfl
@[simp] theorem forgetObs_diagObs : (s.forgetObs).diagObs = s.diagObs := rfl
@[simp] theorem forgetObs_diagMask : (s.forgetObs).diagMask = s.diagMask := rfl
@[simp] theorem forgetObs_diagExp : (s.forgetObs).diagExp = s.diagExp := rfl
@[simp] theorem forgetObs_obs : (s.forgetObs).obs = Memory.free s.cap s.draws 0 := rfl
@[simp] theorem forgetObs_fph : (s.forgetObs).fph = s.fph := rfl
@[simp] theorem forgetObs_cph : (s.forgetObs).cph = s.cph := rfl
@[simp] theorem forgetObs_hid : (s.forgetObs).hid = s.hid := rfl
@[simp] theorem forgetObs_cap : (s.forgetObs).cap = s.cap := rfl
@[simp] theorem forgetObs_tx : (s.forgetObs).tx = s.tx := rfl
@[simp] theorem forgetObs_rx : (s.forgetObs).rx = s.rx := rfl
@[simp] theorem forgetObs_answers : (s.forgetObs).answers = s.answers := rfl
@[simp] theorem forgetObs_host : (s.forgetObs).host = s.host := rfl
@[simp] theorem forgetObs_responses : (s.forgetObs).responses = s.responses := rfl
@[simp] theorem forgetObs_events : (s.forgetObs).events = s.events := rfl
@[simp] theorem forgetObs_cmps : (s.forgetObs).cmps = s.cmps := rfl
@[simp] theorem forgetObs_draws : (s.forgetObs).draws = s.draws + 1 := rfl
@[simp] theorem forgetObs_plane (q : Plane) : (s.forgetObs).plane q = s.plane q := by cases q <;> simp [State.plane]

/-! ### respond -/

@[simp] theorem respond_tms (st : Status) : (s.respond st).tms = s.tms := rfl
@[simp] theorem respond_tdi (st : Status) : (s.respond st).tdi = s.tdi := rfl
@[simp] theorem respond_tdoExp (st : Status) : (s.respond st).tdoExp = s.tdoExp := rfl
@[simp] theorem respond_mask (st : Status) : (s.respond st).mask = s.mask := rfl
@[simp] theorem respond_byteIdx (st : Status) : (s.respond st).byteIdx = s.byteIdx := rfl
@[simp] theorem respond_bitMask (st : Status) : (s.respond st).bitMask = s.bitMask := rfl
@[simp] theorem respond_err (st : Status) : (s.respond st).err = s.err := rfl
@[simp] theorem respond_errKind (st : Status) : (s.respond st).errKind = s.errKind := rfl
@[simp] theorem respond_isOpen (st : Status) : (s.respond st).isOpen = s.isOpen := rfl
@[simp] theorem respond_diagValid (st : Status) : (s.respond st).diagValid = s.diagValid := rfl
@[simp] theorem respond_diagIndex (st : Status) : (s.respond st).diagIndex = s.diagIndex := rfl
@[simp] theorem respond_diagObs (st : Status) : (s.respond st).diagObs = s.diagObs := rfl
@[simp] theorem respond_diagMask (st : Status) : (s.respond st).diagMask = s.diagMask := rfl
@[simp] theorem respond_diagExp (st : Status) : (s.respond st).diagExp = s.diagExp := rfl
@[simp] theorem respond_obs (st : Status) : (s.respond st).obs = s.obs := rfl
@[simp] theorem respond_fph (st : Status) : (s.respond st).fph = .idle := rfl
@[simp] theorem respond_cph (st : Status) : (s.respond st).cph = .idle := rfl
@[simp] theorem respond_hid (st : Status) : (s.respond st).hid = Hidden.free s.draws := rfl
@[simp] theorem respond_cap (st : Status) : (s.respond st).cap = s.cap := rfl
@[simp] theorem respond_tx (st : Status) : (s.respond st).tx = s.tx := rfl
@[simp] theorem respond_rx (st : Status) : (s.respond st).rx = s.rx := rfl
@[simp] theorem respond_answers (st : Status) : (s.respond st).answers = s.answers := rfl
@[simp] theorem respond_host (st : Status) : (s.respond st).host = s.host := rfl
@[simp] theorem respond_responses (st : Status) : (s.respond st).responses = s.responses ++ [(s.hid.cmd, st)] := rfl
@[simp] theorem respond_events (st : Status) : (s.respond st).events = s.events := rfl
@[simp] theorem respond_cmps (st : Status) : (s.respond st).cmps = s.cmps := rfl
@[simp] theorem respond_draws (st : Status) : (s.respond st).draws = s.draws + 1 := rfl
@[simp] theorem respond_plane (st : Status) (q : Plane) : (s.respond st).plane q = s.plane q := by cases q <;> simp [State.plane]

/-! ### raise -/

@[simp] theorem raise_tms (f : Failure) : (s.raise f).tms = s.tms := by cases f <;> rfl
@[simp] theorem raise_tdi (f : Failure) : (s.raise f).tdi = s.tdi := by cases f <;> rfl
@[simp] theorem raise_tdoExp (f : Failure) : (s.raise f).tdoExp = s.tdoExp := by cases f <;> rfl
@[simp] theorem raise_mask (f : Failure) : (s.raise f).mask = s.mask := by cases f <;> rfl
@[simp] theorem raise_byteIdx (f : Failure) : (s.raise f).byteIdx = s.byteIdx := by cases f <;> rfl
@[simp] theorem raise_bitMask (f : Failure) : (s.raise f).bitMask = s.bitMask := by cases f <;> rfl
@[simp] theorem raise_err (f : Failure) : (s.raise f).err = true := by cases f <;> rfl
@[simp] theorem raise_errKind (f : Failure) : (s.raise f).errKind = f.kind := by cases f <;> rfl
@[simp] theorem raise_isOpen (f : Failure) : (s.raise f).isOpen = s.isOpen := by cases f <;> rfl
@[simp] theorem raise_obs (f : Failure) : (s.raise f).obs = s.obs := by cases f <;> rfl
@[simp] theorem raise_fph (f : Failure) : (s.raise f).fph = s.fph := by cases f <;> rfl
@[simp] theorem raise_cph (f : Failure) : (s.raise f).cph = s.cph := by cases f <;> rfl
@[simp] theorem raise_hid (f : Failure) : (s.raise f).hid = s.hid := by cases f <;> rfl
@[simp] theorem raise_cap (f : Failure) : (s.raise f).cap = s.cap := by cases f <;> rfl
@[simp] theorem raise_tx (f : Failure) : (s.raise f).tx = s.tx := by cases f <;> rfl
@[simp] theorem raise_rx (f : Failure) : (s.raise f).rx = s.rx := by cases f <;> rfl
@[simp] theorem raise_answers (f : Failure) : (s.raise f).answers = s.answers := by cases f <;> rfl
@[simp] theorem raise_host (f : Failure) : (s.raise f).host = s.host := by cases f <;> rfl
@[simp] theorem raise_responses (f : Failure) : (s.raise f).responses = s.responses := by cases f <;> rfl
@[simp] theorem raise_cmps (f : Failure) : (s.raise f).cmps = s.cmps := by cases f <;> rfl
@[simp] theorem raise_draws (f : Failure) : (s.raise f).draws = s.draws := by cases f <;> rfl
@[simp] theorem raise_plane (f : Failure) (q : Plane) : (s.raise f).plane q = s.plane q := by cases q <;> simp [State.plane]

/-! ### clearAndReset -/

@[simp] theorem clearAndReset_tms : (s.clearAndReset).tms = [] := rfl
@[simp] theorem clearAndReset_tdi : (s.clearAndReset).tdi = [] := rfl
@[simp] theorem clearAndReset_tdoExp : (s.clearAndReset).tdoExp = [] := rfl
@[simp] theorem clearAndReset_mask : (s.clearAndReset).mask = [] := rfl
@[simp] theorem clearAndReset_byteIdx : (s.clearAndReset).byteIdx = 0 := rfl
@[simp] theorem clearAndReset_bitMask : (s.clearAndReset).bitMask = 0x01#8 := rfl
@[simp] theorem clearAndReset_err : (s.clearAndReset).err = s.err := rfl
@[simp] theorem clearAndReset_errKind : (s.clearAndReset).errKind = s.errKind := rfl
@[simp] theorem clearAndReset_isOpen : (s.clearAndReset).isOpen = s.isOpen := rfl
@[simp] theorem clearAndReset_diagValid : (s.clearAndReset).diagValid = s.diagValid := rfl
@[simp] theorem clearAndReset_diagIndex : (s.clearAndReset).diagIndex = s.diagIndex := rfl
@[simp] theorem clearAndReset_diagObs : (s.clearAndReset).diagObs = s.diagObs := rfl
@[simp] theorem clearAndReset_diagMask : (s.clearAndReset).diagMask = s.diagMask := rfl
@[simp] theorem clearAndReset_diagExp : (s.clearAndReset).diagExp = s.diagExp := rfl
@[simp] theorem clearAndReset_obs : (s.clearAndReset).obs = s.obs := rfl
@[simp] theorem clearAndReset_fph : (s.clearAndReset).fph = s.fph := rfl
@[simp] theorem clearAndReset_cph : (s.clearAndReset).cph = s.cph := rfl
@[simp] theorem clearAndReset_hid : (s.clearAndReset).hid = s.hid := rfl
@[simp] theorem clearAndReset_cap : (s.clearAndReset).cap = s.cap := rfl
@[simp] theorem clearAndReset_tx : (s.clearAndReset).tx = s.tx := rfl
@[simp] theorem clearAndReset_rx : (s.clearAndReset).rx = s.rx := rfl
@[simp] theorem clearAndReset_answers : (s.clearAndReset).answers = s.answers := rfl
@[simp] theorem clearAndReset_host : (s.clearAndReset).host = s.host := rfl
@[simp] theorem clearAndReset_responses : (s.clearAndReset).responses = s.responses := rfl
@[simp] theorem clearAndReset_events : (s.clearAndReset).events = s.events := rfl
@[simp] theorem clearAndReset_cmps : (s.clearAndReset).cmps = s.cmps := rfl
@[simp] theorem clearAndReset_draws : (s.clearAndReset).draws = s.draws := rfl

/-! ### freshSession -/

@[simp] theorem freshSession_tms : (s.freshSession).tms = [] := rfl
@[simp] theorem freshSession_tdi : (s.freshSession).tdi = [] := rfl
@[simp] theorem freshSession_tdoExp : (s.freshSession).tdoExp = [] := rfl
@[simp] theorem freshSession_mask : (s.freshSession).mask = [] := rfl
@[simp] theorem freshSession_byteIdx : (s.freshSession).byteIdx = 0 := rfl
@[simp] theorem freshSession_bitMask : (s.freshSession).bitMask = 0x01#8 := rfl
@[simp] theorem freshSession_err : (s.freshSession).err = false := rfl
@[simp] theorem freshSession_errKind : (s.freshSession).errKind = .none := rfl
@[simp] theorem freshSession_isOpen : (s.freshSession).isOpen = true := rfl
@[simp] theorem freshSession_diagValid : (s.freshSession).diagValid = false := rfl
@[simp] theorem freshSession_diagIndex : (s.freshSession).diagIndex = 0 := rfl
@[simp] theorem freshSession_diagObs : (s.freshSession).diagObs = 0#8 := rfl
@[simp] theorem freshSession_diagMask : (s.freshSession).diagMask = 0#8 := rfl
@[simp] theorem freshSession_diagExp : (s.freshSession).diagExp = 0#8 := rfl
@[simp] theorem freshSession_obs : (s.freshSession).obs = Memory.free s.cap s.draws 0 := rfl
@[simp] theorem freshSession_fph : (s.freshSession).fph = s.fph := rfl
@[simp] theorem freshSession_cph : (s.freshSession).cph = s.cph := rfl
@[simp] theorem freshSession_hid : (s.freshSession).hid = s.hid := rfl
@[simp] theorem freshSession_cap : (s.freshSession).cap = s.cap := rfl
@[simp] theorem freshSession_tx : (s.freshSession).tx = s.tx := rfl
@[simp] theorem freshSession_rx : (s.freshSession).rx = s.rx := rfl
@[simp] theorem freshSession_answers : (s.freshSession).answers = s.answers := rfl
@[simp] theorem freshSession_host : (s.freshSession).host = s.host := rfl
@[simp] theorem freshSession_responses : (s.freshSession).responses = s.responses := rfl
@[simp] theorem freshSession_events : (s.freshSession).events = s.events := rfl
@[simp] theorem freshSession_cmps : (s.freshSession).cmps = s.cmps := rfl
@[simp] theorem freshSession_draws : (s.freshSession).draws = s.draws + 1 := rfl

/-! ### hardwareReset -/

@[simp] theorem hardwareReset_tms : (s.hardwareReset).tms = Memory.free s.cap s.draws 1 := rfl
@[simp] theorem hardwareReset_tdi : (s.hardwareReset).tdi = Memory.free s.cap s.draws 2 := rfl
@[simp] theorem hardwareReset_tdoExp : (s.hardwareReset).tdoExp = Memory.free s.cap s.draws 3 := rfl
@[simp] theorem hardwareReset_mask : (s.hardwareReset).mask = Memory.free s.cap s.draws 4 := rfl
@[simp] theorem hardwareReset_byteIdx : (s.hardwareReset).byteIdx = 0 := rfl
@[simp] theorem hardwareReset_bitMask : (s.hardwareReset).bitMask = 0x01#8 := rfl
@[simp] theorem hardwareReset_err : (s.hardwareReset).err = false := rfl
@[simp] theorem hardwareReset_errKind : (s.hardwareReset).errKind = .none := rfl
@[simp] theorem hardwareReset_isOpen : (s.hardwareReset).isOpen = false := rfl
@[simp] theorem hardwareReset_diagValid : (s.hardwareReset).diagValid = false := rfl
@[simp] theorem hardwareReset_diagIndex : (s.hardwareReset).diagIndex = 0 := rfl
@[simp] theorem hardwareReset_diagObs : (s.hardwareReset).diagObs = 0#8 := rfl
@[simp] theorem hardwareReset_diagMask : (s.hardwareReset).diagMask = 0#8 := rfl
@[simp] theorem hardwareReset_diagExp : (s.hardwareReset).diagExp = 0#8 := rfl
@[simp] theorem hardwareReset_obs : (s.hardwareReset).obs = Memory.free s.cap s.draws 0 := rfl
@[simp] theorem hardwareReset_fph : (s.hardwareReset).fph = .idle := rfl
@[simp] theorem hardwareReset_cph : (s.hardwareReset).cph = .idle := rfl
@[simp] theorem hardwareReset_hid : (s.hardwareReset).hid = Hidden.free s.draws := rfl
@[simp] theorem hardwareReset_cap : (s.hardwareReset).cap = s.cap := rfl
@[simp] theorem hardwareReset_tx : (s.hardwareReset).tx = s.tx := rfl
@[simp] theorem hardwareReset_rx : (s.hardwareReset).rx = s.rx := rfl
@[simp] theorem hardwareReset_answers : (s.hardwareReset).answers = s.answers := rfl
@[simp] theorem hardwareReset_host : (s.hardwareReset).host = s.host := rfl
@[simp] theorem hardwareReset_responses : (s.hardwareReset).responses = s.responses := rfl
@[simp] theorem hardwareReset_events : (s.hardwareReset).events = s.events := rfl
@[simp] theorem hardwareReset_cmps : (s.hardwareReset).cmps = s.cmps := rfl
@[simp] theorem hardwareReset_draws : (s.hardwareReset).draws = s.draws + 1 := rfl

/-! ### dropAnswer -/

@[simp] theorem dropAnswer_tms : (s.dropAnswer).tms = s.tms := by unfold State.dropAnswer; split <;> rfl
@[simp] theorem dropAnswer_tdi : (s.dropAnswer).tdi = s.tdi := by unfold State.dropAnswer; split <;> rfl
@[simp] theorem dropAnswer_tdoExp : (s.dropAnswer).tdoExp = s.tdoExp := by unfold State.dropAnswer; split <;> rfl
@[simp] theorem dropAnswer_mask : (s.dropAnswer).mask = s.mask := by unfold State.dropAnswer; split <;> rfl
@[simp] theorem dropAnswer_byteIdx : (s.dropAnswer).byteIdx = s.byteIdx := by unfold State.dropAnswer; split <;> rfl
@[simp] theorem dropAnswer_bitMask : (s.dropAnswer).bitMask = s.bitMask := by unfold State.dropAnswer; split <;> rfl
@[simp] theorem dropAnswer_err : (s.dropAnswer).err = s.err := by unfold State.dropAnswer; split <;> rfl
@[simp] theorem dropAnswer_errKind : (s.dropAnswer).errKind = s.errKind := by unfold State.dropAnswer; split <;> rfl
@[simp] theorem dropAnswer_isOpen : (s.dropAnswer).isOpen = s.isOpen := by unfold State.dropAnswer; split <;> rfl
@[simp] theorem dropAnswer_diagValid : (s.dropAnswer).diagValid = s.diagValid := by unfold State.dropAnswer; split <;> rfl
@[simp] theorem dropAnswer_diagIndex : (s.dropAnswer).diagIndex = s.diagIndex := by unfold State.dropAnswer; split <;> rfl
@[simp] theorem dropAnswer_diagObs : (s.dropAnswer).diagObs = s.diagObs := by unfold State.dropAnswer; split <;> rfl
@[simp] theorem dropAnswer_diagMask : (s.dropAnswer).diagMask = s.diagMask := by unfold State.dropAnswer; split <;> rfl
@[simp] theorem dropAnswer_diagExp : (s.dropAnswer).diagExp = s.diagExp := by unfold State.dropAnswer; split <;> rfl
@[simp] theorem dropAnswer_obs : (s.dropAnswer).obs = s.obs := by unfold State.dropAnswer; split <;> rfl
@[simp] theorem dropAnswer_fph : (s.dropAnswer).fph = s.fph := by unfold State.dropAnswer; split <;> rfl
@[simp] theorem dropAnswer_cph : (s.dropAnswer).cph = s.cph := by unfold State.dropAnswer; split <;> rfl
@[simp] theorem dropAnswer_hid : (s.dropAnswer).hid = s.hid := by unfold State.dropAnswer; split <;> rfl
@[simp] theorem dropAnswer_cap : (s.dropAnswer).cap = s.cap := by unfold State.dropAnswer; split <;> rfl
@[simp] theorem dropAnswer_tx : (s.dropAnswer).tx = s.tx := by unfold State.dropAnswer; split <;> rfl
@[simp] theorem dropAnswer_rx : (s.dropAnswer).rx = s.rx := by unfold State.dropAnswer; split <;> rfl
@[simp] theorem dropAnswer_host : (s.dropAnswer).host = s.host := by unfold State.dropAnswer; split <;> rfl
@[simp] theorem dropAnswer_responses : (s.dropAnswer).responses = s.responses := by unfold State.dropAnswer; split <;> rfl
@[simp] theorem dropAnswer_events : (s.dropAnswer).events = s.events := by unfold State.dropAnswer; split <;> rfl
@[simp] theorem dropAnswer_cmps : (s.dropAnswer).cmps = s.cmps := by unfold State.dropAnswer; split <;> rfl
@[simp] theorem dropAnswer_plane (q : Plane) : (s.dropAnswer).plane q = s.plane q := by cases q <;> simp [State.plane]

/-! ### onWire -/

@[simp] theorem onWire_tms (sent r : List Byte) (m : Memory) : (s.onWire sent r m).tms = s.tms := by simp [State.onWire]
@[simp] theorem onWire_tdi (sent r : List Byte) (m : Memory) : (s.onWire sent r m).tdi = s.tdi := by simp [State.onWire]
@[simp] theorem onWire_tdoExp (sent r : List Byte) (m : Memory) : (s.onWire sent r m).tdoExp = s.tdoExp := by simp [State.onWire]
@[simp] theorem onWire_mask (sent r : List Byte) (m : Memory) : (s.onWire sent r m).mask = s.mask := by simp [State.onWire]
@[simp] theorem onWire_byteIdx (sent r : List Byte) (m : Memory) : (s.onWire sent r m).byteIdx = s.byteIdx := by simp [State.onWire]
@[simp] theorem onWire_bitMask (sent r : List Byte) (m : Memory) : (s.onWire sent r m).bitMask = s.bitMask := by simp [State.onWire]
@[simp] theorem onWire_err (sent r : List Byte) (m : Memory) : (s.onWire sent r m).err = s.err := by simp [State.onWire]
@[simp] theorem onWire_errKind (sent r : List Byte) (m : Memory) : (s.onWire sent r m).errKind = s.errKind := by simp [State.onWire]
@[simp] theorem onWire_isOpen (sent r : List Byte) (m : Memory) : (s.onWire sent r m).isOpen = s.isOpen := by simp [State.onWire]
@[simp] theorem onWire_diagValid (sent r : List Byte) (m : Memory) : (s.onWire sent r m).diagValid = s.diagValid := by simp [State.onWire]
@[simp] theorem onWire_diagIndex (sent r : List Byte) (m : Memory) : (s.onWire sent r m).diagIndex = s.diagIndex := by simp [State.onWire]
@[simp] theorem onWire_diagObs (sent r : List Byte) (m : Memory) : (s.onWire sent r m).diagObs = s.diagObs := by simp [State.onWire]
@[simp] theorem onWire_diagMask (sent r : List Byte) (m : Memory) : (s.onWire sent r m).diagMask = s.diagMask := by simp [State.onWire]
@[simp] theorem onWire_diagExp (sent r : List Byte) (m : Memory) : (s.onWire sent r m).diagExp = s.diagExp := by simp [State.onWire]
@[simp] theorem onWire_obs (sent r : List Byte) (m : Memory) : (s.onWire sent r m).obs = m := by simp [State.onWire]
@[simp] theorem onWire_fph (sent r : List Byte) (m : Memory) : (s.onWire sent r m).fph = s.fph := by simp [State.onWire]
@[simp] theorem onWire_cph (sent r : List Byte) (m : Memory) : (s.onWire sent r m).cph = s.cph := by simp [State.onWire]
@[simp] theorem onWire_hid (sent r : List Byte) (m : Memory) : (s.onWire sent r m).hid = s.hid := by simp [State.onWire]
@[simp] theorem onWire_cap (sent r : List Byte) (m : Memory) : (s.onWire sent r m).cap = s.cap := by simp [State.onWire]
@[simp] theorem onWire_tx (sent r : List Byte) (m : Memory) : (s.onWire sent r m).tx = s.tx ++ sent := by simp [State.onWire]
@[simp] theorem onWire_rx (sent r : List Byte) (m : Memory) : (s.onWire sent r m).rx = r := by simp [State.onWire]
@[simp] theorem onWire_host (sent r : List Byte) (m : Memory) : (s.onWire sent r m).host = s.host := by simp [State.onWire]
@[simp] theorem onWire_responses (sent r : List Byte) (m : Memory) : (s.onWire sent r m).responses = s.responses := by simp [State.onWire]
@[simp] theorem onWire_events (sent r : List Byte) (m : Memory) : (s.onWire sent r m).events = s.events := by simp [State.onWire]
@[simp] theorem onWire_cmps (sent r : List Byte) (m : Memory) : (s.onWire sent r m).cmps = s.cmps := by simp [State.onWire]

/-! ### stuckIn -/

@[simp] theorem stuckIn_tms (n : Nat) (ph : FlushPhase × Nat) : (s.stuckIn n ph).tms = s.tms := rfl
@[simp] theorem stuckIn_tdi (n : Nat) (ph : FlushPhase × Nat) : (s.stuckIn n ph).tdi = s.tdi := rfl
@[simp] theorem stuckIn_tdoExp (n : Nat) (ph : FlushPhase × Nat) : (s.stuckIn n ph).tdoExp = s.tdoExp := rfl
@[simp] theorem stuckIn_mask (n : Nat) (ph : FlushPhase × Nat) : (s.stuckIn n ph).mask = s.mask := rfl
@[simp] theorem stuckIn_byteIdx (n : Nat) (ph : FlushPhase × Nat) : (s.stuckIn n ph).byteIdx = s.byteIdx := rfl
@[simp] theorem stuckIn_bitMask (n : Nat) (ph : FlushPhase × Nat) : (s.stuckIn n ph).bitMask = s.bitMask := rfl
@[simp] theorem stuckIn_err (n : Nat) (ph : FlushPhase × Nat) : (s.stuckIn n ph).err = s.err := rfl
@[simp] theorem stuckIn_errKind (n : Nat) (ph : FlushPhase × Nat) : (s.stuckIn n ph).errKind = s.errKind := rfl
@[simp] theorem stuckIn_isOpen (n : Nat) (ph : FlushPhase × Nat) : (s.stuckIn n ph).isOpen = s.isOpen := rfl
@[simp] theorem stuckIn_diagValid (n : Nat) (ph : FlushPhase × Nat) : (s.stuckIn n ph).diagValid = s.diagValid := rfl
@[simp] theorem stuckIn_diagIndex (n : Nat) (ph : FlushPhase × Nat) : (s.stuckIn n ph).diagIndex = s.diagIndex := rfl
@[simp] theorem stuckIn_diagObs (n : Nat) (ph : FlushPhase × Nat) : (s.stuckIn n ph).diagObs = s.diagObs := rfl
@[simp] theorem stuckIn_diagMask (n : Nat) (ph : FlushPhase × Nat) : (s.stuckIn n ph).diagMask = s.diagMask := rfl
@[simp] theorem stuckIn_diagExp (n : Nat) (ph : FlushPhase × Nat) : (s.stuckIn n ph).diagExp = s.diagExp := rfl
@[simp] theorem stuckIn_obs (n : Nat) (ph : FlushPhase × Nat) : (s.stuckIn n ph).obs = s.obs := rfl
@[simp] theorem stuckIn_fph (n : Nat) (ph : FlushPhase × Nat) : (s.stuckIn n ph).fph = ph.1 := rfl
@[simp] theorem stuckIn_cph (n : Nat) (ph : FlushPhase × Nat) : (s.stuckIn n ph).cph = .flush := rfl
@[simp] theorem stuckIn_cap (n : Nat) (ph : FlushPhase × Nat) : (s.stuckIn n ph).cap = s.cap := rfl
@[simp] theorem stuckIn_tx (n : Nat) (ph : FlushPhase × Nat) : (s.stuckIn n ph).tx = s.tx := rfl
@[simp] theorem stuckIn_rx (n : Nat) (ph : FlushPhase × Nat) : (s.stuckIn n ph).rx = s.rx := rfl
@[simp] theorem stuckIn_answers (n : Nat) (ph : FlushPhase × Nat) : (s.stuckIn n ph).answers = s.answers := rfl
@[simp] theorem stuckIn_host (n : Nat) (ph : FlushPhase × Nat) : (s.stuckIn n ph).host = s.host := rfl
@[simp] theorem stuckIn_responses (n : Nat) (ph : FlushPhase × Nat) : (s.stuckIn n ph).responses = s.responses := rfl
@[simp] theorem stuckIn_events (n : Nat) (ph : FlushPhase × Nat) : (s.stuckIn n ph).events = s.events := rfl
@[simp] theorem stuckIn_cmps (n : Nat) (ph : FlushPhase × Nat) : (s.stuckIn n ph).cmps = s.cmps := rfl
@[simp] theorem stuckIn_draws (n : Nat) (ph : FlushPhase × Nat) : (s.stuckIn n ph).draws = s.draws := rfl
@[simp] theorem stuckIn_plane (n : Nat) (ph : FlushPhase × Nat) (q : Plane) : (s.stuckIn n ph).plane q = s.plane q := by cases q <;> simp [State.plane]

/-! ### countCmps -/

@[simp] theorem countCmps_tms (k : Nat) : (s.countCmps k).tms = s.tms := rfl
@[simp] theorem countCmps_tdi (k : Nat) : (s.countCmps k).tdi = s.tdi := rfl
@[simp] theorem countCmps_tdoExp (k : Nat) : (s.countCmps k).tdoExp = s.tdoExp := rfl
@[simp] theorem countCmps_mask (k : Nat) : (s.countCmps k).mask = s.mask := rfl
@[simp] theorem countCmps_byteIdx (k : Nat) : (s.countCmps k).byteIdx = s.byteIdx := rfl
@[simp] theorem countCmps_bitMask (k : Nat) : (s.countCmps k).bitMask = s.bitMask := rfl
@[simp] theorem countCmps_err (k : Nat) : (s.countCmps k).err = s.err := rfl
@[simp] theorem countCmps_errKind (k : Nat) : (s.countCmps k).errKind = s.errKind := rfl
@[simp] theorem countCmps_isOpen (k : Nat) : (s.countCmps k).isOpen = s.isOpen := rfl
@[simp] theorem countCmps_diagValid (k : Nat) : (s.countCmps k).diagValid = s.diagValid := rfl
@[simp] theorem countCmps_diagIndex (k : Nat) : (s.countCmps k).diagIndex = s.diagIndex := rfl
@[simp] theorem countCmps_diagObs (k : Nat) : (s.countCmps k).diagObs = s.diagObs := rfl
@[simp] theorem countCmps_diagMask (k : Nat) : (s.countCmps k).diagMask = s.diagMask := rfl
@[simp] theorem countCmps_diagExp (k : Nat) : (s.countCmps k).diagExp = s.diagExp := rfl
@[simp] theorem countCmps_obs (k : Nat) : (s.countCmps k).obs = s.obs := rfl
@[simp] theorem countCmps_fph (k : Nat) : (s.countCmps k).fph = s.fph := rfl
@[simp] theorem countCmps_cph (k : Nat) : (s.countCmps k).cph = s.cph := rfl
@[simp] theorem countCmps_hid (k : Nat) : (s.countCmps k).hid = s.hid := rfl
@[simp] theorem countCmps_cap (k : Nat) : (s.countCmps k).cap = s.cap := rfl
@[simp] theorem countCmps_tx (k : Nat) : (s.countCmps k).tx = s.tx := rfl
@[simp] theorem countCmps_rx (k : Nat) : (s.countCmps k).rx = s.rx := rfl
@[simp] theorem countCmps_answers (k : Nat) : (s.countCmps k).answers = s.answers := rfl
@[simp] theorem countCmps_host (k : Nat) : (s.countCmps k).host = s.host := rfl
@[simp] theorem countCmps_responses (k : Nat) : (s.countCmps k).responses = s.responses := rfl
@[simp] theorem countCmps_events (k : Nat) : (s.countCmps k).events = s.events := rfl
@[simp] theorem countCmps_cmps (k : Nat) : (s.countCmps k).cmps = s.cmps + k := rfl
@[simp] theorem countCmps_draws (k : Nat) : (s.countCmps k).draws = s.draws := rfl
@[simp] theorem countCmps_plane (k : Nat) (q : Plane) : (s.countCmps k).plane q = s.plane q := by cases q <;> simp [State.plane]

/-! ### closeSession -/

@[simp] theorem closeSession_tms : (s.closeSession).tms = s.tms := rfl
@[simp] theorem closeSession_tdi : (s.closeSession).tdi = s.tdi := rfl
@[simp] theorem closeSession_tdoExp : (s.closeSession).tdoExp = s.tdoExp := rfl
@[simp] theorem closeSession_mask : (s.closeSession).mask = s.mask := rfl
@[simp] theorem closeSession_byteIdx : (s.closeSession).byteIdx = s.byteIdx := rfl
@[simp] theorem closeSession_bitMask : (s.closeSession).bitMask = s.bitMask := rfl
@[simp] theorem closeSession_err : (s.closeSession).err = s.err := rfl
@[simp] theorem closeSession_errKind : (s.closeSession).errKind = s.errKind := rfl
@[simp] theorem closeSession_isOpen : (s.closeSession).isOpen = false := rfl
@[simp] theorem closeSession_diagValid : (s.closeSession).diagValid = s.diagValid := rfl
@[simp] theorem closeSession_diagIndex : (s.closeSession).diagIndex = s.diagIndex := rfl
@[simp] theorem closeSession_diagObs : (s.closeSession).diagObs = s.diagObs := rfl
@[simp] theorem closeSession_diagMask : (s.closeSession).diagMask = s.diagMask := rfl
@[simp] theorem closeSession_diagExp : (s.closeSession).diagExp = s.diagExp := rfl
@[simp] theorem closeSession_obs : (s.closeSession).obs = s.obs := rfl
@[simp] theorem closeSession_fph : (s.closeSession).fph = s.fph := rfl
@[simp] theorem closeSession_cph : (s.closeSession).cph = s.cph := rfl
@[simp] theorem closeSession_hid : (s.closeSession).hid = s.hid := rfl
@[simp] theorem closeSession_cap : (s.closeSession).cap = s.cap := rfl
@[simp] theorem closeSession_tx : (s.closeSession).tx = s.tx := rfl
@[simp] theorem closeSession_rx : (s.closeSession).rx = s.rx := rfl
@[simp] theorem closeSession_answers : (s.closeSession).answers = s.answers := rfl
@[simp] theorem closeSession_host : (s.closeSession).host = s.host := rfl
@[simp] theorem closeSession_responses : (s.closeSession).responses = s.responses := rfl
@[simp] theorem closeSession_events : (s.closeSession).events = s.events := rfl
@[simp] theorem closeSession_cmps : (s.closeSession).cmps = s.cmps := rfl
@[simp] theorem closeSession_draws : (s.closeSession).draws = s.draws := rfl
@[simp] theorem closeSession_plane (q : Plane) : (s.closeSession).plane q = s.plane q := by cases q <;> simp [State.plane]

/-! ### setWcnt -/

@[simp] theorem setWcnt_tms (k : Nat) : (s.setWcnt k).tms = s.tms := rfl
@[simp] theorem setWcnt_tdi (k : Nat) : (s.setWcnt k).tdi = s.tdi := rfl
@[simp] theorem setWcnt_tdoExp (k : Nat) : (s.setWcnt k).tdoExp = s.tdoExp := rfl
@[simp] theorem setWcnt_mask (k : Nat) : (s.setWcnt k).mask = s.mask := rfl
@[simp] theorem setWcnt_byteIdx (k : Nat) : (s.setWcnt k).byteIdx = s.byteIdx := rfl
@[simp] theorem setWcnt_bitMask (k : Nat) : (s.setWcnt k).bitMask = s.bitMask := rfl
@[simp] theorem setWcnt_err (k : Nat) : (s.setWcnt k).err = s.err := rfl
@[simp] theorem setWcnt_errKind (k : Nat) : (s.setWcnt k).errKind = s.errKind := rfl
@[simp] theorem setWcnt_isOpen (k : Nat) : (s.setWcnt k).isOpen = s.isOpen := rfl
@[simp] theorem setWcnt_diagValid (k : Nat) : (s.setWcnt k).diagValid = s.diagValid := rfl
@[simp] theorem setWcnt_diagIndex (k : Nat) : (s.setWcnt k).diagIndex = s.diagIndex := rfl
@[simp] theorem setWcnt_diagObs (k : Nat) : (s.setWcnt k).diagObs = s.diagObs := rfl
@[simp] theorem setWcnt_diagMask (k : Nat) : (s.setWcnt k).diagMask = s.diagMask := rfl
@[simp] theorem setWcnt_diagExp (k : Nat) : (s.setWcnt k).diagExp = s.diagExp := rfl
@[simp] theorem setWcnt_obs (k : Nat) : (s.setWcnt k).obs = s.obs := rfl
@[simp] theorem setWcnt_fph (k : Nat) : (s.setWcnt k).fph = s.fph := rfl
@[simp] theorem setWcnt_cph (k : Nat) : (s.setWcnt k).cph = s.cph := rfl
@[simp] theorem setWcnt_cap (k : Nat) : (s.setWcnt k).cap = s.cap := rfl
@[simp] theorem setWcnt_tx (k : Nat) : (s.setWcnt k).tx = s.tx := rfl
@[simp] theorem setWcnt_rx (k : Nat) : (s.setWcnt k).rx = s.rx := rfl
@[simp] theorem setWcnt_answers (k : Nat) : (s.setWcnt k).answers = s.answers := rfl
@[simp] theorem setWcnt_host (k : Nat) : (s.setWcnt k).host = s.host := rfl
@[simp] theorem setWcnt_responses (k : Nat) : (s.setWcnt k).responses = s.responses := rfl
@[simp] theorem setWcnt_events (k : Nat) : (s.setWcnt k).events = s.events := rfl
@[simp] theorem setWcnt_cmps (k : Nat) : (s.setWcnt k).cmps = s.cmps := rfl
@[simp] theorem setWcnt_draws (k : Nat) : (s.setWcnt k).draws = s.draws := rfl
@[simp] theorem setWcnt_plane (k : Nat) (q : Plane) : (s.setWcnt k).plane q = s.plane q := by cases q <;> simp [State.plane]

/-! ### enterWait -/

@[simp] theorem enterWait_tms (k : Nat) : (s.enterWait k).tms = s.tms := rfl
@[simp] theorem enterWait_tdi (k : Nat) : (s.enterWait k).tdi = s.tdi := rfl
@[simp] theorem enterWait_tdoExp (k : Nat) : (s.enterWait k).tdoExp = s.tdoExp := rfl
@[simp] theorem enterWait_mask (k : Nat) : (s.enterWait k).mask = s.mask := rfl
@[simp] theorem enterWait_byteIdx (k : Nat) : (s.enterWait k).byteIdx = s.byteIdx := rfl
@[simp] theorem enterWait_bitMask (k : Nat) : (s.enterWait k).bitMask = s.bitMask := rfl
@[simp] theorem enterWait_err (k : Nat) : (s.enterWait k).err = s.err := rfl
@[simp] theorem enterWait_errKind (k : Nat) : (s.enterWait k).errKind = s.errKind := rfl
@[simp] theorem enterWait_isOpen (k : Nat) : (s.enterWait k).isOpen = s.isOpen := rfl
@[simp] theorem enterWait_diagValid (k : Nat) : (s.enterWait k).diagValid = s.diagValid := rfl
@[simp] theorem enterWait_diagIndex (k : Nat) : (s.enterWait k).diagIndex = s.diagIndex := rfl
@[simp] theorem enterWait_diagObs (k : Nat) : (s.enterWait k).diagObs = s.diagObs := rfl
@[simp] theorem enterWait_diagMask (k : Nat) : (s.enterWait k).diagMask = s.diagMask := rfl
@[simp] theorem enterWait_diagExp (k : Nat) : (s.enterWait k).diagExp = s.diagExp := rfl
@[simp] theorem enterWait_obs (k : Nat) : (s.enterWait k).obs = s.obs := rfl
@[simp] theorem enterWait_fph (k : Nat) : (s.enterWait k).fph = s.fph := rfl
@[simp] theorem enterWait_cph (k : Nat) : (s.enterWait k).cph = s.cph := rfl
@[simp] theorem enterWait_cap (k : Nat) : (s.enterWait k).cap = s.cap := rfl
@[simp] theorem enterWait_tx (k : Nat) : (s.enterWait k).tx = s.tx := rfl
@[simp] theorem enterWait_rx (k : Nat) : (s.enterWait k).rx = s.rx := rfl
@[simp] theorem enterWait_answers (k : Nat) : (s.enterWait k).answers = s.answers := rfl
@[simp] theorem enterWait_host (k : Nat) : (s.enterWait k).host = s.host := rfl
@[simp] theorem enterWait_responses (k : Nat) : (s.enterWait k).responses = s.responses := rfl
@[simp] theorem enterWait_events (k : Nat) : (s.enterWait k).events = s.events := rfl
@[simp] theorem enterWait_cmps (k : Nat) : (s.enterWait k).cmps = s.cmps := rfl
@[simp] theorem enterWait_draws (k : Nat) : (s.enterWait k).draws = s.draws := rfl
@[simp] theorem enterWait_plane (k : Nat) (q : Plane) : (s.enterWait k).plane q = s.plane q := by cases q <;> simp [State.plane]

/-! ### popHost -/

@[simp] theorem popHost_tms : (s.popHost).tms = s.tms := rfl
@[simp] theorem popHost_tdi : (s.popHost).tdi = s.tdi := rfl
@[simp] theorem popHost_tdoExp : (s.popHost).tdoExp = s.tdoExp := rfl
@[simp] theorem popHost_mask : (s.popHost).mask = s.mask := rfl
@[simp] theorem popHost_byteIdx : (s.popHost).byteIdx = s.byteIdx := rfl
@[simp] theorem popHost_bitMask : (s.popHost).bitMask = s.bitMask := rfl
@[simp] theorem popHost_err : (s.popHost).err = s.err := rfl
@[simp] theorem popHost_errKind : (s.popHost).errKind = s.errKind := rfl
@[simp] theorem popHost_isOpen : (s.popHost).isOpen = s.isOpen := rfl
@[simp] theorem popHost_diagValid : (s.popHost).diagValid = s.diagValid := rfl
@[simp] theorem popHost_diagIndex : (s.popHost).diagIndex = s.diagIndex := rfl
@[simp] theorem popHost_diagObs : (s.popHost).diagObs = s.diagObs := rfl
@[simp] theorem popHost_diagMask : (s.popHost).diagMask = s.diagMask := rfl
@[simp] theorem popHost_diagExp : (s.popHost).diagExp = s.diagExp := rfl
@[simp] theorem popHost_obs : (s.popHost).obs = s.obs := rfl
@[simp] theorem popHost_fph : (s.popHost).fph = s.fph := rfl
@[simp] theorem popHost_cph : (s.popHost).cph = s.cph := rfl
@[simp] theorem popHost_hid : (s.popHost).hid = s.hid := rfl
@[simp] theorem popHost_cap : (s.popHost).cap = s.cap := rfl
@[simp] theorem popHost_tx : (s.popHost).tx = s.tx := rfl
@[simp] theorem popHost_rx : (s.popHost).rx = s.rx := rfl
@[simp] theorem popHost_answers : (s.popHost).answers = s.answers := rfl
@[simp] theorem popHost_host : (s.popHost).host = s.host.tail := rfl
@[simp] theorem popHost_responses : (s.popHost).responses = s.responses := rfl
@[simp] theorem popHost_events : (s.popHost).events = s.events := rfl
@[simp] theorem popHost_cmps : (s.popHost).cmps = s.cmps := rfl
@[simp] theorem popHost_draws : (s.popHost).draws = s.draws := rfl
@[simp] theorem popHost_plane (q : Plane) : (s.popHost).plane q = s.plane q := by cases q <;> simp [State.plane]

/-! ### accept -/

@[simp] theorem accept_tms (w : Word) : (s.accept w).tms = s.tms := rfl
@[simp] theorem accept_tdi (w : Word) : (s.accept w).tdi = s.tdi := rfl
@[simp] theorem accept_tdoExp (w : Word) : (s.accept w).tdoExp = s.tdoExp := rfl
@[simp] theorem accept_mask (w : Word) : (s.accept w).mask = s.mask := rfl
@[simp] theorem accept_byteIdx (w : Word) : (s.accept w).byteIdx = s.byteIdx := rfl
@[simp] theorem accept_bitMask (w : Word) : (s.accept w).bitMask = s.bitMask := rfl
@[simp] theorem accept_err (w : Word) : (s.accept w).err = s.err := rfl
@[simp] theorem accept_errKind (w : Word) : (s.accept w).errKind = s.errKind := rfl
@[simp] theorem accept_isOpen (w : Word) : (s.accept w).isOpen = s.isOpen := rfl
@[simp] theorem accept_diagValid (w : Word) : (s.accept w).diagValid = s.diagValid := rfl
@[simp] theorem accept_diagIndex (w : Word) : (s.accept w).diagIndex = s.diagIndex := rfl
@[simp] theorem accept_diagObs (w : Word) : (s.accept w).diagObs = s.diagObs := rfl
@[simp] theorem accept_diagMask (w : Word) : (s.accept w).diagMask = s.diagMask := rfl
@[simp] theorem accept_diagExp (w : Word) : (s.accept w).diagExp = s.diagExp := rfl
@[simp] theorem accept_obs (w : Word) : (s.accept w).obs = s.obs := rfl
@[simp] theorem accept_fph (w : Word) : (s.accept w).fph = s.fph := rfl
@[simp] theorem accept_cph (w : Word) : (s.accept w).cph = s.cph := rfl
@[simp] theorem accept_cap (w : Word) : (s.accept w).cap = s.cap := rfl
@[simp] theorem accept_tx (w : Word) : (s.accept w).tx = s.tx := rfl
@[simp] theorem accept_rx (w : Word) : (s.accept w).rx = s.rx := rfl
@[simp] theorem accept_answers (w : Word) : (s.accept w).answers = s.answers := rfl
@[simp] theorem accept_host (w : Word) : (s.accept w).host = s.host.tail := rfl
@[simp] theorem accept_responses (w : Word) : (s.accept w).responses = s.responses := rfl
@[simp] theorem accept_events (w : Word) : (s.accept w).events = s.events := rfl
@[simp] theorem accept_cmps (w : Word) : (s.accept w).cmps = s.cmps := rfl
@[simp] theorem accept_draws (w : Word) : (s.accept w).draws = s.draws := rfl
@[simp] theorem accept_plane (w : Word) (q : Plane) : (s.accept w).plane q = s.plane q := by cases q <;> simp [State.plane]

/-! ### putCommand -/

@[simp] theorem putCommand_tms (nbits w : Nat) : (s.putCommand nbits w).tms = s.tms := rfl
@[simp] theorem putCommand_tdi (nbits w : Nat) : (s.putCommand nbits w).tdi = s.tdi := rfl
@[simp] theorem putCommand_tdoExp (nbits w : Nat) : (s.putCommand nbits w).tdoExp = s.tdoExp := rfl
@[simp] theorem putCommand_mask (nbits w : Nat) : (s.putCommand nbits w).mask = s.mask := rfl
@[simp] theorem putCommand_byteIdx (nbits w : Nat) : (s.putCommand nbits w).byteIdx = s.byteIdx := rfl
@[simp] theorem putCommand_bitMask (nbits w : Nat) : (s.putCommand nbits w).bitMask = s.bitMask := rfl
@[simp] theorem putCommand_err (nbits w : Nat) : (s.putCommand nbits w).err = s.err := rfl
@[simp] theorem putCommand_errKind (nbits w : Nat) : (s.putCommand nbits w).errKind = s.errKind := rfl
@[simp] theorem putCommand_isOpen (nbits w : Nat) : (s.putCommand nbits w).isOpen = s.isOpen := rfl
@[simp] theorem putCommand_diagValid (nbits w : Nat) : (s.putCommand nbits w).diagValid = s.diagValid := rfl
@[simp] theorem putCommand_diagIndex (nbits w : Nat) : (s.putCommand nbits w).diagIndex = s.diagIndex := rfl
@[simp] theorem putCommand_diagObs (nbits w : Nat) : (s.putCommand nbits w).diagObs = s.diagObs := rfl
@[simp] theorem putCommand_diagMask (nbits w : Nat) : (s.putCommand nbits w).diagMask = s.diagMask := rfl
@[simp] theorem putCommand_diagExp (nbits w : Nat) : (s.putCommand nbits w).diagExp = s.diagExp := rfl
@[simp] theorem putCommand_obs (nbits w : Nat) : (s.putCommand nbits w).obs = s.obs := rfl
@[simp] theorem putCommand_fph (nbits w : Nat) : (s.putCommand nbits w).fph = .idle := rfl
@[simp] theorem putCommand_cph (nbits w : Nat) : (s.putCommand nbits w).cph = .idle := rfl
@[simp] theorem putCommand_hid (nbits w : Nat) : (s.putCommand nbits w).hid = s.hid := rfl
@[simp] theorem putCommand_cap (nbits w : Nat) : (s.putCommand nbits w).cap = s.cap := rfl
@[simp] theorem putCommand_tx (nbits w : Nat) : (s.putCommand nbits w).tx = s.tx := rfl
@[simp] theorem putCommand_rx (nbits w : Nat) : (s.putCommand nbits w).rx = s.rx := rfl
@[simp] theorem putCommand_answers (nbits w : Nat) : (s.putCommand nbits w).answers = s.answers := rfl
@[simp] theorem putCommand_host (nbits w : Nat) : (s.putCommand nbits w).host = .command (BitVec.ofNat 32 (w % 2 ^ nbits)) :: s.host := rfl
@[simp] theorem putCommand_responses (nbits w : Nat) : (s.putCommand nbits w).responses = s.responses := rfl
@[simp] theorem putCommand_events (nbits w : Nat) : (s.putCommand nbits w).events = s.events := rfl
@[simp] theorem putCommand_cmps (nbits w : Nat) : (s.putCommand nbits w).cmps = s.cmps := rfl
@[simp] theorem putCommand_draws (nbits w : Nat) : (s.putCommand nbits w).draws = s.draws := rfl
@[simp] theorem putCommand_plane (nbits w : Nat) (q : Plane) : (s.putCommand nbits w).plane q = s.plane q := by cases q <;> simp [State.plane]

/-! ### toPhase -/

@[simp] theorem toPhase_tms (ph : FlushPhase) (c : Nat) : (s.toPhase ph c).tms = s.tms := rfl
@[simp] theorem toPhase_tdi (ph : FlushPhase) (c : Nat) : (s.toPhase ph c).tdi = s.tdi := rfl
@[simp] theorem toPhase_tdoExp (ph : FlushPhase) (c : Nat) : (s.toPhase ph c).tdoExp = s.tdoExp := rfl
@[simp] theorem toPhase_mask (ph : FlushPhase) (c : Nat) : (s.toPhase ph c).mask = s.mask := rfl
@[simp] theorem toPhase_byteIdx (ph : FlushPhase) (c : Nat) : (s.toPhase ph c).byteIdx = s.byteIdx := rfl
@[simp] theorem toPhase_bitMask (ph : FlushPhase) (c : Nat) : (s.toPhase ph c).bitMask = s.bitMask := rfl
@[simp] theorem toPhase_err (ph : FlushPhase) (c : Nat) : (s.toPhase ph c).err = s.err := rfl
@[simp] theorem toPhase_errKind (ph : FlushPhase) (c : Nat) : (s.toPhase ph c).errKind = s.errKind := rfl
@[simp] theorem toPhase_isOpen (ph : FlushPhase) (c : Nat) : (s.toPhase ph c).isOpen = s.isOpen := rfl
@[simp] theorem toPhase_diagValid (ph : FlushPhase) (c : Nat) : (s.toPhase ph c).diagValid = s.diagValid := rfl
@[simp] theorem toPhase_diagIndex (ph : FlushPhase) (c : Nat) : (s.toPhase ph c).diagIndex = s.diagIndex := rfl
@[simp] theorem toPhase_diagObs (ph : FlushPhase) (c : Nat) : (s.toPhase ph c).diagObs = s.diagObs := rfl
@[simp] theorem toPhase_diagMask (ph : FlushPhase) (c : Nat) : (s.toPhase ph c).diagMask = s.diagMask := rfl
@[simp] theorem toPhase_diagExp (ph : FlushPhase) (c : Nat) : (s.toPhase ph c).diagExp = s.diagExp := rfl
@[simp] theorem toPhase_obs (ph : FlushPhase) (c : Nat) : (s.toPhase ph c).obs = s.obs := rfl
@[simp] theorem toPhase_fph (ph : FlushPhase) (c : Nat) : (s.toPhase ph c).fph = ph := rfl
@[simp] theorem toPhase_cph (ph : FlushPhase) (c : Nat) : (s.toPhase ph c).cph = s.cph := rfl
@[simp] theorem toPhase_cap (ph : FlushPhase) (c : Nat) : (s.toPhase ph c).cap = s.cap := rfl
@[simp] theorem toPhase_tx (ph : FlushPhase) (c : Nat) : (s.toPhase ph c).tx = s.tx := rfl
@[simp] theorem toPhase_rx (ph : FlushPhase) (c : Nat) : (s.toPhase ph c).rx = s.rx := rfl
@[simp] theorem toPhase_answers (ph : FlushPhase) (c : Nat) : (s.toPhase ph c).answers = s.answers := rfl
@[simp] theorem toPhase_host (ph : FlushPhase) (c : Nat) : (s.toPhase ph c).host = s.host := rfl
@[simp] theorem toPhase_responses (ph : FlushPhase) (c : Nat) : (s.toPhase ph c).responses = s.responses := rfl
@[simp] theorem toPhase_events (ph : FlushPhase) (c : Nat) : (s.toPhase ph c).events = s.events := rfl
@[simp] theorem toPhase_cmps (ph : FlushPhase) (c : Nat) : (s.toPhase ph c).cmps = s.cmps := rfl
@[simp] theorem toPhase_draws (ph : FlushPhase) (c : Nat) : (s.toPhase ph c).draws = s.draws := rfl
@[simp] theorem toPhase_plane (ph : FlushPhase) (c : Nat) (q : Plane) : (s.toPhase ph c).plane q = s.plane q := by cases q <;> simp [State.plane]

/-! ### flushReturns -/

@[simp] theorem flushReturns_tms (st : Status) : (s.flushReturns st).tms = s.tms := rfl
@[simp] theorem flushReturns_tdi (st : Status) : (s.flushReturns st).tdi = s.tdi := rfl
@[simp] theorem flushReturns_tdoExp (st : Status) : (s.flushReturns st).tdoExp = s.tdoExp := rfl
@[simp] theorem flushReturns_mask (st : Status) : (s.flushReturns st).mask = s.mask := rfl
@[simp] theorem flushReturns_byteIdx (st : Status) : (s.flushReturns st).byteIdx = s.byteIdx := rfl
@[simp] theorem flushReturns_bitMask (st : Status) : (s.flushReturns st).bitMask = s.bitMask := rfl
@[simp] theorem flushReturns_err (st : Status) : (s.flushReturns st).err = s.err := rfl
@[simp] theorem flushReturns_errKind (st : Status) : (s.flushReturns st).errKind = s.errKind := rfl
@[simp] theorem flushReturns_isOpen (st : Status) : (s.flushReturns st).isOpen = s.isOpen := rfl
@[simp] theorem flushReturns_diagValid (st : Status) : (s.flushReturns st).diagValid = s.diagValid := rfl
@[simp] theorem flushReturns_diagIndex (st : Status) : (s.flushReturns st).diagIndex = s.diagIndex := rfl
@[simp] theorem flushReturns_diagObs (st : Status) : (s.flushReturns st).diagObs = s.diagObs := rfl
@[simp] theorem flushReturns_diagMask (st : Status) : (s.flushReturns st).diagMask = s.diagMask := rfl
@[simp] theorem flushReturns_diagExp (st : Status) : (s.flushReturns st).diagExp = s.diagExp := rfl
@[simp] theorem flushReturns_obs (st : Status) : (s.flushReturns st).obs = s.obs := rfl
@[simp] theorem flushReturns_fph (st : Status) : (s.flushReturns st).fph = .idle := rfl
@[simp] theorem flushReturns_cph (st : Status) : (s.flushReturns st).cph = s.cph := rfl
@[simp] theorem flushReturns_cap (st : Status) : (s.flushReturns st).cap = s.cap := rfl
@[simp] theorem flushReturns_tx (st : Status) : (s.flushReturns st).tx = s.tx := rfl
@[simp] theorem flushReturns_rx (st : Status) : (s.flushReturns st).rx = s.rx := rfl
@[simp] theorem flushReturns_answers (st : Status) : (s.flushReturns st).answers = s.answers := rfl
@[simp] theorem flushReturns_host (st : Status) : (s.flushReturns st).host = s.host := rfl
@[simp] theorem flushReturns_responses (st : Status) : (s.flushReturns st).responses = s.responses := rfl
@[simp] theorem flushReturns_events (st : Status) : (s.flushReturns st).events = s.events := rfl
@[simp] theorem flushReturns_cmps (st : Status) : (s.flushReturns st).cmps = s.cmps := rfl
@[simp] theorem flushReturns_draws (st : Status) : (s.flushReturns st).draws = s.draws := rfl
@[simp] theorem flushReturns_plane (st : Status) (q : Plane) : (s.flushReturns st).plane q = s.plane q := by cases q <;> simp [State.plane]

/-! ### toRsp -/

@[simp] theorem toRsp_tms (st : Status) : (s.toRsp st).tms = s.tms := rfl
@[simp] theorem toRsp_tdi (st : Status) : (s.toRsp st).tdi = s.tdi := rfl
@[simp] theorem toRsp_tdoExp (st : Status) : (s.toRsp st).tdoExp = s.tdoExp := rfl
@[simp] theorem toRsp_mask (st : Status) : (s.toRsp st).mask = s.mask := rfl
@[simp] theorem toRsp_byteIdx (st : Status) : (s.toRsp st).byteIdx = s.byteIdx := rfl
@[simp] theorem toRsp_bitMask (st : Status) : (s.toRsp st).bitMask = s.bitMask := rfl
@[simp] theorem toRsp_err (st : Status) : (s.toRsp st).err = s.err := rfl
@[simp] theorem toRsp_errKind (st : Status) : (s.toRsp st).errKind = s.errKind := rfl
@[simp] theorem toRsp_isOpen (st : Status) : (s.toRsp st).isOpen = s.isOpen := rfl
@[simp] theorem toRsp_diagValid (st : Status) : (s.toRsp st).diagValid = s.diagValid := rfl
@[simp] theorem toRsp_diagIndex (st : Status) : (s.toRsp st).diagIndex = s.diagIndex := rfl
@[simp] theorem toRsp_diagObs (st : Status) : (s.toRsp st).diagObs = s.diagObs := rfl
@[simp] theorem toRsp_diagMask (st : Status) : (s.toRsp st).diagMask = s.diagMask := rfl
@[simp] theorem toRsp_diagExp (st : Status) : (s.toRsp st).diagExp = s.diagExp := rfl
@[simp] theorem toRsp_obs (st : Status) : (s.toRsp st).obs = s.obs := rfl
@[simp] theorem toRsp_fph (st : Status) : (s.toRsp st).fph = s.fph := rfl
@[simp] theorem toRsp_cph (st : Status) : (s.toRsp st).cph = .rsp := rfl
@[simp] theorem toRsp_cap (st : Status) : (s.toRsp st).cap = s.cap := rfl
@[simp] theorem toRsp_tx (st : Status) : (s.toRsp st).tx = s.tx := rfl
@[simp] theorem toRsp_rx (st : Status) : (s.toRsp st).rx = s.rx := rfl
@[simp] theorem toRsp_answers (st : Status) : (s.toRsp st).answers = s.answers := rfl
@[simp] theorem toRsp_host (st : Status) : (s.toRsp st).host = s.host := rfl
@[simp] theorem toRsp_responses (st : Status) : (s.toRsp st).responses = s.responses := rfl
@[simp] theorem toRsp_events (st : Status) : (s.toRsp st).events = s.events := rfl
@[simp] theorem toRsp_cmps (st : Status) : (s.toRsp st).cmps = s.cmps := rfl
@[simp] theorem toRsp_draws (st : Status) : (s.toRsp st).draws = s.draws := rfl
@[simp] theorem toRsp_plane (st : Status) (q : Plane) : (s.toRsp st).plane q = s.plane q := by cases q <;> simp [State.plane]

/-! ### toCph -/

@[simp] theorem toCph_tms (ph : CmdPhase) : (s.toCph ph).tms = s.tms := rfl
@[simp] theorem toCph_tdi (ph : CmdPhase) : (s.toCph ph).tdi = s.tdi := rfl
@[simp] theorem toCph_tdoExp (ph : CmdPhase) : (s.toCph ph).tdoExp = s.tdoExp := rfl
@[simp] theorem toCph_mask (ph : CmdPhase) : (s.toCph ph).mask = s.mask := rfl
@[simp] theorem toCph_byteIdx (ph : CmdPhase) : (s.toCph ph).byteIdx = s.byteIdx := rfl
@[simp] theorem toCph_bitMask (ph : CmdPhase) : (s.toCph ph).bitMask = s.bitMask := rfl
@[simp] theorem toCph_err (ph : CmdPhase) : (s.toCph ph).err = s.err := rfl
@[simp] theorem toCph_errKind (ph : CmdPhase) : (s.toCph ph).errKind = s.errKind := rfl
@[simp] theorem toCph_isOpen (ph : CmdPhase) : (s.toCph ph).isOpen = s.isOpen := rfl
@[simp] theorem toCph_diagValid (ph : CmdPhase) : (s.toCph ph).diagValid = s.diagValid := rfl
@[simp] theorem toCph_diagIndex (ph : CmdPhase) : (s.toCph ph).diagIndex = s.diagIndex := rfl
@[simp] theorem toCph_diagObs (ph : CmdPhase) : (s.toCph ph).diagObs = s.diagObs := rfl
@[simp] theorem toCph_diagMask (ph : CmdPhase) : (s.toCph ph).diagMask = s.diagMask := rfl
@[simp] theorem toCph_diagExp (ph : CmdPhase) : (s.toCph ph).diagExp = s.diagExp := rfl
@[simp] theorem toCph_obs (ph : CmdPhase) : (s.toCph ph).obs = s.obs := rfl
@[simp] theorem toCph_fph (ph : CmdPhase) : (s.toCph ph).fph = s.fph := rfl
@[simp] theorem toCph_cph (ph : CmdPhase) : (s.toCph ph).cph = ph := rfl
@[simp] theorem toCph_hid (ph : CmdPhase) : (s.toCph ph).hid = s.hid := rfl
@[simp] theorem toCph_cap (ph : CmdPhase) : (s.toCph ph).cap = s.cap := rfl
@[simp] theorem toCph_tx (ph : CmdPhase) : (s.toCph ph).tx = s.tx := rfl
@[simp] theorem toCph_rx (ph : CmdPhase) : (s.toCph ph).rx = s.rx := rfl
@[simp] theorem toCph_answers (ph : CmdPhase) : (s.toCph ph).answers = s.answers := rfl
@[simp] theorem toCph_host (ph : CmdPhase) : (s.toCph ph).host = s.host := rfl
@[simp] theorem toCph_responses (ph : CmdPhase) : (s.toCph ph).responses = s.responses := rfl
@[simp] theorem toCph_events (ph : CmdPhase) : (s.toCph ph).events = s.events := rfl
@[simp] theorem toCph_cmps (ph : CmdPhase) : (s.toCph ph).cmps = s.cmps := rfl
@[simp] theorem toCph_draws (ph : CmdPhase) : (s.toCph ph).draws = s.draws := rfl
@[simp] theorem toCph_plane (ph : CmdPhase) (q : Plane) : (s.toCph ph).plane q = s.plane q := by cases q <;> simp [State.plane]

/-! ### countIdle -/

@[simp] theorem countIdle_tms (st : Status) : (s.countIdle st).tms = s.tms := rfl
@[simp] theorem countIdle_tdi (st : Status) : (s.countIdle st).tdi = s.tdi := rfl
@[simp] theorem countIdle_tdoExp (st : Status) : (s.countIdle st).tdoExp = s.tdoExp := rfl
@[simp] theorem countIdle_mask (st : Status) : (s.countIdle st).mask = s.mask := rfl
@[simp] theorem countIdle_byteIdx (st : Status) : (s.countIdle st).byteIdx = s.byteIdx := rfl
@[simp] theorem countIdle_bitMask (st : Status) : (s.countIdle st).bitMask = s.bitMask := rfl
@[simp] theorem countIdle_err (st : Status) : (s.countIdle st).err = s.err := rfl
@[simp] theorem countIdle_errKind (st : Status) : (s.countIdle st).errKind = s.errKind := rfl
@[simp] theorem countIdle_isOpen (st : Status) : (s.countIdle st).isOpen = s.isOpen := rfl
@[simp] theorem countIdle_diagValid (st : Status) : (s.countIdle st).diagValid = s.diagValid := rfl
@[simp] theorem countIdle_diagIndex (st : Status) : (s.countIdle st).diagIndex = s.diagIndex := rfl
@[simp] theorem countIdle_diagObs (st : Status) : (s.countIdle st).diagObs = s.diagObs := rfl
@[simp] theorem countIdle_diagMask (st : Status) : (s.countIdle st).diagMask = s.diagMask := rfl
@[simp] theorem countIdle_diagExp (st : Status) : (s.countIdle st).diagExp = s.diagExp := rfl
@[simp] theorem countIdle_obs (st : Status) : (s.countIdle st).obs = s.obs := rfl
@[simp] theorem countIdle_fph (st : Status) : (s.countIdle st).fph = s.fph := rfl
@[simp] theorem countIdle_cph (st : Status) : (s.countIdle st).cph = s.cph := rfl
@[simp] theorem countIdle_cap (st : Status) : (s.countIdle st).cap = s.cap := rfl
@[simp] theorem countIdle_tx (st : Status) : (s.countIdle st).tx = s.tx := rfl
@[simp] theorem countIdle_rx (st : Status) : (s.countIdle st).rx = s.rx := rfl
@[simp] theorem countIdle_answers (st : Status) : (s.countIdle st).answers = s.answers := rfl
@[simp] theorem countIdle_host (st : Status) : (s.countIdle st).host = s.host := rfl
@[simp] theorem countIdle_responses (st : Status) : (s.countIdle st).responses = s.responses := rfl
@[simp] theorem countIdle_events (st : Status) : (s.countIdle st).events = s.events := rfl
@[simp] theorem countIdle_cmps (st : Status) : (s.countIdle st).cmps = s.cmps := rfl
@[simp] theorem countIdle_draws (st : Status) : (s.countIdle st).draws = s.draws := rfl
@[simp] theorem countIdle_plane (st : Status) (q : Plane) : (s.countIdle st).plane q = s.plane q := by cases q <;> simp [State.plane]

/-! ### visible -/

@[simp] theorem visible_tms : (s.visible).tms = s.tms := rfl
@[simp] theorem visible_tdi : (s.visible).tdi = s.tdi := rfl
@[simp] theorem visible_tdoExp : (s.visible).tdoExp = s.tdoExp := rfl
@[simp] theorem visible_mask : (s.visible).mask = s.mask := rfl
@[simp] theorem visible_byteIdx : (s.visible).byteIdx = s.byteIdx := rfl
@[simp] theorem visible_bitMask : (s.visible).bitMask = s.bitMask := rfl
@[simp] theorem visible_err : (s.visible).err = s.err := rfl
@[simp] theorem visible_errKind : (s.visible).errKind = s.errKind := rfl
@[simp] theorem visible_isOpen : (s.visible).isOpen = s.isOpen := rfl
@[simp] theorem visible_diagValid : (s.visible).diagValid = s.diagValid := rfl
@[simp] theorem visible_diagIndex : (s.visible).diagIndex = s.diagIndex := rfl
@[simp] theorem visible_diagObs : (s.visible).diagObs = s.diagObs := rfl
@[simp] theorem visible_diagMask : (s.visible).diagMask = s.diagMask := rfl
@[simp] theorem visible_diagExp : (s.visible).diagExp = s.diagExp := rfl
@[simp] theorem visible_obs : (s.visible).obs = [] := rfl
@[simp] theorem visible_fph : (s.visible).fph = s.fph := rfl
@[simp] theorem visible_cph : (s.visible).cph = s.cph := rfl
@[simp] theorem visible_hid : (s.visible).hid = Hidden.reset := rfl
@[simp] theorem visible_cap : (s.visible).cap = s.cap := rfl
@[simp] theorem visible_tx : (s.visible).tx = s.tx := rfl
@[simp] theorem visible_rx : (s.visible).rx = [] := rfl
@[simp] theorem visible_answers : (s.visible).answers = [] := rfl
@[simp] theorem visible_host : (s.visible).host = [] := rfl
@[simp] theorem visible_responses : (s.visible).responses = s.responses := rfl
@[simp] theorem visible_events : (s.visible).events = s.events := rfl
@[simp] theorem visible_cmps : (s.visible).cmps = s.cmps := rfl
@[simp] theorem visible_draws : (s.visible).draws = 0 := rfl
@[simp] theorem visible_plane (q : Plane) : (s.visible).plane q = s.plane q := by cases q <;> simp [State.plane]

/-! ### The fields an update sets by cases -/

@[simp] theorem plane_setPlane_same (p : Plane) (m : Memory) : (s.setPlane p m).plane p = m := by
  cases p <;> rfl

@[simp] theorem plane_setPlane_other {p q : Plane} (m : Memory) (h : q ≠ p) :
    (s.setPlane p m).plane q = s.plane q := by
  cases p <;> cases q <;> first | rfl | exact absurd rfl h

@[simp] theorem plane_orBit_same (p : Plane) (v : Bool) :
    (s.orBit p v).plane p = if v then
      Memory.write (s.plane p) s.byteIdx (Memory.read (s.plane p) s.byteIdx ||| s.bitMask)
      else s.plane p := by
  cases v <;> simp [State.orBit]

@[simp] theorem plane_orBit_other {p q : Plane} (v : Bool) (h : q ≠ p) :
    (s.orBit p v).plane q = s.plane q := by
  cases v <;> simp [State.orBit, h]

theorem moveCursor_byteIdx :
    s.moveCursor.byteIdx = if s.bitMask = 0x80#8 then s.byteIdx + 1 else s.byteIdx := by
  unfold State.moveCursor; split <;> rfl

theorem moveCursor_bitMask :
    s.moveCursor.bitMask = if s.bitMask = 0x80#8 then 0x01#8 else s.bitMask <<< 1 := by
  unfold State.moveCursor; split <;> rfl

@[simp] theorem raise_connectivity_diagValid : (s.raise .connectivity).diagValid = s.diagValid := rfl
@[simp] theorem raise_connectivity_diagIndex : (s.raise .connectivity).diagIndex = s.diagIndex := rfl
@[simp] theorem raise_connectivity_diagObs : (s.raise .connectivity).diagObs = s.diagObs := rfl
@[simp] theorem raise_connectivity_diagMask : (s.raise .connectivity).diagMask = s.diagMask := rfl
@[simp] theorem raise_connectivity_diagExp : (s.raise .connectivity).diagExp = s.diagExp := rfl
@[simp] theorem raise_connectivity_events : (s.raise .connectivity).events = s.events := rfl

section
variable (i : Nat) (o m e : Byte)
@[simp] theorem raise_mismatch_diagValid : (s.raise (.mismatch i o m e)).diagValid = true := rfl
@[simp] theorem raise_mismatch_diagIndex : (s.raise (.mismatch i o m e)).diagIndex = i := rfl
@[simp] theorem raise_mismatch_diagObs : (s.raise (.mismatch i o m e)).diagObs = o := rfl
@[simp] theorem raise_mismatch_diagMask : (s.raise (.mismatch i o m e)).diagMask = m := rfl
@[simp] theorem raise_mismatch_diagExp : (s.raise (.mismatch i o m e)).diagExp = e := rfl
@[simp] theorem raise_mismatch_events :
    (s.raise (.mismatch i o m e)).events = s.events ++ [.mismatch i o m e] := rfl
end

@[simp] theorem stuckIn_cmd (n : Nat) (ph : FlushPhase × Nat) : (s.stuckIn n ph).hid.cmd = s.hid.cmd := rfl
@[simp] theorem setWcnt_cmd (k : Nat) : (s.setWcnt k).hid.cmd = s.hid.cmd := rfl
@[simp] theorem enterWait_cmd (k : Nat) : (s.enterWait k).hid.cmd = s.hid.cmd := rfl
@[simp] theorem accept_cmd (w : Word) : (s.accept w).hid.cmd = w := rfl

theorem dropAnswer_answers : s.dropAnswer.answers = s.answers.tail := by
  unfold State.dropAnswer; split <;> simp_all

@[simp] theorem onWire_answers (sent r : List Byte) (m : Memory) :
    (s.onWire sent r m).answers = s.answers.tail := s.dropAnswer_answers

@[simp] theorem onWire_plane (sent r : List Byte) (m : Memory) (p : Plane) :
    (s.onWire sent r m).plane p = s.plane p := by
  cases p <;> simp [State.plane]

theorem nextAnswer_cons {a : Answer} {as : List Answer} (h : s.answers = a :: as) : s.nextAnswer = a := by
  simp [State.nextAnswer, h]

/-- The planes of an update that changes none of them. -/
theorem plane_eq_of_fields {s t : State} (h1 : t.tms = s.tms) (h2 : t.tdi = s.tdi)
    (h3 : t.tdoExp = s.tdoExp) (h4 : t.mask = s.mask) (p : Plane) : t.plane p = s.plane p := by
  cases p <;> assumption

@[simp] theorem clearAndReset_plane (p : Plane) : s.clearAndReset.plane p = [] := by cases p <;> rfl
@[simp] theorem freshSession_plane (p : Plane) : s.freshSession.plane p = [] := by cases p <;> rfl

end Sys2Proof.Machine.State
end

