-- ==== Sys2Proof/Laws/Cursor.lean ====
section
/-! SUPPORT. The laws of the cursor and of what is derived from it (spec/10_state.md R12, R14). -/

namespace Sys2Proof.Machine

/-- The eight one-hot bytes (R12). -/
theorem oneHot_cases {m : Byte} (h : oneHot m = true) :
    m = 0x01#8 ∨ m = 0x02#8 ∨ m = 0x04#8 ∨ m = 0x08#8
      ∨ m = 0x10#8 ∨ m = 0x20#8 ∨ m = 0x40#8 ∨ m = 0x80#8 := by
  simpa [oneHot, or_assoc] using h

theorem bitpos_lt {m : Byte} (h : oneHot m = true) : bitpos m < 8 := by
  rcases oneHot_cases h with h | h | h | h | h | h | h | h <;> subst h <;> decide

theorem bitpos_eq_zero {m : Byte} (h : oneHot m = true) : bitpos m = 0 ↔ m = 0x01#8 := by
  rcases oneHot_cases h with h | h | h | h | h | h | h | h <;> subst h <;> decide

theorem bitpos_eq_seven {m : Byte} (h : oneHot m = true) : bitpos m = 7 ↔ m = 0x80#8 := by
  rcases oneHot_cases h with h | h | h | h | h | h | h | h <;> subst h <;> decide

/-- A one-hot byte has exactly the bit `bitpos` set. -/
theorem oneHot_getLsbD {m : Byte} (h : oneHot m = true) (k : Nat) :
    m.getLsbD k = decide (k = bitpos m) := by
  by_cases hk : k < 8
  · rcases oneHot_cases h with h | h | h | h | h | h | h | h <;> subst h <;> interval_cases k <;> decide
  · have := bitpos_lt h
    rw [BitVec.getLsbD_of_ge _ _ (by omega), eq_comm, decide_eq_false_iff_not]; omega

theorem oneHot_shift {m : Byte} (h : oneHot m = true) (h' : m ≠ 0x80#8) :
    oneHot (m <<< 1) = true ∧ bitpos (m <<< 1) = bitpos m + 1 := by
  rcases oneHot_cases h with h | h | h | h | h | h | h | h <;> subst h <;> first | decide | contradiction

@[simp] theorem bitpos_one : bitpos 0x01#8 = 0 := rfl
@[simp] theorem oneHot_one : oneHot 0x01#8 = true := rfl
@[simp] theorem ceil8_zero : ceil8 0 = 0 := rfl

theorem ceil8_le {n k : Nat} (h : n ≤ 8 * k) : ceil8 n ≤ k := by unfold ceil8; omega
theorem ceil8_mul (k : Nat) : ceil8 (8 * k) = k := by unfold ceil8; omega
theorem lt_ceil8 {n i : Nat} : i < ceil8 n ↔ 8 * i < n := by unfold ceil8; omega
theorem ceil8_pos {n : Nat} : 0 < ceil8 n ↔ 0 < n := by unfold ceil8; omega

namespace State

variable (s : State)

@[simp] theorem nbits_forgetObs : s.forgetObs.nbits = s.nbits := rfl
@[simp] theorem nbits_respond (st : Status) : (s.respond st).nbits = s.nbits := rfl
@[simp] theorem nbits_raise (f : Failure) : (s.raise f).nbits = s.nbits := by cases f <;> rfl
@[simp] theorem nbits_clearAndReset : s.clearAndReset.nbits = 0 := rfl
@[simp] theorem nbits_freshSession : s.freshSession.nbits = 0 := rfl
@[simp] theorem nbits_hardwareReset : s.hardwareReset.nbits = 0 := rfl
@[simp] theorem nbits_orBit (p : Plane) (v : Bool) : (s.orBit p v).nbits = s.nbits := by
  simp [State.nbits]
@[simp] theorem nbits_dropAnswer : s.dropAnswer.nbits = s.nbits := by simp [State.nbits]
@[simp] theorem nbits_onWire (sent r : List Byte) (m : Memory) : (s.onWire sent r m).nbits = s.nbits := by
  simp [State.nbits]
@[simp] theorem nbits_stuckIn (n : Nat) (ph : FlushPhase × Nat) : (s.stuckIn n ph).nbits = s.nbits := rfl
@[simp] theorem nbits_countCmps (k : Nat) : (s.countCmps k).nbits = s.nbits := rfl
@[simp] theorem nbits_closeSession : s.closeSession.nbits = s.nbits := rfl
@[simp] theorem nbits_setWcnt (k : Nat) : (s.setWcnt k).nbits = s.nbits := rfl
@[simp] theorem nbits_enterWait (k : Nat) : (s.enterWait k).nbits = s.nbits := rfl
@[simp] theorem nbits_accept (w : Word) : (s.accept w).nbits = s.nbits := rfl

variable {s}

/-- The cursor is at the origin exactly when nothing is pending (R14). -/
theorem nbits_eq_zero (h : oneHot s.bitMask = true) : s.nbits = 0 ↔ s.byteIdx = 0 ∧ s.bitMask = 0x01#8 := by
  rw [← bitpos_eq_zero h]; unfold State.nbits; omega

theorem nbits_div (h : oneHot s.bitMask = true) : s.nbits / 8 = s.byteIdx := by
  have := bitpos_lt h; unfold State.nbits; omega

theorem nbits_mod (h : oneHot s.bitMask = true) : s.nbits % 8 = bitpos s.bitMask := by
  have := bitpos_lt h; unfold State.nbits; omega

/-- `advance` adds exactly 1 to `nbits` before any flush (R91). -/
theorem nbits_moveCursor (h : oneHot s.bitMask = true) : s.moveCursor.nbits = s.nbits + 1 := by
  unfold State.nbits
  rw [State.moveCursor_byteIdx, State.moveCursor_bitMask]
  split
  · rename_i h8; rw [(bitpos_eq_seven h).2 h8]; simp; omega
  · rename_i h8; rw [(oneHot_shift h h8).2]; omega

theorem oneHot_moveCursor (h : oneHot s.bitMask = true) : oneHot s.moveCursor.bitMask = true := by
  rw [State.moveCursor_bitMask]
  split
  · rfl
  · rename_i h8; exact (oneHot_shift h h8).1

/-- The batch fits the planes: `nbits <= CAP_BITS` and `N <= CAP_BYTES` (R14). -/
theorem nbits_le (h : oneHot s.bitMask = true)
    (hr : s.byteIdx < s.cap ∨ (s.byteIdx = s.cap ∧ s.bitMask = 0x01#8)) : s.nbits ≤ 8 * s.cap := by
  have hb := bitpos_lt h
  unfold State.nbits
  rcases hr with hr | ⟨hr, h1⟩
  · omega
  · rw [h1, hr]; simp

theorem nbytes_le (h : oneHot s.bitMask = true)
    (hr : s.byteIdx < s.cap ∨ (s.byteIdx = s.cap ∧ s.bitMask = 0x01#8)) : s.nbytes ≤ s.cap :=
  ceil8_le (nbits_le h hr)

end State

/-! ### Bits of a plane -/

theorem Memory.bitAt_nil (k : Nat) : Memory.bitAt [] k = false := by
  simp [Memory.bitAt, Memory.read]

/-- `set_bit` at the cursor sets the bit `nbits` and no other (R90, R42). -/
theorem Memory.bitAt_orAt {m : Memory} (hm : Memory.wf m = true) {b : Byte} (hb : oneHot b = true)
    (i k : Nat) :
    Memory.bitAt (Memory.write m i (Memory.read m i ||| b)) k =
      (Memory.bitAt m k || decide (k = 8 * i + bitpos b)) := by
  have := bitpos_lt hb
  unfold Memory.bitAt
  rw [Memory.read_write hm]
  split
  · rename_i hk
    rw [BitVec.getLsbD_or, oneHot_getLsbD hb, hk]
    congr 1
    exact decide_eq_decide.2 (by omega)
  · rename_i hk
    rw [eq_comm, Bool.or_eq_left_iff_imp, decide_eq_true_eq]
    intro h; exact absurd (by omega) hk

/-- Two planes with the same bits read the same bytes. -/
theorem Memory.read_eq_of_bitAt {m m' : Memory} (h : ∀ k, Memory.bitAt m k = Memory.bitAt m' k) (i : Nat) :
    Memory.read m i = Memory.read m' i := by
  apply BitVec.eq_of_getLsbD_eq
  intro k hk
  have := h (8 * i + k)
  unfold Memory.bitAt at this
  rwa [show (8 * i + k) / 8 = i by omega, show (8 * i + k) % 8 = k by omega] at this

end Sys2Proof.Machine
end

