-- ==== Sys2Proof/Laws/Ops.lean ====
section
/-! SUPPORT. One lemma for each shared operation that says once everything it can do. -/

namespace Sys2Proof.Machine
namespace State

variable {s t : State}

/-! ### The wire transaction -/

/-- Everything a wire transaction that receives its response does (R124, R125). -/
theorem exchange_received {n : Nat} {a b : List Byte} (h : s.exchange n a b = .received t) :
    ∃ arriving, s.nextAnswer = .bytes arriving ∧ ceil8 n ≤ (s.rx ++ arriving).length ∧
      t = s.onWire (shiftFrame n a b) ((s.rx ++ arriving).drop (ceil8 n))
        (Memory.writeRange s.obs 0 ((s.rx ++ arriving).take (ceil8 n))) := by
  unfold State.exchange at h
  split at h
  · cases h
  · cases h
  · rename_i arriving ha
    dsimp only at h
    split at h
    · cases h
    · rename_i hn; cases h; exact ⟨arriving, ha, by omega, rfl⟩

/-- Everything a wire transaction whose transport fails does (R126). -/
theorem exchange_linkDown {n : Nat} {a b : List Byte} (h : s.exchange n a b = .linkDown t) :
    ∃ k rxAfter, s.nextAnswer = .linkFail k rxAfter ∧
      t = s.onWire ((shiftFrame n a b).take k) rxAfter s.obs := by
  unfold State.exchange at h
  split at h
  · cases h
  · rename_i k rxAfter ha; cases h; exact ⟨k, rxAfter, ha, rfl⟩
  · dsimp only at h; split at h <;> cases h

/-- Everything a wire transaction that never ends does (R199). -/
theorem exchange_stalled {n : Nat} {a b : List Byte} (h : s.exchange n a b = .stalled t) :
    (∃ k, s.nextAnswer = .never k ∧
      t = (s.onWire ((shiftFrame n a b).take k) s.rx s.obs).stuckIn n (phaseAt (ceil8 n) k)) ∨
    (∃ arriving, s.nextAnswer = .bytes arriving ∧ (s.rx ++ arriving).length < ceil8 n ∧
      t = (s.onWire (shiftFrame n a b) [] (Memory.writeRange s.obs 0 (s.rx ++ arriving))).stuckIn n
        (.rx, (s.rx ++ arriving).length)) := by
  unfold State.exchange at h
  split at h
  · rename_i k ha; cases h; exact .inl ⟨k, ha, rfl⟩
  · cases h
  · rename_i arriving ha
    dsimp only at h
    split at h
    · rename_i hn; cases h; exact .inr ⟨arriving, ha, hn, rfl⟩
    · cases h

/-- A wire transaction whose transport answers in full. -/
theorem exchange_of_bytes {n : Nat} {a b arriving : List Byte} (h : s.nextAnswer = .bytes arriving)
    (hl : ceil8 n ≤ (s.rx ++ arriving).length) :
    s.exchange n a b = .received (s.onWire (shiftFrame n a b) ((s.rx ++ arriving).drop (ceil8 n))
      (Memory.writeRange s.obs 0 ((s.rx ++ arriving).take (ceil8 n)))) := by
  unfold State.exchange
  rw [h]
  exact if_neg (by omega)

/-- A wire transaction whose transport fails. -/
theorem exchange_of_linkFail {n k : Nat} {a b rxAfter : List Byte} (h : s.nextAnswer = .linkFail k rxAfter) :
    s.exchange n a b = .linkDown (s.onWire ((shiftFrame n a b).take k) rxAfter s.obs) := by
  unfold State.exchange
  rw [h]

/-- What every wire transaction leaves as it was: the planes, the cursor, the error and diagnostic
registers, `OPEN`, the latched command, the host's side and the capacity. -/
structure WireFrame (s t : State) : Prop where
  tms : t.tms = s.tms
  tdi : t.tdi = s.tdi
  tdoExp : t.tdoExp = s.tdoExp
  mask : t.mask = s.mask
  byteIdx : t.byteIdx = s.byteIdx
  bitMask : t.bitMask = s.bitMask
  err : t.err = s.err
  errKind : t.errKind = s.errKind
  isOpen : t.isOpen = s.isOpen
  diagValid : t.diagValid = s.diagValid
  diagIndex : t.diagIndex = s.diagIndex
  diagObs : t.diagObs = s.diagObs
  diagMask : t.diagMask = s.diagMask
  diagExp : t.diagExp = s.diagExp
  cap : t.cap = s.cap
  host : t.host = s.host
  responses : t.responses = s.responses
  events : t.events = s.events
  cmps : t.cmps = s.cmps
  cmd : t.hid.cmd = s.hid.cmd

theorem WireFrame.nbits (h : WireFrame s t) : t.nbits = s.nbits := by
  unfold State.nbits; rw [h.byteIdx, h.bitMask]

theorem WireFrame.plane (h : WireFrame s t) (p : Plane) : t.plane p = s.plane p := by
  cases p
  · exact h.tms
  · exact h.tdi
  · exact h.tdoExp
  · exact h.mask

theorem exchange_received_frame {n : Nat} {a b : List Byte} (h : s.exchange n a b = .received t) :
    WireFrame s t ∧ t.cph = s.cph ∧ t.fph = s.fph := by
  obtain ⟨_, _, _, rfl⟩ := exchange_received h
  exact ⟨by constructor <;> simp, by simp, by simp⟩

theorem exchange_linkDown_frame {n : Nat} {a b : List Byte} (h : s.exchange n a b = .linkDown t) :
    WireFrame s t ∧ t.cph = s.cph ∧ t.fph = s.fph := by
  obtain ⟨_, _, _, rfl⟩ := exchange_linkDown h
  exact ⟨by constructor <;> simp, by simp, by simp⟩

theorem phaseAt_ne_idle (bytes k : Nat) : (phaseAt bytes k).1 ≠ .idle := by
  unfold phaseAt; split <;> (try split) <;> (try split) <;> (try split) <;> simp

theorem exchange_stalled_frame {n : Nat} {a b : List Byte} (h : s.exchange n a b = .stalled t) :
    WireFrame s t ∧ t.cph = .flush ∧ t.fph ≠ .idle := by
  rcases exchange_stalled h with ⟨_, _, rfl⟩ | ⟨_, _, _, rfl⟩
  · exact ⟨by constructor <;> simp, by simp, by simpa using phaseAt_ne_idle _ _⟩
  · exact ⟨by constructor <;> simp, by simp, by simp⟩

/-! ### The verification -/

/-- No byte mismatches exactly when all agree (R129). -/
theorem firstMismatch_eq_none {i k : Nat} :
    s.firstMismatch i k = none ↔ ∀ j, i ≤ j → j < i + k → s.agreesAt j = true := by
  induction k generalizing i with
  | zero => simp [State.firstMismatch]; intro j _ _; omega
  | succ k ih =>
    unfold State.firstMismatch
    split
    · rename_i h
      rw [ih]
      constructor
      · intro hall j h1 h2
        rcases Nat.eq_or_lt_of_le h1 with rfl | h1
        · exact h
        · exact hall j (by omega) (by omega)
      · intro hall j h1 h2; exact hall j (by omega) (by omega)
    · rename_i h
      simp only [reduceCtorEq, false_iff, not_forall]
      exact ⟨i, le_refl _, by omega, h⟩

/-- The mismatch reported is the least one (R128). -/
theorem firstMismatch_eq_some {i k m : Nat} :
    s.firstMismatch i k = some m ↔
      i ≤ m ∧ m < i + k ∧ s.agreesAt m = false ∧ ∀ j, i ≤ j → j < m → s.agreesAt j = true := by
  induction k generalizing i with
  | zero => simp [State.firstMismatch]; intro _ _; omega
  | succ k ih =>
    unfold State.firstMismatch
    split
    · rename_i h
      rw [ih]
      constructor
      · rintro ⟨h1, h2, h3, h4⟩
        refine ⟨by omega, by omega, h3, fun j hj1 hj2 => ?_⟩
        rcases Nat.eq_or_lt_of_le hj1 with rfl | hj1
        · exact h
        · exact h4 j (by omega) hj2
      · rintro ⟨h1, h2, h3, h4⟩
        have : i ≠ m := by rintro rfl; rw [h] at h3; cases h3
        exact ⟨by omega, by omega, h3, fun j hj1 hj2 => h4 j (by omega) hj2⟩
    · rename_i h
      rw [Option.some.injEq]
      constructor
      · rintro rfl; exact ⟨le_refl _, by omega, by simpa using h, fun j h1 h2 => by omega⟩
      · rintro ⟨h1, h2, h3, h4⟩
        by_contra hne
        exact h (h4 i (le_refl _) (by omega))

/-- Everything the verification does (R127 to R129). -/
theorem verify_cases (bytes : Nat) :
    (∃ i, s.firstMismatch 0 bytes = some i ∧ s.verify bytes =
      (.verificationMismatch, ((s.countCmps (i + 1)).raise (s.mismatchAt i)).forgetObs)) ∨
    (s.firstMismatch 0 bytes = none ∧
      s.verify bytes = (.ok, (s.countCmps bytes).clearAndReset.forgetObs)) := by
  unfold State.verify
  cases s.firstMismatch 0 bytes with
  | none => exact .inr ⟨rfl, rfl⟩
  | some i => exact .inl ⟨i, rfl, rfl⟩

/-! ### The flush -/

/-- The request of a flush, as a wire transaction (R124). -/
abbrev request (s : State) : Wire :=
  s.exchange s.nbits (Memory.readRange s.tms 0 s.nbytes) (Memory.readRange s.tdi 0 s.nbytes)

/-- Everything a flush that returns does (R130, rows 1 to 5). -/
theorem flush_done {st : Status} (h : s.flush = .done st t) :
    (s.nbits = 0 ∧ st = .ok ∧ t = s) ∨
    (0 < s.nbits ∧ s.err = true ∧ st = .alreadyFailed ∧ t = s) ∨
    (0 < s.nbits ∧ s.err = false ∧ s.nbytes ≤ s.cap ∧ ∃ u, s.request = .received u ∧
      (∃ i, u.firstMismatch 0 s.nbytes = some i ∧ st = .verificationMismatch ∧
        t = ((u.countCmps (i + 1)).raise (u.mismatchAt i)).forgetObs)) ∨
    (0 < s.nbits ∧ s.err = false ∧ s.nbytes ≤ s.cap ∧ ∃ u, s.request = .received u ∧
      u.firstMismatch 0 s.nbytes = none ∧ st = .ok ∧
        t = (u.countCmps s.nbytes).clearAndReset.forgetObs) ∨
    (0 < s.nbits ∧ s.err = false ∧ s.nbytes ≤ s.cap ∧ ∃ u, s.request = .linkDown u ∧
      st = .connectivityError ∧ t = (u.raise .connectivity).forgetObs) := by
  unfold State.flush at h
  split at h
  · rename_i h0; cases h; exact .inl ⟨h0, rfl, rfl⟩
  · rename_i h0
    have h0 : 0 < s.nbits := Nat.pos_of_ne_zero h0
    split at h
    · rename_i he; cases h; exact .inr (.inl ⟨h0, he, rfl, rfl⟩)
    · rename_i he
      have he : s.err = false := by simpa using he
      split at h
      · cases h
      · rename_i hc
        have hc : s.nbytes ≤ s.cap := by omega
        split at h
        · rename_i u hu
          cases h
          rcases verify_cases (s := u) s.nbytes with ⟨i, hi, hv⟩ | ⟨hi, hv⟩
          · exact .inr (.inr (.inl ⟨h0, he, hc, u, hu, i, hi, by rw [hv], by rw [hv]⟩))
          · exact .inr (.inr (.inr (.inl ⟨h0, he, hc, u, hu, hi, by rw [hv], by rw [hv]⟩)))
        · rename_i u hu; cases h
          exact .inr (.inr (.inr (.inr ⟨h0, he, hc, u, hu, rfl, rfl⟩)))
        · cases h

/-- Everything a flush that never returns does (R130, last row). -/
theorem flush_hung (h : s.flush = .hung t) :
    0 < s.nbits ∧ s.err = false ∧ s.nbytes ≤ s.cap ∧ s.request = .stalled t := by
  unfold State.flush at h
  split at h
  · cases h
  · rename_i h0
    split at h
    · cases h
    · rename_i he
      split at h
      · cases h
      · rename_i hc
        split at h
        · cases h
        · cases h
        · rename_i u hu; cases h
          exact ⟨Nat.pos_of_ne_zero h0, by simpa using he, by omega, hu⟩

/-- A flush that does I/O (R120): steps 3 to 7. -/
theorem flush_io (h0 : 0 < s.nbits) (he : s.err = false) (hN : s.nbytes ≤ s.cap) :
    s.flush = match s.request with
      | .received u => .done (u.verify s.nbytes).1 (u.verify s.nbytes).2
      | .linkDown u => .done .connectivityError (u.raise .connectivity).forgetObs
      | .stalled u => .hung u := by
  unfold State.flush
  rw [if_neg (by omega), he, if_neg (by simp)]
  exact if_neg (by omega)

/-- When a flush is InvariantViolation (log 17). -/
theorem flush_bad {f : Fault} (h : s.flush = .bad f) :
    f = .invariantViolation ∧ 0 < s.nbits ∧ s.err = false ∧ s.cap < s.nbytes := by
  unfold State.flush at h
  split at h
  · cases h
  · rename_i h0
    split at h
    · cases h
    · rename_i he
      split at h
      · rename_i hc; cases h; exact ⟨rfl, Nat.pos_of_ne_zero h0, by simpa using he, hc⟩
      · split at h <;> cases h

/-! ### The recording of one cycle -/

/-- The four `set_bit`s of a cycle, where they are allowed (R90, R102). -/
theorem recordBits_of_lt (h : s.byteIdx < s.cap) (tms tdi tdo compare : Bool) :
    s.recordBits tms tdi tdo compare =
      .ok (if compare then (((s.orBit .tms tms).orBit .tdi tdi).orBit .tdoExp tdo).orBit .mask true
        else (s.orBit .tms tms).orBit .tdi tdi) := by
  unfold State.recordBits State.setBit
  cases compare <;> simp [h, bind, Except.bind]

theorem recordBits_of_le (h : s.cap ≤ s.byteIdx) (tms tdi tdo compare : Bool) :
    s.recordBits tms tdi tdo compare = .error .invariantViolation := by
  unfold State.recordBits State.setBit
  simp [show ¬ s.byteIdx < s.cap by omega, bind, Except.bind]

/-- The bits of a cycle stored, the cursor not yet moved. -/
def stored (s : State) (tms tdi tdo compare : Bool) : State :=
  if compare then (((s.orBit .tms tms).orBit .tdi tdi).orBit .tdoExp tdo).orBit .mask true
  else (s.orBit .tms tms).orBit .tdi tdi

theorem afterCycle_eq (s : State) (tms tdi tdo compare : Bool) :
    s.afterCycle tms tdi tdo compare = (s.stored tms tdi tdo compare).moveCursor := rfl

@[simp] theorem stored_cap (a b c d : Bool) : (s.stored a b c d).cap = s.cap := by
  unfold stored; split <;> simp
@[simp] theorem stored_byteIdx (a b c d : Bool) : (s.stored a b c d).byteIdx = s.byteIdx := by
  unfold stored; split <;> simp
@[simp] theorem stored_bitMask (a b c d : Bool) : (s.stored a b c d).bitMask = s.bitMask := by
  unfold stored; split <;> simp

theorem stored_atLastBit (a b c d : Bool) : (s.stored a b c d).atLastBit = s.atLastBit := by
  simp [State.atLastBit]

/-- `record_cycle` in the failed state (R101). -/
theorem recordCycle_failed (h : s.err = true) (a b c d e : Bool) :
    s.recordCycle a b c d e = .done .alreadyFailed s := by
  simp [State.recordCycle, h]

/-- `record_cycle` with room and no failure: the cycle is stored, and a flush of the batch follows at
capacity or on request (R100, R103, R104). -/
theorem recordCycle_room (he : s.err = false) (h : s.byteIdx < s.cap) (a b c d e : Bool) :
    s.recordCycle a b c d e =
      if s.atLastBit = true ∨ e = true then (s.afterCycle a b c d).flush
      else .done .ok (s.afterCycle a b c d) := by
  unfold State.recordCycle
  rw [recordBits_of_lt h]
  change (if s.err = true then _ else match (s.stored a b c d).advance with
    | .overflow => _ | .flushed r => r | .moved u => if e = true then u.flush else .done .ok u) = _
  rw [he, afterCycle_eq]
  unfold State.advance
  have hn : ¬ s.cap ≤ s.byteIdx := by omega
  rw [stored_cap, stored_byteIdx, stored_atLastBit]
  cases hl : s.atLastBit <;> cases e <;> simp [hn]

/-- `record_cycle` without room: InvariantViolation (R92). -/
theorem recordCycle_full (he : s.err = false) (h : s.cap ≤ s.byteIdx) (a b c d e : Bool) :
    s.recordCycle a b c d e = .bad .invariantViolation := by
  unfold State.recordCycle
  rw [recordBits_of_le h, he]; rfl

/-- Everything `record_cycle` can do. -/
theorem recordCycle_cases (s : State) (a b c d e : Bool) :
    (s.err = true ∧ s.recordCycle a b c d e = .done .alreadyFailed s) ∨
    (s.err = false ∧ s.cap ≤ s.byteIdx ∧ s.recordCycle a b c d e = .bad .invariantViolation) ∨
    (s.err = false ∧ s.byteIdx < s.cap ∧ (s.atLastBit = true ∨ e = true) ∧
      s.recordCycle a b c d e = (s.afterCycle a b c d).flush) ∨
    (s.err = false ∧ s.byteIdx < s.cap ∧ s.atLastBit = false ∧ e = false ∧
      s.recordCycle a b c d e = .done .ok (s.afterCycle a b c d)) := by
  cases he : s.err with
  | true => exact .inl ⟨rfl, recordCycle_failed he ..⟩
  | false =>
    rcases Nat.lt_or_ge s.byteIdx s.cap with h | h
    · rw [recordCycle_room he h]
      split
      · rename_i hf; exact .inr (.inr (.inl ⟨rfl, h, hf, rfl⟩))
      · rename_i hf; simp only [not_or, Bool.not_eq_true] at hf
        exact .inr (.inr (.inr ⟨rfl, h, hf.1, hf.2, rfl⟩))
    · exact .inr (.inl ⟨rfl, h, recordCycle_full he h ..⟩)

/-! ### From a procedure to a command -/

theorem inSession_open (h : s.isOpen = true) (r : Ran) : s.inSession r = r.outcome := by
  simp [State.inSession, h]

theorem inSession_closed (h : s.isOpen = false) (r : Ran) :
    s.inSession r = .next (s.respond .noSession) := by
  simp [State.inSession, h]


end State

/-- Everything a command whose body ended so can answer. -/
theorem Ran.outcome_next {r : Ran} {t : State} (h : r.outcome = .next t) :
    (∃ st u, r = .done st u ∧ t = u.respond st) ∨ r = .hung t := by
  cases r with
  | done st u => cases h; exact .inl ⟨st, u, rfl, rfl⟩
  | hung u => cases h; exact .inr rfl
  | bad f => cases h

end Sys2Proof.Machine
end

