-- ==== Sys2Proof/Laws/Cycle.lean ====
section
/-! SUPPORT. What recording one cycle does to the planes, to the cursor and to every other field
(spec/41_shift_accumulator.md R100, R102). -/

namespace Sys2Proof.Machine

/-- Every bit of every plane after a cycle: the bits of the cycle join the bit at the cursor (R42, R90). -/
theorem State.bitAt_afterCycle (s : State) (a b c d : Bool) (p : Plane) (hw : ∀ p, Memory.wf (s.plane p) = true) (h1 : oneHot s.bitMask = true) (k : Nat) :
    Memory.bitAt ((s.afterCycle a b c d).plane p) k = (Memory.bitAt (s.plane p) k ||
      (decide (k = s.nbits) && (match p with | .tms => a | .tdi => b | .tdoExp => c && d | .mask => d))) := by
  have key : ∀ (t : State) (q : Plane) (v : Bool), Memory.wf (t.plane q) = true → oneHot t.bitMask = true → Memory.bitAt ((t.orBit q v).plane q) k = (Memory.bitAt (t.plane q) k || (decide (k = t.nbits) && v)) := by
    intro t q v hq h1
    cases v
    · simp [State.orBit]
    · have : (t.orBit q true).plane q = Memory.write (t.plane q) t.byteIdx (Memory.read (t.plane q) t.byteIdx ||| t.bitMask) := by cases q <;> rfl
      rw [this, Memory.bitAt_orAt hq h1]; unfold State.nbits; rw [Bool.and_true]
  have mv : ∀ (t : State), t.moveCursor.plane p = t.plane p := by
    intro t; cases p <;> (unfold State.moveCursor; split <;> rfl)
  rw [State.afterCycle_eq, mv]
  unfold State.stored
  cases p
  · rw [← key s .tms a (hw _) h1]; cases d <;> cases b <;> cases c <;> rfl
  · have key2 := key (s.orBit .tms a) .tdi b (by have := hw .tdi; cases a <;> exact this) (by simpa using h1)
    have e1 : (s.orBit .tms a).plane .tdi = s.plane .tdi := by cases a <;> rfl
    rw [e1, State.nbits_orBit] at key2
    rw [← key2]
    cases d <;> cases c <;> rfl
  · cases d
    · cases a <;> cases b <;> cases c <;> simp [State.orBit, State.setPlane, State.plane]
    · have key2 := key ((s.orBit .tms a).orBit .tdi b) .tdoExp c (by have := hw .tdoExp; cases a <;> cases b <;> exact this) (by simpa using h1)
      have e1 : ((s.orBit .tms a).orBit .tdi b).plane .tdoExp = s.plane .tdoExp := by cases a <;> cases b <;> rfl
      rw [e1, State.nbits_orBit, State.nbits_orBit] at key2
      simp only [Bool.and_true]
      rw [← key2]; rfl
  · cases d
    · cases a <;> cases b <;> cases c <;> simp [State.orBit, State.setPlane, State.plane]
    · have key2 := key (((s.orBit .tms a).orBit .tdi b).orBit .tdoExp c) .mask true (by have := hw .mask; cases a <;> cases b <;> cases c <;> exact this) (by simpa using h1)
      have e1 : (((s.orBit .tms a).orBit .tdi b).orBit .tdoExp c).plane .mask = s.plane .mask := by cases a <;> cases b <;> cases c <;> rfl
      rw [e1, State.nbits_orBit, State.nbits_orBit, State.nbits_orBit] at key2
      rw [← key2]; rfl

/-- `set_bit` keeps the canonical form of the planes. -/
theorem State.wf_orBit (s : State) (q : Plane) (v : Bool) (h : ∀ p, Memory.wf (s.plane p) = true) : ∀ p, Memory.wf ((s.orBit q v).plane p) = true := by
  intro p; cases v
  · exact h p
  · cases q <;> cases p <;> first | exact Memory.wf_write (h _) _ _ | exact h _ | exact Memory.wf_write (h .tms) _ _ | exact Memory.wf_write (h .tdi) _ _ | exact Memory.wf_write (h .tdoExp) _ _ | exact Memory.wf_write (h .mask) _ _ | exact h .tms | exact h .tdi | exact h .tdoExp | exact h .mask
/-- `set_bit` below capacity keeps the planes within their bytes. -/
theorem State.within_orBit (s : State) (q : Plane) (v : Bool) (hr : s.byteIdx < s.cap) (h : ∀ p, Memory.within s.cap (s.plane p) = true) : ∀ p, Memory.within s.cap ((s.orBit q v).plane p) = true := by
  intro p; cases v
  · exact h p
  · cases q <;> cases p <;> first | exact Memory.within_write (h .tms) hr _ | exact Memory.within_write (h .tdi) hr _ | exact Memory.within_write (h .tdoExp) hr _ | exact Memory.within_write (h .mask) hr _ | exact h .tms | exact h .tdi | exact h .tdoExp | exact h .mask

/-- A cycle keeps the canonical form of the planes. -/
theorem State.wf_afterCycle (s : State) (a b c d : Bool) (h : ∀ p, Memory.wf (s.plane p) = true) : ∀ p, Memory.wf ((s.afterCycle a b c d).plane p) = true := by
  intro p
  have mv : ∀ (t : State), t.moveCursor.plane p = t.plane p := by
    intro t; cases p <;> (unfold State.moveCursor; split <;> rfl)
  rw [State.afterCycle_eq, mv]; unfold State.stored
  split
  · exact State.wf_orBit _ _ _ (State.wf_orBit _ _ _ (State.wf_orBit _ _ _ (State.wf_orBit _ _ _ h))) p
  · exact State.wf_orBit _ _ _ (State.wf_orBit _ _ _ h) p

/-- A cycle below capacity keeps the planes within their bytes. -/
theorem State.within_afterCycle (s : State) (a b c d : Bool) (hr : s.byteIdx < s.cap) (h : ∀ p, Memory.within s.cap (s.plane p) = true) : ∀ p, Memory.within s.cap ((s.afterCycle a b c d).plane p) = true := by
  intro p
  have mv : ∀ (t : State), t.moveCursor.plane p = t.plane p := by
    intro t; cases p <;> (unfold State.moveCursor; split <;> rfl)
  rw [State.afterCycle_eq, mv]; unfold State.stored
  have key : ∀ (t : State) q v, t.cap = s.cap → t.byteIdx = s.byteIdx → (∀ p, Memory.within s.cap (t.plane p) = true) → ∀ p, Memory.within s.cap ((t.orBit q v).plane p) = true := by
    intro t q v e1 e2 ht; rw [← e1] at ht ⊢; exact State.within_orBit t q v (by omega) ht
  split
  · exact key _ _ _ (by simp) (by simp) (key _ _ _ (by simp) (by simp) (key _ _ _ (by simp) (by simp) (key _ _ _ rfl rfl h))) p
  · exact key _ _ _ (by simp) (by simp) (key _ _ _ rfl rfl h) p

/-- What recording one cycle leaves as it was: everything but the planes and the cursor. -/
structure State.CycleFrame (s t : State) : Prop where
  err : t.err = s.err
  errKind : t.errKind = s.errKind
  isOpen : t.isOpen = s.isOpen
  diagValid : t.diagValid = s.diagValid
  diagIndex : t.diagIndex = s.diagIndex
  diagObs : t.diagObs = s.diagObs
  diagMask : t.diagMask = s.diagMask
  diagExp : t.diagExp = s.diagExp
  obs : t.obs = s.obs
  fph : t.fph = s.fph
  cph : t.cph = s.cph
  hid : t.hid = s.hid
  cap : t.cap = s.cap
  tx : t.tx = s.tx
  rx : t.rx = s.rx
  answers : t.answers = s.answers
  host : t.host = s.host
  responses : t.responses = s.responses
  events : t.events = s.events
  cmps : t.cmps = s.cmps
  draws : t.draws = s.draws

/-- Recording one cycle changes only the planes and the cursor. -/
theorem State.afterCycle_frame (s : State) (a b c d : Bool) : State.CycleFrame s (s.afterCycle a b c d) := by
  unfold State.afterCycle
  constructor <;> (split <;> simp)

/-- A cycle adds exactly 1 to `nbits` (R21, R91). -/
theorem State.nbits_afterCycle {s : State} (h : oneHot s.bitMask = true) (a b c d : Bool) :
    (s.afterCycle a b c d).nbits = s.nbits + 1 := by
  have e1 : (s.afterCycle a b c d).byteIdx = s.moveCursor.byteIdx := by
    rw [State.afterCycle_eq, State.moveCursor_byteIdx, State.moveCursor_byteIdx]; simp
  have e2 : (s.afterCycle a b c d).bitMask = s.moveCursor.bitMask := by
    rw [State.afterCycle_eq, State.moveCursor_bitMask, State.moveCursor_bitMask]; simp
  rw [← State.nbits_moveCursor h]; unfold State.nbits; rw [e1, e2]

end Sys2Proof.Machine
end

