-- ==== Sys2Proof/Laws/Body.lean ====
section
/-! SUPPORT. One principle for the procedures of the block: a relation that every single update
respects is respected by the flush, by a recorded cycle and by the whole of WAIT. -/

namespace Sys2Proof.Machine

/-- A reflexive and transitive relation that the updates of a running command respect. -/
structure Closed (P : State → State → Prop) : Prop where
  refl : ∀ s, P s s
  trans : ∀ {a b c}, P a b → P b c → P a c
  recv : ∀ {s u : State}, s.err = false → 0 < s.nbits → (s.request = .received u ∨ s.request = .linkDown u ∨ s.request = .stalled u) → P s u
  mism : ∀ (s : State) i, s.err = false → P s (((s.countCmps (i+1)).raise (s.mismatchAt i)).forgetObs)
  ok : ∀ (s : State) k, s.err = false → P s ((s.countCmps k).clearAndReset.forgetObs)
  link : ∀ s : State, s.err = false → P s (s.raise .connectivity).forgetObs
  after : ∀ (s : State) a b c d, s.err = false → P s (s.afterCycle a b c d)
  wcnt : ∀ (s : State) k, P s (s.setWcnt k)
  enter : ∀ (s : State) k, P s (s.enterWait k)

/-- Where a procedure that returns or hangs ends, the property holds. -/
def Ends (P : State → Prop) (r : Ran) : Prop := match r with
  | .done _ t => P t
  | .hung t => P t
  | .bad _ => True

/-- A flush respects the relation. -/
theorem Closed.flush {P : State → State → Prop} (h : Closed P) (s : State) : Ends (P s) s.flush := by
  cases hf : s.flush with
  | bad f => trivial
  | hung t => obtain ⟨h0, he, _, hr⟩ := State.flush_hung hf; exact h.recv he h0 (.inr (.inr hr))
  | done st t =>
    rcases State.flush_done hf with ⟨h0, _, rfl⟩ | ⟨h0, he, hh, rfl⟩ | ⟨h0, he, _, u, hu, i, hi', hh, rfl⟩ | ⟨h0, he, _, u, hu, hi', _, rfl⟩ | ⟨h0, he, _, u, hu, hh, rfl⟩
    · exact h.refl _
    · exact h.refl _
    · have f := (State.exchange_received_frame hu).1
      exact h.trans (h.recv he h0 (.inl hu)) (h.mism u i (f.err.trans he))
    · have f := (State.exchange_received_frame hu).1
      exact h.trans (h.recv he h0 (.inl hu)) (h.ok u _ (f.err.trans he))
    · have f := (State.exchange_linkDown_frame hu).1
      exact h.trans (h.recv he h0 (.inr (.inl hu))) (h.link u (f.err.trans he))

/-- The relation, one step and then a procedure. -/
theorem Closed.ends {P : State → State → Prop} (h : Closed P) {s s' : State} (hp : P s s') {r : Ran} (hr : Ends (P s') r) : Ends (P s) r := by
  cases r
  · exact h.trans hp hr
  · exact h.trans hp hr
  · trivial

/-- `record_cycle` respects the relation. -/
theorem Closed.record {P : State → State → Prop} (h : Closed P) (s : State) (a b c d e : Bool) : Ends (P s) (s.recordCycle a b c d e) := by
  rcases State.recordCycle_cases s a b c d e with ⟨he, hc⟩ | ⟨he, hb, hc⟩ | ⟨he, hb, _, hc⟩ | ⟨he, hb, hl, _, hc⟩ <;> rw [hc]
  · exact h.refl _
  · trivial
  · exact h.ends (h.after s a b c d he) (h.flush _)
  · exact h.after s a b c d he

/-- The idle cycles of WAIT respect the relation. -/
theorem Closed.idle {P : State → State → Prop} (h : Closed P) (s : State) (tms : Bool) (n : Nat) : Ends (P s) (s.idleCycles tms n) := by
  induction n generalizing s with
  | zero => exact h.refl _
  | succ n ih =>
    unfold State.idleCycles
    have hr := h.ends (h.wcnt s n) (h.record (s.setWcnt n) tms false false false false)
    split
    · rename_i t ht; rw [ht] at hr; exact h.ends hr (ih t)
    · exact hr

/-- The body of WAIT respects the relation. -/
theorem Closed.wait {P : State → State → Prop} (h : Closed P) (s : State) (tms : Bool) (n : Nat) : Ends (P s) (s.waitBody tms n) := by
  unfold State.waitBody
  have hr := h.ends (h.enter s n) (h.idle _ tms n)
  cases hh : (s.enterWait n).idleCycles tms n <;> rw [hh] at hr
  · rename_i st t
    dsimp only
    have hf := h.ends (s' := t) hr (h.flush t)
    cases hh2 : t.flush <;> rw [hh2] at hf <;> exact hf
  · exact hr
  · trivial

end Sys2Proof.Machine
end

