-- ==== Sys2Proof/Laws/Encoding.lean ====
section
/-! SUPPORT. The pieces of the encodings: one-bit fields, the count field, the length and the padding of
a shift request (spec/30_encoding.md). -/

namespace Sys2Proof.Machine

/-- The count field reads back (R71). -/
theorem leValue_le32 {n : Nat} (h : n < 2^32) : leValue (le32 n) = n := by
  simp [leValue, le32]; omega
/-- Four bytes are the count field of the number they stand for (R71). -/
theorem le32_leValue (b0 b1 b2 b3 : Byte) : le32 (leValue [b0,b1,b2,b3]) = [b0,b1,b2,b3] := by
  have := b0.isLt; have := b1.isLt; have := b2.isLt; have := b3.isLt
  simp only [leValue, le32, List.cons.injEq, and_true]
  refine ⟨?_, ?_, ?_, ?_⟩ <;> apply BitVec.eq_of_toNat_eq <;> simp only [BitVec.toNat_ofNat] <;> omega

theorem tag_length : Config.tag.length = 6 := rfl
theorem le32_length (n : Nat) : (le32 n).length = 4 := rfl
/-- The length of a shift request (R69). -/
theorem length_shiftFrame (n : Nat) (a b : List Byte) : (shiftFrame n a b).length = 10 + a.length + b.length := by
  simp [shiftFrame, tag_length, le32_length]; omega

/-- The bits of a one-bit field. -/
theorem getLsbD_bitAt (b : Bool) (k j : Nat) : (bitAt b k).getLsbD j = (decide (j < 32) && (decide (j = k) && b)) := by
  unfold bitAt
  rw [BitVec.getLsbD_shiftLeft, BitVec.getLsbD_setWidth, BitVec.getLsbD_ofBool]
  by_cases h : j = k
  · subst h; simp
  · by_cases h2 : j < k
    · simp [h, h2]
    · have : ¬ (j - k = 0) := by omega
      simp [h, h2, this]

/-- A plane with nothing beyond the cursor gives a section with zero padding (R72). -/
theorem paddingIsZero_readRange {m : Memory} {n : Nat} (h0 : 0 < n) (hz : ∀ k, n ≤ k → Memory.bitAt m k = false) : paddingIsZero n (Memory.readRange m 0 (ceil8 n)) = true := by
  unfold paddingIsZero
  by_cases h8 : n % 8 = 0
  · simp [h8]
  · simp only [h8, beq_iff_eq, Bool.or_eq_true, false_or]
    have hl : (Memory.readRange m 0 (ceil8 n)).getLastD 0#8 = Memory.read m (n / 8) := by
      rw [List.getLastD_eq_getLast?, List.getLast?_eq_getElem?]
      have := Memory.getD_readRange m 0 (ceil8 n) (n/8) (by unfold ceil8; omega)
      rw [List.getD_eq_getElem?_getD] at this
      simp only [Memory.length_readRange]
      rw [show ceil8 n - 1 = n / 8 by unfold ceil8; omega, this]; simp
    rw [hl]
    apply BitVec.eq_of_getLsbD_eq
    intro k hk
    rw [BitVec.getLsbD_ushiftRight]
    by_cases hh : n % 8 + k < 8
    · have := hz (8 * (n/8) + (n % 8 + k)) (by omega)
      unfold Memory.bitAt at this
      rw [show (8 * (n/8) + (n % 8 + k)) / 8 = n / 8 by omega, show (8 * (n/8) + (n % 8 + k)) % 8 = n % 8 + k by omega] at this
      simp [this]
    · rw [BitVec.getLsbD_of_ge _ _ (by omega)]; simp

end Sys2Proof.Machine
end

