-- ==== Sys2Proof/Laws/PerInstr.lean ====
section
/-! SUPPORT. The statements made once for each instruction. -/

namespace Sys2Proof.Laws

/-! ### Opcode: what the encoding of an instruction begins with -/

/-- The `OP` of a command (30_encoding R61); a shift request has none. -/
def Opcode.expected : Instr → Option (BitVec 4)
  | .setup => some 0x1#4
  | .record _ _ _ _ _ => some 0x2#4
  | .wait _ _ => some 0x3#4
  | .flush => some 0x4#4
  | .shutdown => some 0x5#4
  | .shiftReq _ _ _ => none

/-- A command is encoded as a word with its `OP` (R60, R61), a shift request as a frame that begins with
the tag (R69, R70). -/
def Opcode.agrees : Option (BitVec 4) → Code → Bool
  | some op, .word w => opField w == op
  | none, .frame bs => bs.take 6 == Config.tag
  | some _, .frame _ => false
  | none, .word _ => false

/-- The encoding of the instruction begins as the opcode map says. -/
def Opcode.Statement (i : Instr) : Prop := Opcode.agrees (Opcode.expected i) (encode i) = true

theorem Opcode.setup : Opcode.Statement .setup := by
  unfold Opcode.Statement; decide

theorem Opcode.record (tms tdi tdo compare sync : Bool) :
    Opcode.Statement (.record tms tdi tdo compare sync) := by
  unfold Opcode.Statement
  cases tms <;> cases tdi <;> cases tdo <;> cases compare <;> cases sync <;> decide

theorem Opcode.wait (tms : Bool) (count : Nat) : Opcode.Statement (.wait tms count) := by
  change (opField (encodeW tms count) == 0x3#4) = true
  rw [beq_iff_eq]
  apply BitVec.eq_of_getLsbD_eq
  intro k hk
  unfold opField encodeW
  rw [BitVec.getLsbD_extractLsb', BitVec.getLsbD_or, BitVec.getLsbD_or, Machine.getLsbD_bitAt,
    BitVec.getLsbD_setWidth, BitVec.getLsbD_of_ge (BitVec.ofNat 24 count) _ (by omega)]
  interval_cases k <;> simp

theorem Opcode.flush : Opcode.Statement .flush := by
  unfold Opcode.Statement; decide

theorem Opcode.shutdown : Opcode.Statement .shutdown := by
  unfold Opcode.Statement; decide

theorem Opcode.shiftReq (n : Nat) (tms tdi : List Byte) : Opcode.Statement (.shiftReq n tms tdi) := by
  change ((shiftFrame n tms tdi).take 6 == Config.tag) = true
  simp [shiftFrame, Config.tag]

end Sys2Proof.Laws
end

