-- ==== Sys2Proof/Laws/Sequencer.lean ====
section
/-! SUPPORT. Everything a clock of the flush phases can do, and what a run's inputs spell
(spec/43_sync_protocol.md R132 to R136). -/

namespace Sys2Proof.Machine

/-- Everything the start of a flush can do: the three `F_IDLE` rows of R133, and the fault of log 17. -/
theorem State.startFlush_cases (s : State) (k : FlushCaller) :
    (s.nbits = 0 ∧ s.startFlush k = .ok
      ({ s with cph := .flush, hid := { s.hid with caller := k } }.flushReturns .ok)) ∨
    (s.nbits ≠ 0 ∧ s.err = true ∧ s.startFlush k = .ok
      ({ s with cph := .flush, hid := { s.hid with caller := k } }.flushReturns .alreadyFailed)) ∨
    (s.nbits ≠ 0 ∧ s.err = false ∧ s.cap < s.nbytes ∧ s.startFlush k = .error .invariantViolation) ∨
    (s.nbits ≠ 0 ∧ s.err = false ∧ s.nbytes ≤ s.cap ∧ s.startFlush k = .ok
      { s with
        cph := .flush
        fph := .tag
        hid := { s.hid with
          caller := k, lenBits := BitVec.ofNat 32 s.nbits, lenBytes := s.nbytes, fctr := 0 } }) := by
  by_cases h0 : s.nbits = 0
  · exact .inl ⟨h0, by simp [State.startFlush, h0]⟩
  · cases he : s.err
    · rcases Nat.lt_or_ge s.cap s.nbytes with hl | hl
      · exact .inr (.inr (.inl ⟨h0, rfl, hl, by simp [State.startFlush, h0, he, hl]⟩))
      · exact .inr (.inr (.inr ⟨h0, rfl, hl, by
          simp [State.startFlush, h0, he, show ¬ s.cap < s.nbytes by omega]⟩))
    · exact .inr (.inl ⟨h0, rfl, by simp [State.startFlush, h0, he]⟩)

/-- Everything one clock of `F_VFY` can do (R133). -/
theorem State.verifyPhase_cases (s : State) :
    (s.agreesAt s.hid.fctr = false ∧ s.verifyPhase =
      (((s.countCmps 1).raise (s.mismatchAt s.hid.fctr)).forgetObs).flushReturns .verificationMismatch) ∨
    (s.agreesAt s.hid.fctr = true ∧ s.hid.fctr < s.hid.lenBytes - 1 ∧
      s.verifyPhase = (s.countCmps 1).toPhase .vfy (s.hid.fctr + 1)) ∨
    (s.agreesAt s.hid.fctr = true ∧ ¬ s.hid.fctr < s.hid.lenBytes - 1 ∧
      s.verifyPhase = (s.countCmps 1).toPhase .clr s.hid.fctr) := by
  unfold State.verifyPhase
  cases ha : s.agreesAt s.hid.fctr
  · exact .inl ⟨rfl, by simp⟩
  · by_cases hl : s.hid.fctr < s.hid.lenBytes - 1
    · exact .inr (.inl ⟨rfl, hl, by simp [hl]⟩)
    · exact .inr (.inr ⟨rfl, hl, by simp [hl]⟩)

/-- A clock of a running flush is a clock of its phase (R134). -/
theorem clock_of_flush {p : PortIn} {s : State} (hr : p.rst = false) (hc : s.cph = .flush)
    (hf : s.fph ≠ .idle) : clock p s = .ok (s.flushClock p) := by
  simp [clock, hr, hc, hf]

/-- Outside a flush nothing is spelled. -/
theorem State.spells_of_idle {s : State} (h : s.fph = .idle) (p : PortIn) (taken : List Byte) :
    s.spells p taken = (none, taken) := by
  simp [State.spells, State.inIO, State.rxReady, h]

/-- Everything one clock can spell: a failure, the last byte of a response, a byte of it, or nothing. -/
theorem State.spells_cases (s : State) (p : PortIn) (taken : List Byte) :
    (s.inIO = true ∧ p.linkErr = true ∧ s.spells p taken = (some (.linkFail s.handedOver []), [])) ∨
    (s.fph = .rx ∧ p.linkErr = false ∧ p.rxValid = true ∧ ¬ s.hid.fctr < s.hid.lenBytes - 1 ∧
      s.spells p taken = (some (.bytes (taken ++ [p.rxData])), [])) ∨
    (s.fph = .rx ∧ p.linkErr = false ∧ p.rxValid = true ∧ s.hid.fctr < s.hid.lenBytes - 1 ∧
      s.spells p taken = (none, taken ++ [p.rxData])) ∨
    ((s.inIO = false ∨ p.linkErr = false) ∧ (s.fph ≠ .rx ∨ p.rxValid = false) ∧
      s.spells p taken = (none, taken)) := by
  unfold State.spells State.rxReady
  by_cases hx : s.fph = .rx
  · have hio : s.inIO = true := by simp [State.inIO, hx]
    cases hl : p.linkErr <;> cases hv : p.rxValid <;> by_cases hc : s.hid.fctr < s.hid.lenBytes - 1 <;>
      simp [hio, hx, hc]
  · cases hio : s.inIO <;> cases hl : p.linkErr <;> simp [hx]

/-- What a run spells, one clock at a time. -/
theorem spelledAnswers_cons {p : PortIn} {s t : State} (h : clock p s = .ok t) (ps : List PortIn)
    (taken : List Byte) :
    spelledAnswers (p :: ps) s taken
      = (s.spells p taken).1.toList ++ spelledAnswers ps t (s.spells p taken).2 := by
  rw [spelledAnswers, h]

/-- Two runs' answers one after another use up what each uses up. -/
theorem SpellsFrom.append {as bs answers mid left : List Answer} {rx rxMid rxLeft : List Byte}
    (h : SpellsFrom as rx answers rxMid mid) (g : SpellsFrom bs rxMid mid rxLeft left) :
    SpellsFrom (as ++ bs) rx answers rxLeft left := by
  induction as generalizing rx answers with
  | nil => obtain ⟨rfl, rfl⟩ := h; exact g
  | cons a as ih =>
    cases a with
    | bytes got =>
      obtain ⟨arriving, later, rest, h1, h2, h3⟩ := h
      exact ⟨arriving, later, rest, h1, h2, ih h3⟩
    | linkFail k _ =>
      obtain ⟨position, rxAfter, later, h1, h2, h3⟩ := h
      exact ⟨position, rxAfter, later, h1, h2, ih h3⟩
    | never k => exact h.elim

/-- The answer a flush uses is the transport's next, and `dropAnswer` leaves the later ones (log 10). -/
theorem State.nextAnswerIs (s : State) : NextAnswerIs s.answers s.nextAnswer s.dropAnswer.answers := by
  unfold NextAnswerIs State.nextAnswer State.dropAnswer
  cases h : s.answers with
  | nil => exact .inr ⟨rfl, rfl, _, rfl⟩
  | cons a later => exact .inl rfl

end Sys2Proof.Machine
end

