-- ==== Sys2Proof/Laws/Step.lean ====
section
/-! SUPPORT. Everything a step and a command can do, said once (spec/00_scope.md R8). -/

namespace Sys2Proof.Machine

/-- No command word decodes to a shift request (log 4). -/
theorem decodeWord_not_shift {w : Word} {n : Nat} {a b : List Byte} : decodeWord w ≠ .ok (.shiftReq n a b) := by
  unfold decodeWord decodeZ decodeR decodeW
  intro h
  split at h <;> (try split at h) <;> (try split at h) <;> (try split at h) <;> (try split at h) <;> (try split at h) <;> simp at h

/-- Everything a step that answers a next state can do. -/
theorem step_cases {s t : State} (h : step s = .next t) :
    t = s ∨ (∃ l, s.host = .reset :: l ∧ t = s.popHost.hardwareReset) ∨
    (∃ w l, s.host = .command w :: l ∧ s.cph = .idle ∧
      ((∃ i, decodeWord w = .ok i ∧ exec i (s.accept w) = .next t) ∨
       (∃ e, decodeWord w = .error e ∧ t = (s.accept w).respond .illegalCommand))) := by
  unfold step State.portEvent at h
  cases hh : s.host with
  | nil => rw [hh] at h; cases h; exact .inl rfl
  | cons x xs =>
    rw [hh] at h
    cases x with
    | reset => cases h; exact .inr (.inl ⟨_, rfl, rfl⟩)
    | command w =>
      by_cases hc : s.cph = .idle
      · have : s.cmdReady = true := by simp [State.cmdReady, hc]
        simp only [this, if_true] at h
        refine .inr (.inr ⟨w, xs, rfl, hc, ?_⟩)
        split at h
        · exact .inl ⟨_, by assumption, h⟩
        · cases h; exact .inr ⟨_, by assumption, rfl⟩
      · have : s.cmdReady = false := by simp [State.cmdReady, hc]
        simp only [this] at h
        cases h; exact .inl rfl

/-- Everything the decoder can refuse: an illegal word, or a command other than SETUP without a session. -/
theorem State.decoderRefusal_cases (s : State) (w : Word) :
    (s.decoderRefusal w = some (.illegalCommand w) ∧ ∃ e, decodeWord w = .error e) ∨
    (s.decoderRefusal w = some (.noSession w) ∧ s.isOpen = false ∧ ∃ i, decodeWord w = .ok i ∧ i ≠ .setup) ∨
    (s.decoderRefusal w = none ∧ ∃ i, decodeWord w = .ok i ∧ (i = .setup ∨ s.isOpen = true)) := by
  unfold State.decoderRefusal
  cases hd : decodeWord w with
  | error e => exact .inl ⟨rfl, e, rfl⟩
  | ok i =>
    cases i with
    | shiftReq n a b => exact absurd hd decodeWord_not_shift
    | setup => exact .inr (.inr ⟨rfl, _, rfl, .inl rfl⟩)
    | record a b c d e => cases s.isOpen <;> simp
    | wait a n => cases s.isOpen <;> simp
    | flush => cases s.isOpen <;> simp
    | shutdown => cases s.isOpen <;> simp

/-- The procedure of a command once it is accepted in a session. -/
def State.body (s : State) : Instr → Ran
  | .record a b c d e => s.recordCycle a b c d e
  | .wait a n => s.waitBody a n
  | .flush => s.flush
  | .shutdown => match s.flush with
    | .done st t => .done st t.closeSession
    | r => r
  | .setup => .done .ok s.freshSession
  | .shiftReq _ _ _ => .done .ok s

/-- Everything a decoded command that answers a next state can do. -/
theorem exec_cases {s t : State} {w : Word} {i : Instr} (hd : decodeWord w = .ok i) (h : exec i s = .next t) :
    (i = .setup ∧ t = s.freshSession.respond .ok) ∨
    (i ≠ .setup ∧ s.isOpen = false ∧ t = s.respond .noSession) ∨
    (i ≠ .setup ∧ s.isOpen = true ∧ ((∃ st u, s.body i = .done st u ∧ t = u.respond st) ∨ s.body i = .hung t)) := by
  have key : ∀ r, s.inSession r = .next t → (s.isOpen = false ∧ t = s.respond .noSession) ∨ (s.isOpen = true ∧ ((∃ st u, r = .done st u ∧ t = u.respond st) ∨ r = .hung t)) := by
    intro r h
    cases ho : s.isOpen
    · rw [State.inSession_closed ho] at h; cases h; exact .inl ⟨rfl, rfl⟩
    · rw [State.inSession_open ho] at h; exact .inr ⟨rfl, Ran.outcome_next h⟩
  cases i with
  | setup => cases h; exact .inl ⟨rfl, rfl⟩
  | record a b c d e => right; rcases key _ h with h | h; exact .inl ⟨by simp, h⟩; exact .inr ⟨by simp, h⟩
  | wait a n => right; rcases key _ h with h | h; exact .inl ⟨by simp, h⟩; exact .inr ⟨by simp, h⟩
  | flush => right; rcases key _ h with h | h; exact .inl ⟨by simp, h⟩; exact .inr ⟨by simp, h⟩
  | shutdown => right; rcases key _ h with h | h; exact .inl ⟨by simp, h⟩; exact .inr ⟨by simp, h⟩
  | shiftReq n a b => exact absurd hd decodeWord_not_shift

end Sys2Proof.Machine
end

