-- ==== Sys2Proof/Tests/Slice0.lean ====
section
/-! SUPPORT. The model's own tests: ill-formed terms, words written out from the encoding tables, small
steps with results taken from spec/95_test_vectors.md, and for every statement with hypotheses a concrete
case that meets them. -/

namespace Sys2Proof.Tests

open Sys2Proof.Machine

/-! ### Well-formedness: each check refuses something -/

theorem test_wf_wait_count : (Instr.wait true 16777216).WellFormed = false := by decide
theorem test_wf_wait_largest : (Instr.wait true 16777215).WellFormed = true := by decide
theorem test_wf_shift_zero_bits : (Instr.shiftReq 0 [] []).WellFormed = false := by decide
theorem test_wf_shift_too_many_bits : (Instr.shiftReq 4294967289 [] []).WellFormed = false := by decide
theorem test_wf_shift_tms_length : (Instr.shiftReq 9 [1#8] [0#8, 0#8]).WellFormed = false := by decide
theorem test_wf_shift_tdi_length : (Instr.shiftReq 9 [1#8, 0#8] [0#8]).WellFormed = false := by decide
theorem test_wf_shift_tms_padding : (Instr.shiftReq 5 [0x20#8] [0#8]).WellFormed = false := by decide
theorem test_wf_shift_tdi_padding : (Instr.shiftReq 5 [0x1F#8] [0x80#8]).WellFormed = false := by decide
theorem test_wf_shift : (Instr.shiftReq 5 [0x1F#8] [0x10#8]).WellFormed = true := by decide

/-! ### Decoding: words written bit by bit from R62 to R64 and R69 -/

theorem test_decode_setup : decodeWord 0b00010000000000000000000000000000#32 = .ok .setup := by decide
theorem test_decode_record :
    decodeWord 0b00100000000000000000000000010010#32 = .ok (.record false true false false true) := by decide
theorem test_decode_record_expected :
    decodeWord 0b00100000000000000000000000001101#32 = .ok (.record true false true true false) := by decide
theorem test_decode_wait : decodeWord 0b00110001000000000000000000000011#32 = .ok (.wait true 3) := by decide
theorem test_decode_wait_high_count :
    decodeWord 0b00110000100000000000000000000000#32 = .ok (.wait false 8388608) := by decide
theorem test_decode_flush : decodeWord 0b01000000000000000000000000000000#32 = .ok .flush := by decide
theorem test_decode_shutdown : decodeWord 0b01010000000000000000000000000000#32 = .ok .shutdown := by decide
/-- The frame of `95_test_vectors` V12a. -/
theorem test_decode_shift :
    decodeFrame [0x73#8, 0x68#8, 0x69#8, 0x66#8, 0x74#8, 0x3A#8, 0x09#8, 0#8, 0#8, 0#8, 0xFF#8, 0x01#8, 0xFF#8,
      0x01#8] = .ok (.shiftReq 9 [0xFF#8, 0x01#8] [0xFF#8, 0x01#8]) := by decide

/-- The words of V27, rejected by name. -/
theorem test_decode_reserved_opcode :
    decodeWord 0x00000000#32 = .error .reservedOpcode ∧ decodeWord 0x60000000#32 = .error .reservedOpcode
      ∧ decodeWord 0xF0000000#32 = .error .reservedOpcode := by decide
theorem test_decode_reserved_bits :
    decodeWord 0x20000020#32 = .error .reservedBits ∧ decodeWord 0x28000000#32 = .error .reservedBits
      ∧ decodeWord 0x32000000#32 = .error .reservedBits ∧ decodeWord 0x10000001#32 = .error .reservedBits
      ∧ decodeWord 0x40000001#32 = .error .reservedBits
      ∧ decodeWord 0x50000001#32 = .error .reservedBits := by decide
theorem test_decode_frame_errors :
    decodeFrame [] = .error .wrongTag
      ∧ decodeFrame (Config.tag ++ [0#8, 0#8, 0#8, 0#8]) = .error .countOutOfRange
      ∧ decodeFrame (Config.tag ++ [5#8, 0#8, 0#8, 0#8, 0#8]) = .error .wrongLength
      ∧ decodeFrame (Config.tag ++ [5#8, 0#8, 0#8, 0#8, 0x20#8, 0#8]) = .error .paddingBits := by decide
/-- The count fields of V19. -/
theorem test_count_field :
    le32 300 = [0x2C#8, 0x01#8, 0#8, 0#8] ∧ le32 70000 = [0x70#8, 0x11#8, 0x01#8, 0#8]
      ∧ le32 4294967288 = [0xF8#8, 0xFF#8, 0xFF#8, 0xFF#8] := by decide
theorem test_table_word : decodeTableWord 32 0x2000001B = some (.record true true false true true) := by decide
theorem test_table_frame : decodeTableWord 80 0x00000001_3A7466696873 = some (.shiftReq 1 [0#8] [0#8]) := by
  decide

/-! ### Small states -/

/-- An open session with a cursor, empty planes and answers to come. -/
def live (cap byteIdx : Nat) (bitMask : Byte) (answers : List Answer) : State :=
  { State.resetAt cap with isOpen := true, byteIdx := byteIdx, bitMask := bitMask, answers := answers }

/-- The same with this command word on the command port. -/
def offered (w : Word) (s : State) : State := { s with host := [.command w] }

/-- The batch of V15: `EXP[01] MASK[03]`, three bits pending, one answer. -/
def compared (answer : Answer) : State :=
  { live 1 0 0x08#8 [answer] with tdoExp := [(0, 0x01#8)], mask := [(0, 0x03#8)] }

/-- The same batch after a failed flush (V16). -/
def failed : State := { compared (.bytes []) with err := true, errKind := .connectivityError }

/-- What a function shows of the next state of an outcome. -/
def seen {α : Type} (f : State → α) : Host.Outcome State Fault Refusal → Option α
  | .next t => some (f t)
  | .fault _ => none
  | .refused _ => none

/-- The last status an outcome has given. -/
def lastStatus (o : Host.Outcome State Fault Refusal) : Option (Option (Word × Status)) :=
  seen (fun t => t.responses.getLast?) o

/-- Inputs with the transport ready and a response byte of 0 offered; no command. -/
def serving : PortIn :=
  { rst := false, cmdValid := false, cmdWord := 0#32, txReady := true, rxValid := true, rxData := 0#8
    linkErr := false }

/-! ### One step of each instruction -/

/-- V24: SETUP leaves the failed state and clears the planes. -/
theorem test_setup :
    seen (fun t => ((t.err, t.isOpen), (t.mask, t.nbits, t.tx))) (step (offered 0x10000000#32 failed))
      = some ((false, true), ([], 0, [])) := by decide
/-- V2: the four planes and the cursor. -/
theorem test_record :
    seen (fun t => ([t.tms, t.tdi, t.tdoExp, t.mask], t.byteIdx, t.bitMask))
        (step (offered 0x2000000F#32 (live 2 0 0x01#8 [])))
      = some ([[(0, 0x01#8)], [(0, 0x01#8)], [(0, 0x01#8)], [(0, 0x01#8)]], 0, 0x02#8) := by decide
/-- V5: a compared 0 is checked; the planes stay, the registers hold the byte as received. -/
theorem test_record_sync_mismatch :
    seen (fun t => ((t.errKind, t.diagObs, t.diagMask, t.diagExp), (t.mask, t.tx)))
        (step (offered 0x2000001B#32 (live 2 0 0x01#8 [.bytes [0x01#8]])))
      = some ((.verificationMismatch, 0x01#8, 0x01#8, 0x00#8), ([(0, 0x01#8)],
          [0x73#8, 0x68#8, 0x69#8, 0x66#8, 0x74#8, 0x3A#8, 0x01#8, 0#8, 0#8, 0#8, 0x01#8, 0x01#8])) := by decide
/-- V9: three idle cycles and the trailing flush. -/
theorem test_wait :
    seen (fun t => (t.nbits, t.cmps, t.tx)) (step (offered 0x31000003#32 (live 1 0 0x01#8 [.bytes [0x55#8]])))
      = some (0, 1, [0x73#8, 0x68#8, 0x69#8, 0x66#8, 0x74#8, 0x3A#8, 0x03#8, 0#8, 0#8, 0#8, 0x07#8, 0x00#8]) := by
  decide
/-- V11: the automatic flush fails, the rest of the cycles are not recorded, the first failure decides. -/
theorem test_wait_aborted :
    seen (fun t => ((t.responses, t.byteIdx, t.bitMask), (t.mask, t.cmps)))
        (step (offered 0x3000000A#32
          { live 1 0 0x02#8 [.bytes [0x00#8]] with tdoExp := [(0, 0x01#8)], mask := [(0, 0x01#8)] }))
      = some (([(0x3000000A#32, .verificationMismatch)], 1, 0x01#8), ([(0, 0x01#8)], 1)) := by decide
/-- V15: bits beyond the mask are ignored. -/
theorem test_flush_verified :
    seen (fun t => (t.responses, t.mask, t.nbits)) (step (offered 0x40000000#32 (compared (.bytes [0xFD#8]))))
      = some ([(0x40000000#32, .ok)], [], 0) := by decide
/-- V16, V17: a mismatch, and the byte as received. -/
theorem test_flush_mismatch :
    seen (fun t => (t.responses, t.diagObs, t.events, t.nbits))
        (step (offered 0x40000000#32 (compared (.bytes [0xFE#8]))))
      = some ([(0x40000000#32, .verificationMismatch)], 0xFE#8, [.mismatch 0 0xFE#8 0x03#8 0x01#8], 3) := by
  decide
/-- V25: the final flush, then no session. -/
theorem test_shutdown :
    seen (fun t => (t.isOpen, t.responses, t.tx))
        (step (offered 0x50000000#32 { live 2 0 0x08#8 [.bytes [0x00#8]] with tms := [(0, 0x07#8)] }))
      = some (false, [(0x50000000#32, .ok)],
          [0x73#8, 0x68#8, 0x69#8, 0x66#8, 0x74#8, 0x3A#8, 0x03#8, 0#8, 0#8, 0#8, 0x07#8, 0x00#8]) := by decide
/-- V26: no session after reset. -/
theorem test_no_session : lastStatus (step (offered 0x40000000#32 (State.resetAt 1)))
    = some (some (0x40000000#32, .noSession)) := by decide
/-- R69, R125: the frame goes out, the response lands in `OBS`, a surplus byte stays (R200). -/
theorem test_shift_request :
    seen (fun t => (t.tx, t.obs, t.rx)) (exec (.shiftReq 5 [0x1F#8] [0x02#8]) (live 1 0 0x01#8 [.bytes [0x9A#8, 0x77#8]]))
      = some ([0x73#8, 0x68#8, 0x69#8, 0x66#8, 0x74#8, 0x3A#8, 0x05#8, 0#8, 0#8, 0#8, 0x1F#8, 0x02#8],
          [(0, 0x9A#8)], [0x77#8]) := by decide
/-- The first command after reset is fetched and run. -/
theorem test_fetch : lastStatus (step (State.reset.withFetchWord 32 0x10000000))
    = some (some (0x10000000#32, .ok)) := by decide

/-! ### A case for the hypotheses of each statement -/

/-- A state of a session with nothing in the planes meets the invariant. -/
theorem inv_live (cap byteIdx : Nat) (bitMask : Byte) (answers : List Answer) (h1 : cap ≤ 536870911)
    (h2 : oneHot bitMask = true) (h3 : byteIdx < cap) : Inv (live cap byteIdx bitMask answers) where
  cap_pos := show 1 ≤ cap by omega
  cap_le := h1
  planes_wf p := by cases p <;> rfl
  obs_wf := rfl
  planes_within p := by cases p <;> rfl
  obs_within := rfl
  one_hot := h2
  in_range := .inl h3
  zero_beyond _ p k _ := by cases p <;> exact Memory.bitAt_nil k
  exp_in_mask _ i := show 0#8 &&& ~~~0#8 = 0#8 by decide
  err_pending h := nomatch h
  room _ _ := h3
  err_kind := ⟨fun h => (nomatch h), fun h => absurd rfl h⟩
  diag_kind := ⟨fun h => (nomatch h), fun h => (nomatch h)⟩
  phases := .inl ⟨rfl, rfl⟩

/-- The invariant does not look at the host's inputs. -/
theorem inv_offered {s : State} (h : Inv s) (host : List HostInput) : Inv { s with host := host } :=
  ⟨h.1, h.2, h.3, h.4, h.5, h.6, h.7, h.8, h.9, h.10, h.11, h.12, h.13, h.14, h.15⟩

theorem witness_DecodeInvertsEncode : (Instr.wait true 16777215).WellFormed = true
    ∧ (Instr.record true true true true true).WellFormed = true
    ∧ (Instr.shiftReq 9 [0xFF#8, 0x01#8] [0x00#8, 0x01#8]).WellFormed = true := by decide
theorem witness_DecodedCodeIsTheEncoding : decode (.word 0x3100000C#32) = .ok (.wait true 12)
    ∧ decode (.frame (Config.tag ++ [1#8, 0#8, 0#8, 0#8, 1#8, 0#8])) = .ok (.shiftReq 1 [1#8] [0#8]) := by decide
theorem witness_FrameOfABatchIsAWellFormedRequest :
    Inv (live 2 1 0x80#8 []) ∧ (live 2 1 0x80#8 []).isOpen = true ∧ 0 < (live 2 1 0x80#8 []).nbits :=
  ⟨inv_live _ _ _ _ (by decide) rfl (by decide), rfl, by decide⟩
theorem witness_BatchLengthFromTheCursor :
    Inv (live 2 1 0x80#8 []) ∧ 7 < 8 ∧ (live 2 1 0x80#8 []).bitMask = 0x01#8 <<< 7
      ∧ Inv (live 2 0 0x01#8 []) ∧ (live 2 0 0x01#8 []).bitMask = 0x01#8 <<< 0 :=
  ⟨inv_live _ _ _ _ (by decide) rfl (by decide), by decide, by decide,
    inv_live _ _ _ _ (by decide) rfl (by decide), by decide⟩
theorem witness_StatusOutputsShowTheRegisters : (live 1 0 0x01#8 []).cph = .idle
    ∧ ({ live 1 0 0x02#8 [] with cph := .flush, fph := .rx } : State).cph ≠ .idle := by decide
/-- A step in a stuck flush, and a clock with `rst = 1` while the frame's tag is being sent. -/
theorem witness_HardwareResetFromAnyState :
    ({ live 1 0 0x02#8 [] with cph := .flush, fph := .rx, host := [.reset] } : State).host = .reset :: []
      ∧ ∃ t : State, ({ serving with rst := true } : PortIn).rst = true
        ∧ clock { serving with rst := true } { live 1 0 0x02#8 [] with cph := .flush, fph := .tag } = .ok t
        ∧ t.cph = .idle ∧ t.tx = [] := ⟨rfl, _, rfl, rfl, rfl, rfl⟩
theorem witness_StepRunsTheDecodedCommand :
    (offered 0x3100000C#32 (live 1 0 0x01#8 [])).host = .command 0x3100000C#32 :: []
      ∧ (live 1 0 0x01#8 []).cph = .idle ∧ decodeWord 0x3100000C#32 = .ok (.wait true 12) := by decide
theorem witness_StepWaits : (live 1 0 0x01#8 []).host = []
    ∧ ({ offered 0x40000000#32 (live 1 0 0x02#8 []) with cph := .flush, fph := .rx } : State).host
        = .command 0x40000000#32 :: []
    ∧ ({ offered 0x40000000#32 (live 1 0 0x02#8 []) with cph := .flush, fph := .rx } : State).cph ≠ .idle := by
  decide
/-- Each clause of an illegal word, at its boundary. -/
theorem witness_IllegalWordChangesNothing :
    (∃ s : State, s.host = .command 0x00000000#32 :: [] ∧ s.cph = .idle)
      ∧ IllegalWord 0x00000000#32 ∧ IllegalWord 0x60000000#32 ∧ IllegalWord 0xF0000000#32
      ∧ IllegalWord 0x20000020#32 ∧ IllegalWord 0x28000000#32 ∧ IllegalWord 0x32000000#32
      ∧ IllegalWord 0x10000001#32 ∧ IllegalWord 0x48000000#32 ∧ IllegalWord 0x50000001#32 := by
  unfold IllegalWord
  refine ⟨⟨offered 0x00000000#32 (live 1 0 0x01#8 []), rfl, rfl⟩, ?_, ?_, ?_, ?_, ?_, ?_, ?_, ?_, ?_⟩ <;> decide
theorem witness_NoSessionChangesNothing : (State.resetAt 1).isOpen = false
    ∧ NeedsSession (.record true true true true true) ∧ NeedsSession (.wait false 0) ∧ NeedsSession .flush
    ∧ NeedsSession .shutdown := ⟨rfl, trivial, trivial, trivial, trivial⟩
/-- V26, V27: an illegal word with `OPEN` 0, a FLUSH with `OPEN` 0, and a FLUSH in a session, not refused. -/
theorem witness_DecoderRefuses :
    refusingStep (offered 0x20000020#32 (State.resetAt 1)) = .refused (.illegalCommand 0x20000020#32)
      ∧ refusingStep (offered 0x40000000#32 (State.resetAt 1)) = .refused (.noSession 0x40000000#32)
      ∧ (offered 0x40000000#32 (State.resetAt 1)).host = .command 0x40000000#32 :: []
      ∧ (State.resetAt 1).cph = .idle ∧ (State.resetAt 1).isOpen = false ∧ IllegalWord 0x20000020#32
      ∧ decodeWord 0x40000000#32 = .ok .flush ∧ NeedsSession .flush
      ∧ ∃ t, refusingStep (offered 0x40000000#32 (live 1 0 0x01#8 [])) = .next t :=
  ⟨rfl, rfl, rfl, rfl, rfl, by unfold IllegalWord; decide, rfl, trivial, _, rfl⟩
theorem witness_ShutdownIsFlushThenClose : ∃ t, (live 1 0 0x01#8 []).isOpen = true
    ∧ exec .flush (live 1 0 0x01#8 []) = .next t ∧ t.cph = .idle := ⟨_, rfl, rfl, rfl⟩
theorem witness_ShutdownWithNothingToSend :
    ((live 1 0 0x01#8 []).isOpen = true ∧ (live 1 0 0x01#8 []).nbits = 0)
      ∧ (failed.isOpen = true ∧ failed.err = true ∧ 0 < failed.nbits) := by decide
/-- The hypotheses of a flush that verifies, met by a state. -/
def Verifies (s : State) (arriving : List Byte) : Prop :=
  s.isOpen = true ∧ s.err = false ∧ 0 < s.nbits ∧ s.nbytes ≤ s.cap ∧ Memory.wf s.obs = true
    ∧ s.answers = .bytes arriving :: [] ∧ s.nbytes ≤ (s.rx ++ arriving).length
    ∧ (∀ i, i < s.nbytes →
        Memory.read s.tdoExp i = (s.rx ++ arriving).getD i 0#8 &&& Memory.read s.mask i)

theorem witness_FlushVerified : Verifies (compared (.bytes [0xFD#8])) [0xFD#8] := by
  unfold Verifies; decide
theorem witness_ShutdownDrainsThePendingBatch : Verifies (compared (.bytes [0x01#8])) [0x01#8] := by
  unfold Verifies; decide
theorem witness_FlushMismatch :
    (compared (.bytes [0xFE#8])).isOpen = true ∧ (compared (.bytes [0xFE#8])).err = false
      ∧ 0 < (compared (.bytes [0xFE#8])).nbits
      ∧ (compared (.bytes [0xFE#8])).nbytes ≤ (compared (.bytes [0xFE#8])).cap
      ∧ Memory.wf (compared (.bytes [0xFE#8])).obs = true
      ∧ (compared (.bytes [0xFE#8])).answers = .bytes [0xFE#8] :: []
      ∧ (compared (.bytes [0xFE#8])).nbytes ≤ ((compared (.bytes [0xFE#8])).rx ++ [0xFE#8]).length
      ∧ 0 < (compared (.bytes [0xFE#8])).nbytes
      ∧ Memory.read (compared (.bytes [0xFE#8])).tdoExp 0
          ≠ ((compared (.bytes [0xFE#8])).rx ++ [0xFE#8]).getD 0 0#8
            &&& Memory.read (compared (.bytes [0xFE#8])).mask 0 := by decide
theorem witness_FlushLinkFailure :
    (compared (.linkFail 7 [])).isOpen = true ∧ (compared (.linkFail 7 [])).err = false
      ∧ 0 < (compared (.linkFail 7 [])).nbits
      ∧ (compared (.linkFail 7 [])).nbytes ≤ (compared (.linkFail 7 [])).cap
      ∧ (compared (.linkFail 7 [])).answers = .linkFail 7 [] :: [] := by decide
/-- Both ways in which a flush never answers: the transport stops, or the response stays short. -/
theorem witness_FlushNeverAnswered :
    ((compared (.never 12)).isOpen = true ∧ (compared (.never 12)).err = false ∧ 0 < (compared (.never 12)).nbits
      ∧ (compared (.never 12)).nbytes ≤ (compared (.never 12)).cap
      ∧ (compared (.never 12)).answers = .never 12 :: [])
    ∧ ((compared (.bytes [])).answers = .bytes [] :: []
      ∧ ((compared (.bytes [])).rx ++ []).length < (compared (.bytes [])).nbytes) := by decide
/-- A first flush that answers `Ok`, and one that fails. -/
theorem witness_FlushTwice :
    (∃ t, exec .flush (compared (.bytes [0xFD#8])) = .next t
        ∧ t.responses = (compared (.bytes [0xFD#8])).responses ++ [((compared (.bytes [0xFD#8])).hid.cmd, .ok)])
      ∧ (∃ t, exec .flush (compared (.bytes [0xFE#8])) = .next t
        ∧ t.responses = (compared (.bytes [0xFE#8])).responses
            ++ [((compared (.bytes [0xFE#8])).hid.cmd, .verificationMismatch)]) :=
  ⟨⟨_, rfl, rfl⟩, ⟨_, rfl, rfl⟩⟩
theorem witness_FlushOfAnEmptyBatch : (live 1 0 0x01#8 []).isOpen = true ∧ (live 1 0 0x01#8 []).nbits = 0 := by
  decide
theorem witness_FlushInTheFailedState : failed.isOpen = true ∧ 0 < failed.nbits ∧ failed.err = true := by decide
theorem witness_RecordInTheFailedState : failed.isOpen = true ∧ failed.err = true := by decide
theorem witness_WaitInTheFailedState : failed.isOpen = true ∧ failed.err = true ∧ 0 < failed.nbits := by decide
theorem witness_ComparisonInspectsMaskedBitsOnly : 0x01#8 &&& ~~~0x03#8 = 0#8 := by decide
theorem witness_RecordStoresTheCycle :
    Inv (live 2 0 0x80#8 []) ∧ (live 2 0 0x80#8 []).isOpen = true ∧ (live 2 0 0x80#8 []).cph = .idle
      ∧ (live 2 0 0x80#8 []).err = false ∧ (live 2 0 0x80#8 []).atLastBit = false :=
  ⟨inv_live _ _ _ _ (by decide) rfl (by decide), rfl, rfl, rfl, rfl⟩
/-- At the last bit without `sync`, and with `sync` before it. -/
theorem witness_RecordFlushesItsOwnCycle :
    ((live 1 0 0x80#8 []).isOpen = true ∧ (live 1 0 0x80#8 []).err = false
      ∧ (live 1 0 0x80#8 []).byteIdx < (live 1 0 0x80#8 []).cap ∧ (live 1 0 0x80#8 []).atLastBit = true)
    ∧ ((live 1 0 0x01#8 []).byteIdx < (live 1 0 0x01#8 []).cap ∧ (live 1 0 0x01#8 []).atLastBit = false) := by
  decide
theorem witness_RecordThatFlushesVerified :
    Inv (live 1 0 0x80#8 [.bytes [0xAA#8]]) ∧ (live 1 0 0x80#8 [.bytes [0xAA#8]]).atLastBit = true
      ∧ ((live 1 0 0x80#8 [.bytes [0xAA#8]]).afterCycle true false true true).nbytes
          ≤ ((live 1 0 0x80#8 [.bytes [0xAA#8]]).rx ++ [0xAA#8]).length
      ∧ (∀ i, i < ((live 1 0 0x80#8 [.bytes [0xAA#8]]).afterCycle true false true true).nbytes →
          Memory.read ((live 1 0 0x80#8 [.bytes [0xAA#8]]).afterCycle true false true true).tdoExp i
            = ((live 1 0 0x80#8 [.bytes [0xAA#8]]).rx ++ [0xAA#8]).getD i 0#8
              &&& Memory.read ((live 1 0 0x80#8 [.bytes [0xAA#8]]).afterCycle true false true true).mask i) :=
  ⟨inv_live _ _ _ _ (by decide) rfl (by decide), rfl, by decide, by decide⟩
theorem witness_OverflowIsInvariantViolation :
    (live 1 1 0x01#8 []).isOpen = true ∧ (live 1 1 0x01#8 []).err = false
      ∧ (live 1 1 0x01#8 []).byteIdx = (live 1 1 0x01#8 []).cap := by decide
theorem witness_RecordAdvancesByOneOrEmpties :
    Inv (live 1 0 0x01#8 []) ∧ (live 1 0 0x01#8 []).isOpen = true ∧ (live 1 0 0x01#8 []).cph = .idle
      ∧ ∃ t, exec (.record true false false false false) (live 1 0 0x01#8 []) = .next t
        ∧ t.responses = (live 1 0 0x01#8 []).responses ++ [((live 1 0 0x01#8 []).hid.cmd, .ok)] :=
  ⟨inv_live _ _ _ _ (by decide) rfl (by decide), rfl, rfl, _, rfl, rfl⟩
theorem witness_ShiftRequestExchangesBytes :
    (live 1 0 0x01#8 [.bytes [0x9A#8]]).isOpen = true ∧ (live 1 0 0x01#8 [.bytes [0x9A#8]]).err = false
      ∧ ceil8 8 ≤ (live 1 0 0x01#8 [.bytes [0x9A#8]]).cap ∧ Memory.wf (live 1 0 0x01#8 [.bytes [0x9A#8]]).obs = true
      ∧ (live 1 0 0x01#8 [.bytes [0x9A#8]]).answers = .bytes [0x9A#8] :: []
      ∧ ceil8 8 ≤ ((live 1 0 0x01#8 [.bytes [0x9A#8]]).rx ++ [0x9A#8]).length := by decide
theorem witness_ShiftRequestLinkFailure :
    (live 1 0 0x01#8 [.linkFail 3 []]).isOpen = true ∧ (live 1 0 0x01#8 [.linkFail 3 []]).err = false
      ∧ ceil8 8 ≤ (live 1 0 0x01#8 [.linkFail 3 []]).cap
      ∧ (live 1 0 0x01#8 [.linkFail 3 []]).answers = .linkFail 3 [] :: [] := by decide
theorem witness_ShiftRequestOnlyInALiveSession : (State.resetAt 1).isOpen = false ∧ failed.err = true := by decide
theorem witness_WaitOfZeroCyclesIsFlush : ∃ t, (compared (.bytes [0xFD#8])).isOpen = true
    ∧ exec .flush (compared (.bytes [0xFD#8])) = .next t ∧ t.cph = .idle := ⟨_, rfl, rfl, rfl⟩
theorem witness_WaitRecordsOneIdleCycleAtATime :
    (live 1 0 0x40#8 []).isOpen = true ∧ (live 1 0 0x40#8 []).err = false
      ∧ (live 1 0 0x40#8 []).byteIdx < (live 1 0 0x40#8 []).cap ∧ (live 1 0 0x40#8 []).atLastBit = false := by decide
theorem witness_WaitAbortsAtAFailingFlush :
    (live 1 0 0x80#8 [.linkFail 7 []]).isOpen = true ∧ (live 1 0 0x80#8 [.linkFail 7 []]).err = false
      ∧ (live 1 0 0x80#8 [.linkFail 7 []]).byteIdx < (live 1 0 0x80#8 [.linkFail 7 []]).cap
      ∧ (live 1 0 0x80#8 [.linkFail 7 []]).atLastBit = true
      ∧ ∃ t, exec .flush ((live 1 0 0x80#8 [.linkFail 7 []]).afterCycle true false false false) = .next t
        ∧ t.err = true := ⟨rfl, rfl, by decide, rfl, _, rfl, rfl⟩
theorem witness_WaitNeverSetsMaskBits : ∃ t, exec (.wait true 1) (live 1 0 0x01#8 [.bytes [0xFF#8]]) = .next t
    ∧ (∀ i, Memory.read (live 1 0 0x01#8 [.bytes [0xFF#8]]).mask i = 0#8)
    ∧ (∀ i, Memory.read (live 1 0 0x01#8 [.bytes [0xFF#8]]).tdoExp i = 0#8) :=
  ⟨_, rfl, fun _ => rfl, fun _ => rfl⟩
theorem witness_WaitThatSucceedsDrains : ∃ t, (live 1 0 0x01#8 [.bytes [0xFF#8]]).isOpen = true
    ∧ exec (.wait true 1) (live 1 0 0x01#8 [.bytes [0xFF#8]]) = .next t
    ∧ t.responses = (live 1 0 0x01#8 [.bytes [0xFF#8]]).responses
        ++ [((live 1 0 0x01#8 [.bytes [0xFF#8]]).hid.cmd, .ok)] := ⟨_, rfl, rfl, rfl⟩
/-- Three bits pending and a WAIT of 15: two frames of 8 bits and one of 2 (R116). -/
theorem witness_WaitSendsItsFrames :
    Inv (live 1 0 0x08#8 [.bytes [1#8], .bytes [2#8], .bytes [3#8]])
      ∧ ([[1#8], [2#8]] : List (List Byte)).length = (3 + 15) / 8
      ∧ (live 1 0 0x08#8 []).nbits = 3 ∧ (live 1 0 0x08#8 []).capBits = 8
      ∧ ([[3#8]] : List (List Byte)).length = (if (3 + 15) % 8 = 0 then 0 else 1)
      ∧ (∀ r ∈ ([[3#8]] : List (List Byte)), r.length = ceil8 ((3 + 15) % 8))
      ∧ (live 1 0 0x08#8 [.bytes [1#8], .bytes [2#8], .bytes [3#8]]).answers
          = ([[1#8], [2#8]] ++ [[3#8]]).map Answer.bytes ++ []
      ∧ (∀ i, Memory.read (live 1 0 0x08#8 []).mask i = 0#8) :=
  ⟨inv_live _ _ _ _ (by decide) rfl (by decide), by decide, by decide, by decide, by decide, by decide, by decide,
    fun _ => rfl⟩
theorem witness_NoStepFaults : Inv (offered 0x2000001F#32 (live 1 0 0x80#8 [])) :=
  inv_offered (inv_live _ _ _ _ (by decide) rfl (by decide)) _
theorem witness_HistoriesOnlyGrow : ∃ t, step (offered 0x2000001F#32 (live 2 0 0x01#8 [.linkFail 3 []])) = .next t :=
  ⟨_, rfl⟩
/-- A whole frame, and a frame cut short. -/
theorem witness_TxHistoryIsFrames :
    Inv (offered 0x40000000#32 (live 1 0 0x08#8 [.bytes [0#8]]))
      ∧ (∃ t, step (offered 0x40000000#32 (live 1 0 0x08#8 [.bytes [0#8]])) = .next t ∧ t.tx.length = 12)
      ∧ Inv (offered 0x40000000#32 (live 1 0 0x08#8 [.linkFail 7 []]))
      ∧ (∃ t, step (offered 0x40000000#32 (live 1 0 0x08#8 [.linkFail 7 []])) = .next t ∧ t.tx.length = 7) :=
  ⟨inv_offered (inv_live _ _ _ _ (by decide) rfl (by decide)) _, ⟨_, rfl, rfl⟩,
    inv_offered (inv_live _ _ _ _ (by decide) rfl (by decide)) _, ⟨_, rfl, rfl⟩⟩
theorem witness_EveryStepKeepsTheInvariant :
    Inv (offered 0x40000000#32 (live 1 0 0x08#8 [.bytes [0#8]]))
      ∧ ∃ t, step (offered 0x40000000#32 (live 1 0 0x08#8 [.bytes [0#8]])) = .next t :=
  ⟨inv_offered (inv_live _ _ _ _ (by decide) rfl (by decide)) _, _, rfl⟩
/-- By SETUP and by hardware reset. -/
theorem witness_StickyErrorIsClearedBySetupOrResetOnly :
    (∃ t, step (offered 0x10000000#32 failed) = .next t ∧ failed.err = true ∧ t.err = false)
      ∧ (∃ t, step { failed with host := [.reset] } = .next t ∧ failed.err = true ∧ t.err = false) :=
  ⟨⟨_, rfl, rfl, rfl⟩, ⟨_, rfl, rfl, rfl⟩⟩
/-- By a mismatch and by a transport failure. -/
theorem witness_ErrorIsSetByAFailingFlushOnly :
    (∃ t, step (offered 0x40000000#32 (compared (.bytes [0xFE#8]))) = .next t ∧ t.err = true)
      ∧ (∃ t, step (offered 0x40000000#32 (compared (.linkFail 7 []))) = .next t ∧ t.err = true) :=
  ⟨⟨_, rfl, rfl⟩, ⟨_, rfl, rfl⟩⟩
/-- A RECORD, which keeps `OPEN`, and a SHUTDOWN, which clears it. -/
theorem witness_FailedStateIsFrozen :
    (∃ t, step (offered 0x2000001F#32 failed) = .next t ∧ (offered 0x2000001F#32 failed).err = true
      ∧ (offered 0x2000001F#32 failed).host = .command 0x2000001F#32 :: []
      ∧ decodeWord 0x2000001F#32 ≠ .ok .setup ∧ t.isOpen = failed.isOpen)
    ∧ (∃ t, step (offered 0x50000000#32 failed) = .next t ∧ (offered 0x50000000#32 failed).err = true
      ∧ decodeWord 0x50000000#32 ≠ .ok .setup ∧ failed.isOpen = true ∧ t.isOpen = false) :=
  ⟨⟨_, rfl, rfl, rfl, by decide, rfl⟩, ⟨_, rfl, rfl, by decide, rfl, rfl⟩⟩
/-- Into `NOSESSION`, into `ACTIVE` and into `FAILED`. -/
theorem witness_OperatingStatesAreEnteredAsStated :
    (∃ t, step (offered 0x50000000#32 (live 1 0 0x01#8 [])) = .next t ∧ t.operating = .noSession
        ∧ (live 1 0 0x01#8 []).operating = .active)
      ∧ (∃ t, step (offered 0x10000000#32 (State.resetAt 1)) = .next t ∧ t.operating = .active
        ∧ (State.resetAt 1).operating = .noSession)
      ∧ (∃ t, step (offered 0x40000000#32 (compared (.bytes [0xFE#8]))) = .next t ∧ t.operating = .failed
        ∧ (compared (.bytes [0xFE#8])).operating = .active) :=
  ⟨⟨_, rfl, rfl, rfl⟩, ⟨_, rfl, rfl, rfl⟩, ⟨_, rfl, rfl, rfl⟩⟩
theorem witness_CyclesAreSentOnceAndInOrder :
    Inv (offered 0x40000000#32 (live 1 0 0x08#8 [.bytes [0#8]]))
      ∧ decodeWord 0x40000000#32 = .ok .flush
      ∧ ∃ t, step (offered 0x40000000#32 (live 1 0 0x08#8 [.bytes [0#8]])) = .next t
        ∧ t.responses = (live 1 0 0x08#8 []).responses ++ [(0x40000000#32, .ok)] :=
  ⟨inv_offered (inv_live _ _ _ _ (by decide) rfl (by decide)) _, by decide, _, rfl, rfl⟩

/-- R133, the row from `F_VFY` to `F_CLR`: its action is none, so `FCTR` stays at `LEN_BYTES - 1`. -/
theorem test_clock_verify_keeps_counter :
    ({ live 2 1 0x02#8 [] with
        cph := .flush, fph := .vfy, hid := { Hidden.reset with fctr := 1, lenBytes := 2 } } : State).verifyPhase.fph = .clr
      ∧ ({ live 2 1 0x02#8 [] with
        cph := .flush, fph := .vfy, hid := { Hidden.reset with fctr := 1, lenBytes := 2 } } : State).verifyPhase.hid.fctr = 1 := by
  decide
/-- A failure after the tag and one count byte spells `LinkFail(7)`. -/
theorem test_clock_spells_failure :
    spelledAnswers ({ serving with cmdValid := true, cmdWord := 0x40000000#32 } :: List.replicate 7 serving
        ++ [{ serving with linkErr := true }]) (live 1 0 0x08#8 []) [] = [.linkFail 7 []] := by rfl
/-- A FLUSH of three cycles, clock by clock: 12 bytes out, one in, one compared, cleared, answered. -/
theorem witness_ClockedRunIsABigStep :
    Inv (live 1 0 0x08#8 []) ∧ (live 1 0 0x08#8 []).cph = .idle
      ∧ ∃ t, runClock ({ serving with cmdValid := true, cmdWord := 0x40000000#32 } :: List.replicate 17 serving)
            (live 1 0 0x08#8 []) = .ok t
        ∧ t.cph = .idle ∧ t.responses = [(0x40000000#32, .ok)]
        ∧ t.tx = [0x73#8, 0x68#8, 0x69#8, 0x66#8, 0x74#8, 0x3A#8, 0x03#8, 0#8, 0#8, 0#8, 0#8, 0#8]
        ∧ spelledAnswers ({ serving with cmdValid := true, cmdWord := 0x40000000#32 } :: List.replicate 17 serving)
            (live 1 0 0x08#8 []) [] = [.bytes [0#8]] :=
  ⟨inv_live _ _ _ _ (by decide) rfl (by decide), rfl, _, rfl, rfl, rfl, rfl, rfl⟩
theorem witness_BigStepIsAClockedRun :
    Inv (offered 0x40000000#32 (live 1 0 0x08#8 [.bytes [0#8]]))
      ∧ ∃ u, step (offered 0x40000000#32 (live 1 0 0x08#8 [.bytes [0#8]])) = .next u ∧ u.cph = .idle :=
  ⟨inv_offered (inv_live _ _ _ _ (by decide) rfl (by decide)) _, _, rfl, rfl⟩
theorem witness_TransportPhasesHold :
    ({ live 1 0 0x08#8 [] with cph := .flush, fph := .tag } : State).cph = .flush
      ∧ ({ serving with txReady := false } : PortIn).rst = false
      ∧ ({ serving with txReady := false } : PortIn).linkErr = false
      ∧ ({ live 1 0 0x08#8 [] with cph := .flush, fph := .rx } : State).fph = .rx
      ∧ ({ serving with rxValid := false } : PortIn).rxValid = false := by decide
theorem witness_LinkErrorIsSampledInIOPhasesOnly :
    ¬ ((live 1 0 0x08#8 []).cph = .flush
        ∧ ((live 1 0 0x08#8 []).fph = .tag ∨ (live 1 0 0x08#8 []).fph = .cnt ∨ (live 1 0 0x08#8 []).fph = .tms
          ∨ (live 1 0 0x08#8 []).fph = .tdi ∨ (live 1 0 0x08#8 []).fph = .rx)) := by decide

end Sys2Proof.Tests
end

section
/-! The invariant (spec/10_state.md R25) of every step: its parts that hold inside a running command
too, what each update does to them, and the procedures of the block. -/

namespace Sys2Proof.Machine

/-! ### The datapath -/

/-- The state without the command sequencer: the phases, the hidden registers and the command port of both
sides are at their reset values. -/
def State.datapath (s : State) : State :=
  { s with fph := .idle, cph := .idle, hid := Hidden.reset, host := [], responses := [], draws := 0 }

/-- What is read from the datapath alone is the same in two states with the same datapath. -/
theorem same_of_datapath {α : Type} {s t : State} (e : t.datapath = s.datapath) (f : State → α)
    (hf : ∀ v : State, f v.datapath = f v := by exact fun _ => rfl) : f t = f s := by
  rw [← hf t, e, hf s]

theorem plane_of_datapath {s t : State} (e : t.datapath = s.datapath) (p : Plane) :
    t.plane p = s.plane p :=
  same_of_datapath e (fun v => v.plane p) fun _ => by cases p <;> rfl

/-! ### The invariant in parts -/

/-- What `Inv` says of the capacity and of the storage arrays (R5, R11, R18). -/
structure StorageOk (s : State) : Prop where
  cap_pos : 1 ≤ s.cap
  cap_le : s.cap ≤ Config.maxCapBytes
  planes_wf : ∀ p, Memory.wf (s.plane p) = true
  planes_within : ∀ p, Memory.within s.cap (s.plane p) = true
  obs_wf : Memory.wf s.obs = true
  obs_within : Memory.within s.cap s.obs = true

/-- What `Inv` says of the cursor and of the pending batch (R12, R25 items 1 to 3). -/
structure BatchOk (s : State) : Prop where
  one_hot : oneHot s.bitMask = true
  in_range : s.byteIdx < s.cap ∨ (s.byteIdx = s.cap ∧ s.bitMask = 0x01#8)
  zero_beyond : s.isOpen = true → ∀ p k, s.nbits ≤ k → Memory.bitAt (s.plane p) k = false
  exp_in_mask : s.isOpen = true → ∀ i, Memory.read s.tdoExp i &&& ~~~(Memory.read s.mask i) = 0#8

/-- What `Inv` says of the error and diagnostic registers (R25 items 4 and 6). -/
structure ErrorOk (s : State) : Prop where
  err_pending : s.err = true → 0 < s.nbits
  err_kind : s.err = true ↔ s.errKind ≠ .none
  diag_kind : s.diagValid = true ↔ s.errKind = .verificationMismatch

/-- What `Inv` says between two updates of a running command: all of it but the room for the next
cycle, which a full batch has not until it is flushed (R91, R103), and the phases. -/
structure Sound (s : State) : Prop where
  storage : StorageOk s
  batch : BatchOk s
  error : ErrorOk s

variable {s t u : State}

theorem Inv.sound (h : Inv s) : Sound s :=
  ⟨⟨h.cap_pos, h.cap_le, h.planes_wf, h.planes_within, h.obs_wf, h.obs_within⟩,
    ⟨h.one_hot, h.in_range, h.zero_beyond, h.exp_in_mask⟩, ⟨h.err_pending, h.err_kind, h.diag_kind⟩⟩

theorem Inv.of_sound (h : Sound s) (room : s.cph = .idle → s.err = false → s.byteIdx < s.cap)
    (phases : (s.cph = .idle ∧ s.fph = .idle)
      ∨ (s.cph = .flush ∧ s.fph ≠ .idle ∧ s.isOpen = true ∧ s.err = false ∧ 0 < s.nbits)) : Inv s := by
  obtain ⟨hs, hb, he⟩ := h
  exact { hs, hb, he with room, phases }

/-- Between commands the flush is idle too (R25 item 7). -/
theorem Inv.fph_idle (h : Inv s) (hc : s.cph = .idle) : s.fph = .idle := by
  rcases h.phases with ⟨_, hf⟩ | ⟨hc', _⟩
  · exact hf
  · rw [hc] at hc'; cases hc'

theorem StorageOk.congr (h : StorageOk s) (hcap : t.cap = s.cap) (hplane : ∀ p, t.plane p = s.plane p)
    (hwf : Memory.wf t.obs = true) (hwithin : Memory.within s.cap t.obs = true) : StorageOk t where
  cap_pos := hcap ▸ h.cap_pos
  cap_le := hcap ▸ h.cap_le
  planes_wf p := hplane p ▸ h.planes_wf p
  planes_within p := by rw [hcap, hplane p]; exact h.planes_within p
  obs_wf := hwf
  obs_within := hcap ▸ hwithin

theorem BatchOk.congr (h : BatchOk s) (hcap : t.cap = s.cap) (hplane : ∀ p, t.plane p = s.plane p)
    (hidx : t.byteIdx = s.byteIdx) (hmask : t.bitMask = s.bitMask)
    (hopen : t.isOpen = true → s.isOpen = true) : BatchOk t where
  one_hot := hmask ▸ h.one_hot
  in_range := by rw [hcap, hidx, hmask]; exact h.in_range
  zero_beyond ho p k hk := by
    rw [hplane p]
    exact h.zero_beyond (hopen ho) p k (by simpa only [State.nbits, hidx, hmask] using hk)
  exp_in_mask ho i := by
    rw [show t.tdoExp = s.tdoExp from hplane .tdoExp, show t.mask = s.mask from hplane .mask]
    exact h.exp_in_mask (hopen ho) i

theorem ErrorOk.congr (h : ErrorOk s) (hpending : s.err = true → 0 < t.nbits) (herr : t.err = s.err)
    (hkind : t.errKind = s.errKind) (hdiag : t.diagValid = s.diagValid) : ErrorOk t where
  err_pending he := hpending (herr ▸ he)
  err_kind := by rw [herr, hkind]; exact h.err_kind
  diag_kind := by rw [hdiag, hkind]; exact h.diag_kind

/-- A batch of no cycles (R93). -/
theorem BatchOk.of_empty (hcap : 1 ≤ t.cap) (hplane : ∀ p, t.plane p = []) (hidx : t.byteIdx = 0)
    (hmask : t.bitMask = 0x01#8) : BatchOk t where
  one_hot := by rw [hmask]; rfl
  in_range := .inl (by omega)
  zero_beyond _ p k _ := by rw [hplane p, Memory.bitAt_nil]
  exp_in_mask _ i := by
    rw [show t.tdoExp = [] from hplane .tdoExp, Memory.read_nil, BitVec.zero_and]

/-- The error registers of a block that has not failed (R27, R171). -/
theorem ErrorOk.of_clear (herr : t.err = false) (hkind : t.errKind = .none) (hdiag : t.diagValid = false) :
    ErrorOk t := by
  constructor <;> simp [herr, hkind, hdiag]

/-! ### What the updates of the state do to it -/

theorem Memory.wf_free (n d slot : Nat) : Memory.wf (Memory.free n d slot) = true := Memory.wf_ofCells _

theorem Memory.within_free (n d slot : Nat) : Memory.within n (Memory.free n d slot) = true :=
  Memory.within_ofCells fun c hc => by simpa using (List.mem_filter.1 hc).2

theorem Sound.of_datapath (h : Sound s) (e : t.datapath = s.datapath) : Sound t := by
  have hcap := same_of_datapath e State.cap
  have hobs := same_of_datapath e State.obs
  have hplane := plane_of_datapath e
  have hopen := same_of_datapath e State.isOpen
  refine ⟨h.storage.congr hcap hplane ?_ ?_, h.batch.congr hcap hplane ?_ ?_ ?_, h.error.congr ?_ ?_ ?_ ?_⟩
  · rw [hobs]; exact h.storage.obs_wf
  · rw [hobs]; exact h.storage.obs_within
  · exact same_of_datapath e State.byteIdx
  · exact same_of_datapath e State.bitMask
  · rw [hopen]; exact id
  · rw [same_of_datapath e State.nbits]; exact h.error.err_pending
  · exact same_of_datapath e State.err
  · exact same_of_datapath e State.errKind
  · exact same_of_datapath e State.diagValid

theorem Sound.closeSession (h : Sound s) : Sound s.closeSession where
  storage := h.storage.congr rfl (by simp) h.storage.obs_wf h.storage.obs_within
  batch := h.batch.congr rfl (by simp) rfl rfl (by simp)
  error := h.error.congr h.error.err_pending rfl rfl rfl

theorem Sound.countCmps (h : Sound s) (k : Nat) : Sound (s.countCmps k) where
  storage := h.storage.congr rfl (by simp) h.storage.obs_wf h.storage.obs_within
  batch := h.batch.congr rfl (by simp) rfl rfl id
  error := h.error.congr h.error.err_pending rfl rfl rfl

theorem Sound.forgetObs (h : Sound s) : Sound s.forgetObs where
  storage := h.storage.congr rfl (by simp) (Memory.wf_free ..) (Memory.within_free ..)
  batch := h.batch.congr rfl (by simp) rfl rfl id
  error := h.error.congr h.error.err_pending rfl rfl rfl

theorem Sound.clearAndReset (h : Sound s) (he : s.err = false) : Sound s.clearAndReset where
  storage := { h.storage with
    planes_wf p := by rw [State.clearAndReset_plane]; rfl
    planes_within p := by rw [State.clearAndReset_plane]; rfl }
  batch := .of_empty h.storage.cap_pos (by simp) rfl rfl
  error := h.error.congr (by simp [he]) rfl rfl rfl

/-- A failure is latched with its kind, over a pending batch (R161, R168, R25 items 4 and 6). -/
theorem Sound.raise (h : Sound s) (he : s.err = false) (h0 : 0 < s.nbits) (f : Failure) :
    Sound (s.raise f) where
  storage := h.storage.congr (by simp) (by simp) (by simpa using h.storage.obs_wf)
    (by simpa using h.storage.obs_within)
  batch := h.batch.congr (by simp) (by simp) (by simp) (by simp) (by simp)
  error := by
    have hkind : s.errKind = .none := by simpa [he] using h.error.err_kind
    have hdiag : s.diagValid = false := by simpa [hkind] using h.error.diag_kind
    cases f <;> constructor <;> simp [Failure.kind, h0, hdiag]

theorem Sound.freshSession (h : Sound s) : Sound s.freshSession where
  storage := {
    cap_pos := h.storage.cap_pos
    cap_le := h.storage.cap_le
    planes_wf p := by rw [State.freshSession_plane]; rfl
    planes_within p := by rw [State.freshSession_plane]; rfl
    obs_wf := Memory.wf_free ..
    obs_within := Memory.within_free .. }
  batch := .of_empty h.storage.cap_pos (by simp) rfl rfl
  error := .of_clear rfl rfl rfl

/-- After hardware reset the arrays hold free values, within their bounds (R27). -/
theorem StorageOk.hardwareReset (h : StorageOk s) : StorageOk s.hardwareReset where
  cap_pos := h.cap_pos
  cap_le := h.cap_le
  planes_wf p := by cases p <;> exact Memory.wf_free ..
  planes_within p := by cases p <;> exact Memory.within_free ..
  obs_wf := Memory.wf_free ..
  obs_within := Memory.within_free ..

/-- After hardware reset no session holds the batch to R25 items 2 and 3. -/
theorem Sound.hardwareReset (h : Sound s) : Sound s.hardwareReset where
  storage := h.storage.hardwareReset
  batch := {
    one_hot := rfl
    in_range := .inl h.storage.cap_pos
    zero_beyond := by simp
    exp_in_mask := by simp }
  error := .of_clear rfl rfl rfl

/-! ### The recording of one cycle -/

/-- `TDO_EXP` within `MASK`, bit by bit. -/
theorem exp_in_mask_iff {e m : Memory} :
    (∀ i, Memory.read e i &&& ~~~(Memory.read m i) = 0#8) ↔
      ∀ k, Memory.bitAt e k = true → Memory.bitAt m k = true := by
  constructor
  · intro h k he
    have hbit := congrArg (fun b : Byte => b.getLsbD (k % 8)) (h (k / 8))
    have hk : k % 8 < 8 := by omega
    unfold Memory.bitAt at he ⊢
    simpa [he, hk] using hbit
  · intro h i
    apply BitVec.eq_of_getLsbD_eq
    intro k hk
    have hbit := h (8 * i + k)
    unfold Memory.bitAt at hbit
    rw [show (8 * i + k) / 8 = i by omega, show (8 * i + k) % 8 = k by omega] at hbit
    simpa [hk] using hbit

theorem State.afterCycle_bitMask (s : State) (a b c d : Bool) :
    (s.afterCycle a b c d).bitMask = s.moveCursor.bitMask := by
  simp [State.afterCycle_eq, State.moveCursor_bitMask]

theorem State.afterCycle_byteIdx (s : State) (a b c d : Bool) :
    (s.afterCycle a b c d).byteIdx = s.moveCursor.byteIdx := by
  simp [State.afterCycle_eq, State.moveCursor_byteIdx]

theorem BatchOk.afterCycle (hs : StorageOk s) (h : BatchOk s) (hr : s.byteIdx < s.cap) (a b c d : Bool) :
    BatchOk (s.afterCycle a b c d) where
  one_hot := by rw [State.afterCycle_bitMask]; exact State.oneHot_moveCursor h.one_hot
  in_range := by
    rw [State.afterCycle_bitMask, State.afterCycle_byteIdx, (s.afterCycle_frame a b c d).cap,
      State.moveCursor_bitMask, State.moveCursor_byteIdx]
    by_cases h8 : s.bitMask = 0x80#8
    · simp only [h8, if_true, and_true]; omega
    · simp only [h8, if_false]; exact .inl hr
  zero_beyond ho p k hk := by
    rw [State.nbits_afterCycle h.one_hot] at hk
    rw [(s.afterCycle_frame a b c d).isOpen] at ho
    rw [State.bitAt_afterCycle s a b c d p hs.planes_wf h.one_hot, h.zero_beyond ho p k (by omega),
      decide_eq_false (by omega : ¬ k = s.nbits)]
    rfl
  exp_in_mask ho := by
    rw [(s.afterCycle_frame a b c d).isOpen] at ho
    have hbits := exp_in_mask_iff.1 (h.exp_in_mask ho)
    refine exp_in_mask_iff.2 fun k => ?_
    have hexp := State.bitAt_afterCycle s a b c d .tdoExp hs.planes_wf h.one_hot k
    have hmask := State.bitAt_afterCycle s a b c d .mask hs.planes_wf h.one_hot k
    simp only [State.plane] at hexp hmask
    simp only [hexp, hmask, Bool.or_eq_true, Bool.and_eq_true, decide_eq_true_eq]
    rintro (he | ⟨hk, -, hd⟩)
    · exact .inl (hbits k he)
    · exact .inr ⟨hk, hd⟩

/-- Recording a cycle below capacity (R100, R102). -/
theorem Sound.afterCycle (h : Sound s) (he : s.err = false) (hr : s.byteIdx < s.cap) (a b c d : Bool) :
    Sound (s.afterCycle a b c d) := by
  have hf := s.afterCycle_frame a b c d
  obtain ⟨hs, hb, herr⟩ := h
  refine ⟨?_, hb.afterCycle hs hr a b c d, herr.congr (by simp [he]) hf.err hf.errKind hf.diagValid⟩
  exact {
    cap_pos := hf.cap ▸ hs.cap_pos
    cap_le := hf.cap ▸ hs.cap_le
    planes_wf := State.wf_afterCycle s a b c d hs.planes_wf
    planes_within := by rw [hf.cap]; exact State.within_afterCycle s a b c d hr hs.planes_within
    obs_wf := hf.obs ▸ hs.obs_wf
    obs_within := by rw [hf.cap, hf.obs]; exact hs.obs_within }

/-- A cycle that does not end the batch leaves room for the next one (R91). -/
theorem State.afterCycle_room (hr : s.byteIdx < s.cap) (hl : s.atLastBit = false) (a b c d : Bool) :
    (s.afterCycle a b c d).byteIdx < (s.afterCycle a b c d).cap := by
  rw [State.afterCycle_byteIdx, (s.afterCycle_frame a b c d).cap, State.moveCursor_byteIdx]
  split
  · next h8 =>
    have : s.byteIdx + 1 ≠ s.cap := by simpa [State.atLastBit, h8] using hl
    omega
  · exact hr

/-! ### The flush -/

/-- Whichever way the request of a flush ends, it leaves all but the streams, `OBS` and the phases. -/
theorem State.request_frame (hu : s.request = .received u ∨ s.request = .linkDown u ∨ s.request = .stalled u) :
    State.WireFrame s u := by
  rcases hu with hu | hu | hu
  · exact (State.exchange_received_frame hu).1
  · exact (State.exchange_linkDown_frame hu).1
  · exact (State.exchange_stalled_frame hu).1

/-- The response bytes stay within `OBS` (R18, R125). -/
theorem StorageOk.request_obs (h : StorageOk s) (hN : s.nbytes ≤ s.cap)
    (hu : s.request = .received u ∨ s.request = .linkDown u ∨ s.request = .stalled u) :
    Memory.wf u.obs = true ∧ Memory.within s.cap u.obs = true := by
  have write : ∀ bs : List Byte, bs.length ≤ s.nbytes → Memory.wf (Memory.writeRange s.obs 0 bs) = true
      ∧ Memory.within s.cap (Memory.writeRange s.obs 0 bs) = true := fun bs hl =>
    ⟨Memory.wf_writeRange h.obs_wf _ _, Memory.within_writeRange h.obs_within (by omega)⟩
  rcases hu with hu | hu | hu
  · obtain ⟨_, _, _, rfl⟩ := State.exchange_received hu
    rw [State.onWire_obs]; exact write _ (List.length_take_le _ _)
  · obtain ⟨_, _, _, rfl⟩ := State.exchange_linkDown hu
    rw [State.onWire_obs]; exact ⟨h.obs_wf, h.obs_within⟩
  · rcases State.exchange_stalled hu with ⟨_, _, rfl⟩ | ⟨_, _, hl, rfl⟩ <;>
      rw [State.stuckIn_obs, State.onWire_obs]
    · exact ⟨h.obs_wf, h.obs_within⟩
    · exact write _ (le_of_lt hl)

theorem Sound.request (h : Sound s) (hN : s.nbytes ≤ s.cap)
    (hu : s.request = .received u ∨ s.request = .linkDown u ∨ s.request = .stalled u) : Sound u := by
  have hf := State.request_frame hu
  obtain ⟨hwf, hwithin⟩ := h.storage.request_obs hN hu
  exact ⟨h.storage.congr hf.cap hf.plane hwf hwithin,
    h.batch.congr hf.cap hf.plane hf.byteIdx hf.bitMask (hf.isOpen ▸ id),
    h.error.congr (by rw [hf.nbits]; exact h.error.err_pending) hf.err hf.errKind hf.diagValid⟩

/-! ### The procedures of the block -/

/-- A state of a running command between two procedures, or at its end. -/
structure Live (s : State) : Prop where
  inv : Inv s
  isOpen : s.isOpen = true
  cph : s.cph = .idle

theorem Live.sound (h : Live s) : Sound s := h.inv.sound
theorem Live.fph (h : Live s) : s.fph = .idle := h.inv.fph_idle h.cph
theorem Live.room (h : Live s) (he : s.err = false) : s.byteIdx < s.cap := h.inv.room h.cph he

theorem Live.of_sound (h : Sound s) (ho : s.isOpen = true) (hc : s.cph = .idle) (hf : s.fph = .idle)
    (hr : s.err = false → s.byteIdx < s.cap) : Live s :=
  ⟨.of_sound h (fun _ => hr) (.inl ⟨hc, hf⟩), ho, hc⟩

/-- The procedure ends with `Inv`, and where it returns the command can go on or end. -/
def Ran.KeepsInv : Ran → Prop
  | .done _ t => Live t
  | .hung t => Inv t
  | .bad _ => True

/-- A flush restores the invariant from a full batch too (R103, R129). -/
theorem Sound.flush (h : Sound s) (ho : s.isOpen = true) (hc : s.cph = .idle) (hf : s.fph = .idle) :
    s.flush.KeepsInv := by
  cases hr : s.flush with
  | bad f => trivial
  | hung t =>
    obtain ⟨h0, he, hN, hq⟩ := State.flush_hung hr
    obtain ⟨hw, hcph, hfph⟩ := State.exchange_stalled_frame hq
    exact .of_sound (h.request hN (.inr (.inr hq))) (by simp [hcph])
      (.inr ⟨hcph, hfph, hw.isOpen.trans ho, hw.err.trans he, hw.nbits.symm ▸ h0⟩)
  | done st t =>
    rcases State.flush_done hr with ⟨h0, _, rfl⟩ | ⟨_, he, _, rfl⟩ | ⟨h0, he, hN, u, hq, i, _, _, rfl⟩
      | ⟨_, he, hN, u, hq, _, _, rfl⟩ | ⟨h0, he, hN, u, hq, _, rfl⟩
    · have hidx := ((State.nbits_eq_zero h.batch.one_hot).1 h0).1
      exact .of_sound h ho hc hf fun _ => by have := h.storage.cap_pos; omega
    · exact .of_sound h ho hc hf (by simp [he])
    · obtain ⟨hw, hcph, hfph⟩ := State.exchange_received_frame hq
      have hs := ((h.request hN (.inl hq)).countCmps (i + 1)).raise (hw.err.trans he)
        (hw.nbits.symm ▸ h0) (u.mismatchAt i)
      exact .of_sound hs.forgetObs (by simp [hw.isOpen, ho]) (by simp [hcph, hc]) (by simp [hfph, hf]) (by simp)
    · obtain ⟨hw, hcph, hfph⟩ := State.exchange_received_frame hq
      have hs := ((h.request hN (.inl hq)).countCmps s.nbytes).clearAndReset (hw.err.trans he)
      exact .of_sound hs.forgetObs (by simp [hw.isOpen, ho]) (by simp [hcph, hc]) (by simp [hfph, hf])
        fun _ => hs.storage.cap_pos
    · obtain ⟨hw, hcph, hfph⟩ := State.exchange_linkDown_frame hq
      have hs := (h.request hN (.inr (.inl hq))).raise (hw.err.trans he) (hw.nbits.symm ▸ h0) .connectivity
      exact .of_sound hs.forgetObs (by simp [hw.isOpen, ho]) (by simp [hcph, hc]) (by simp [hfph, hf]) (by simp)

theorem Live.flush (h : Live s) : s.flush.KeepsInv := h.sound.flush h.isOpen h.cph h.fph

theorem Live.setWcnt (h : Live s) (k : Nat) : Live (s.setWcnt k) :=
  .of_sound (h.sound.of_datapath rfl) h.isOpen h.cph h.fph h.room

theorem Live.enterWait (h : Live s) (k : Nat) : Live (s.enterWait k) :=
  .of_sound (h.sound.of_datapath rfl) h.isOpen h.cph h.fph h.room

theorem Live.recordCycle (h : Live s) (a b c d e : Bool) : (s.recordCycle a b c d e).KeepsInv := by
  have hf := s.afterCycle_frame a b c d
  rcases s.recordCycle_cases a b c d e with ⟨_, hr⟩ | ⟨_, _, hr⟩ | ⟨he, hlt, _, hr⟩ | ⟨he, hlt, hl, _, hr⟩
    <;> rw [hr]
  · exact h
  · trivial
  · exact (h.sound.afterCycle he hlt a b c d).flush (hf.isOpen.trans h.isOpen) (hf.cph.trans h.cph)
      (hf.fph.trans h.fph)
  · exact .of_sound (h.sound.afterCycle he hlt a b c d) (hf.isOpen.trans h.isOpen) (hf.cph.trans h.cph)
      (hf.fph.trans h.fph) fun _ => State.afterCycle_room hlt hl a b c d

theorem Live.idleCycles (h : Live s) (tms : Bool) (n : Nat) : (s.idleCycles tms n).KeepsInv := by
  induction n generalizing s with
  | zero => exact h
  | succ n ih =>
    have hr := (h.setWcnt n).recordCycle tms false false false false
    unfold State.idleCycles
    split
    · next t ht => rw [ht] at hr; exact ih hr
    · exact hr

theorem Live.waitBody (h : Live s) (tms : Bool) (n : Nat) : (s.waitBody tms n).KeepsInv := by
  have hi := (h.enterWait n).idleCycles tms n
  unfold State.waitBody
  cases hr : (s.enterWait n).idleCycles tms n <;> rw [hr] at hi
  case done first t =>
    have hflush := hi.flush
    dsimp only
    cases hr' : t.flush <;> rw [hr'] at hflush <;> exact hflush
  case hung t => exact hi
  case bad f => trivial

/-! ### The step -/

/-- A status to the host ends the command in an idle block (R60, R25 item 7). -/
theorem Inv.respond (h : Inv s) (hc : s.cph = .idle) (st : Status) : Inv (s.respond st) :=
  .of_sound (h.sound.of_datapath rfl) (fun _ => h.room hc) (.inl ⟨rfl, rfl⟩)

theorem Inv.closeSession (h : Inv s) (hc : s.cph = .idle) : Inv s.closeSession :=
  .of_sound h.sound.closeSession (fun _ => h.room hc) (.inl ⟨hc, h.fph_idle hc⟩)

theorem Inv.accept (h : Inv s) (hc : s.cph = .idle) (w : Word) : Inv (s.accept w) :=
  .of_sound (h.sound.of_datapath rfl) (fun _ => h.room hc) (.inl ⟨hc, h.fph_idle hc⟩)

theorem Inv.freshSession (h : Inv s) (hc : s.cph = .idle) : Inv s.freshSession :=
  .of_sound h.sound.freshSession (fun _ _ => h.cap_pos) (.inl ⟨hc, h.fph_idle hc⟩)

theorem Inv.hardwareReset (h : Inv s) : Inv s.popHost.hardwareReset :=
  .of_sound (h.sound.of_datapath (t := s.popHost) rfl).hardwareReset (fun _ _ => h.cap_pos) (.inl ⟨rfl, rfl⟩)

/-- Where a procedure ends with `Inv`, so does its command. -/
theorem Ran.KeepsInv.outcome {r : Ran} (h : r.KeepsInv) (ht : r.outcome = .next t) : Inv t := by
  rcases Ran.outcome_next ht with ⟨st, u, rfl, rfl⟩ | rfl
  · exact h.inv.respond h.cph st
  · exact h

/-- Every command of a session keeps the invariant. -/
theorem Live.body (h : Live s) {i : Instr} (hi : i ≠ .setup) (ht : (s.body i).outcome = .next t) : Inv t := by
  cases i with
  | setup => exact absurd rfl hi
  | record a b c d e => exact (h.recordCycle a b c d e).outcome ht
  | wait a n => exact (h.waitBody a n).outcome ht
  | flush => exact h.flush.outcome ht
  | shiftReq n a b => exact Ran.KeepsInv.outcome (r := .done .ok s) h ht
  | shutdown =>
    have hf := h.flush
    unfold State.body at ht
    cases hr : s.flush <;> rw [hr] at hf ht
    case done st u =>
      cases ht
      exact (hf.inv.closeSession hf.cph).respond hf.cph st
    case hung u => exact hf.outcome ht
    case bad f => cases ht

/-- Settles O45: hardware reset and SETUP build the invariant anew, an illegal word and a command
without a session only answer, and in a session every procedure keeps it. -/
theorem everyStepKeepsTheInvariant : Obligations.EveryStepKeepsTheInvariant := by
  intro s t h hstep
  rcases step_cases hstep with rfl | ⟨_, _, rfl⟩ | ⟨w, _, _, hc, ⟨i, hd, hex⟩ | ⟨_, _, rfl⟩⟩
  · exact h
  · exact h.hardwareReset
  · have ha := h.accept hc w
    rcases exec_cases hd hex with ⟨_, rfl⟩ | ⟨_, _, rfl⟩ | ⟨hi, ho, hrun⟩
    · exact (ha.freshSession hc).respond hc .ok
    · exact ha.respond hc .noSession
    · have hlive : Live (s.accept w) := ⟨ha, ho, hc⟩
      refine hlive.body hi ?_
      rcases hrun with ⟨st, u, hb, rfl⟩ | hb <;> rw [hb] <;> rfl
  · exact (h.accept hc w).respond hc .illegalCommand

end Sys2Proof.Machine
end

section
/-! What every step keeps of the error registers and of the histories (spec/10_state.md R15, R23, R28),
each as a relation that every update of a running command respects. -/

namespace Sys2Proof.Machine

variable {s t : State}

/-- The procedure of a command respects the relation. -/
theorem Closed.body {P : State → State → Prop} (h : Closed P) {i : Instr} (hi : i ≠ .setup)
    (hclose : i = .shutdown → ∀ s, P s s.closeSession) (s : State) : Ends (P s) (s.body i) := by
  cases i with
  | setup => exact absurd rfl hi
  | record a b c d e => exact h.record s a b c d e
  | wait a n => exact h.wait s a n
  | flush => exact h.flush s
  | shiftReq n a b => exact h.refl s
  | shutdown =>
    have hf := h.flush s
    unfold State.body
    cases hr : s.flush <;> rw [hr] at hf
    case done st t => exact h.trans hf (hclose rfl t)
    case hung t => exact hf
    case bad f => trivial

theorem Ends.done {P : State → Prop} {r : Ran} {st : Status} (h : Ends P r) (hr : r = .done st t) : P t := by
  subst hr; exact h

theorem Ends.hung {P : State → Prop} {r : Ran} (h : Ends P r) (hr : r = .hung t) : P t := by
  subst hr; exact h

/-! ### The histories -/

/-- A running command leaves the capacity, the statuses and its command word, and takes back no byte sent
and no event (R28). -/
structure Grows (s t : State) : Prop where
  cap : t.cap = s.cap
  responses : t.responses = s.responses
  cmd : t.hid.cmd = s.hid.cmd
  tx : s.tx <+: t.tx
  events : s.events <+: t.events

theorem Grows.of_same (hcap : t.cap = s.cap) (hresp : t.responses = s.responses)
    (hcmd : t.hid.cmd = s.hid.cmd) (htx : t.tx = s.tx) (hevents : t.events = s.events) : Grows s t :=
  ⟨hcap, hresp, hcmd, by simp [htx], by simp [hevents]⟩

theorem Grows.trans {a b c : State} (h : Grows a b) (h' : Grows b c) : Grows a c :=
  ⟨h'.cap.trans h.cap, h'.responses.trans h.responses, h'.cmd.trans h.cmd, h.tx.trans h'.tx,
    h.events.trans h'.events⟩

theorem State.request_tx (hu : s.request = .received t ∨ s.request = .linkDown t ∨ s.request = .stalled t) :
    s.tx <+: t.tx := by
  rcases hu with hu | hu | hu
  · obtain ⟨_, _, _, rfl⟩ := State.exchange_received hu
    simp
  · obtain ⟨_, _, _, rfl⟩ := State.exchange_linkDown hu
    simp
  · rcases State.exchange_stalled hu with ⟨_, _, rfl⟩ | ⟨_, _, _, rfl⟩ <;> simp

theorem State.raise_events (s : State) (f : Failure) : s.events <+: (s.raise f).events := by
  cases f <;> simp

theorem closed_grows : Closed Grows where
  refl _ := .of_same rfl rfl rfl rfl rfl
  trans := Grows.trans
  recv _ _ hu := by
    have hf := State.request_frame hu
    exact ⟨hf.cap, hf.responses, hf.cmd, State.request_tx hu, by simp [hf.events]⟩
  mism s i _ := ⟨by simp, by simp, by simp, by simp, State.raise_events (s.countCmps (i + 1)) _⟩
  ok _ _ _ := .of_same rfl rfl rfl rfl rfl
  link _ _ := .of_same rfl rfl rfl rfl rfl
  after s a b c d _ := by
    have hf := s.afterCycle_frame a b c d
    exact .of_same hf.cap hf.responses (by rw [hf.hid]) hf.tx hf.events
  wcnt _ _ := .of_same rfl rfl rfl rfl rfl
  enter _ _ := .of_same rfl rfl rfl rfl rfl

theorem Grows.body {i : Instr} (hi : i ≠ .setup) (s : State) : Ends (Grows s) (s.body i) :=
  closed_grows.body hi (fun _ _ => .of_same rfl rfl rfl rfl rfl) s

/-- Settles O51: a command grows the histories while it runs and gives one status at its end. -/
theorem historiesOnlyGrow : Obligations.HistoriesOnlyGrow := by
  intro s t hstep
  rcases step_cases hstep with rfl | ⟨_, _, rfl⟩ | ⟨w, _, _, _, ⟨i, hd, hex⟩ | ⟨_, _, rfl⟩⟩
  · simp
  · simp
  · rcases exec_cases hd hex with ⟨_, rfl⟩ | ⟨_, _, rfl⟩ | ⟨hi, _, ⟨st, u, hb, rfl⟩ | hb⟩
    · simp
    · simp
    · have hg := (Grows.body hi _).done hb
      exact ⟨hg.cap, hg.tx, hg.events, by simp [hg.responses], by simp [hg.responses]⟩
    · have hg := (Grows.body hi _).hung hb
      exact ⟨hg.cap, hg.tx, hg.events, by simp [hg.responses], by simp [hg.responses]⟩
  · simp

/-! ### The failed state -/

/-- In the failed state no procedure changes the datapath (R23, R101, R122). -/
theorem closed_frozen : Closed fun s t => s.err = true → t.datapath = s.datapath where
  refl _ _ := rfl
  trans h h' he := by
    have e := h he
    exact (h' ((same_of_datapath e State.err).trans he)).trans e
  recv he _ _ he' := by simp [he] at he'
  mism s _ he he' := by simp [he] at he'
  ok s _ he he' := by simp [he] at he'
  link s he he' := by simp [he] at he'
  after s _ _ _ _ he he' := by simp [he] at he'
  wcnt _ _ _ := rfl
  enter _ _ _ := rfl

/-- A flush in the failed state changes nothing (R121, R122). -/
theorem State.flush_failed (he : s.err = true) : ∃ st, s.flush = .done st s := by
  unfold State.flush
  rw [he]
  split <;> exact ⟨_, rfl⟩

/-- SHUTDOWN in the failed state closes the session and does nothing else (R122, R151). -/
theorem State.body_shutdown_failed (he : s.err = true) :
    ∃ st, s.body .shutdown = .done st s.closeSession := by
  obtain ⟨st, hf⟩ := State.flush_failed he
  exact ⟨st, by simp only [State.body, hf]⟩

/-- Everything a command other than SETUP does in the failed state (R23, R151). -/
theorem exec_failed {w : Word} {i : Instr} (hd : decodeWord w = .ok i) (hi : i ≠ .setup)
    (he : s.err = true) (h : exec i s = .next t) :
    t.datapath = s.datapath ∨ (i = .shutdown ∧ t.datapath = s.closeSession.datapath) := by
  rcases exec_cases hd h with ⟨hi', _⟩ | ⟨_, _, rfl⟩ | ⟨_, _, hrun⟩
  · exact absurd hi' hi
  · exact .inl rfl
  · by_cases hs : i = .shutdown
    · subst hs
      obtain ⟨st, hb⟩ := State.body_shutdown_failed he
      rw [hb] at hrun
      rcases hrun with ⟨_, _, hu, rfl⟩ | hu <;> cases hu
      exact .inr ⟨rfl, rfl⟩
    · have hb := closed_frozen.body hi (fun h => absurd h hs) s
      rcases hrun with ⟨st, u, hu, rfl⟩ | hu
      · exact .inl (show u.datapath = s.datapath from hb.done hu he)
      · exact .inl (hb.hung hu he)

/-- Everything a step does in the failed state: the two ways out of it, or nothing to the datapath but the
end of the session (R15, R23). -/
theorem step_failed (h : step s = .next t) (he : s.err = true) :
    (∃ later, s.host = .reset :: later) ∨
    (∃ w later, s.host = .command w :: later ∧ s.cph = .idle ∧ decodeWord w = .ok .setup) ∨
    t.datapath = s.datapath ∨
    ((∃ w later, s.host = .command w :: later ∧ decodeWord w = .ok .shutdown)
      ∧ t.datapath = s.closeSession.datapath) := by
  rcases step_cases h with rfl | ⟨l, hh, _⟩ | ⟨w, l, hh, hc, ⟨i, hd, hex⟩ | ⟨_, _, rfl⟩⟩
  · exact .inr (.inr (.inl rfl))
  · exact .inl ⟨l, hh⟩
  · by_cases hi : i = .setup
    · subst hi; exact .inr (.inl ⟨w, l, hh, hc, hd⟩)
    · rcases exec_failed hd hi (s := s.accept w) he hex with e | ⟨rfl, e⟩
      · exact .inr (.inr (.inl e))
      · exact .inr (.inr (.inr ⟨⟨w, l, hh, hd⟩, e⟩))
  · exact .inr (.inr (.inl rfl))

/-- Settles O47: in the failed state a step takes one of the two ways out or leaves `ERR` with the datapath. -/
theorem stickyErrorIsClearedBySetupOrResetOnly : Obligations.StickyErrorIsClearedBySetupOrResetOnly := by
  intro s t hstep he ht
  rcases step_failed hstep he with hreset | hsetup | e | ⟨_, e⟩
  · exact .inl hreset
  · exact .inr hsetup
  · rw [same_of_datapath e State.err, he] at ht; cases ht
  · rw [same_of_datapath e State.err, State.closeSession_err, he] at ht; cases ht

/-- What the same datapath means, register by register. -/
theorem frozen_of_datapath (e : t.datapath = s.datapath) :
    SamePlanes s t ∧ SameCursor s t ∧ SameErr s t ∧ SameDiag s t ∧ NoIO s t ∧ t.cap = s.cap := by
  exact ⟨fun p i => by rw [plane_of_datapath e p],
    ⟨same_of_datapath e State.byteIdx, same_of_datapath e State.bitMask⟩,
    ⟨same_of_datapath e State.err, same_of_datapath e State.errKind⟩,
    ⟨same_of_datapath e State.diagValid, same_of_datapath e State.diagIndex,
      same_of_datapath e State.diagObs, same_of_datapath e State.diagMask,
      same_of_datapath e State.diagExp, same_of_datapath e State.events⟩,
    ⟨same_of_datapath e State.tx, same_of_datapath e State.rx, same_of_datapath e State.answers,
      same_of_datapath e State.cmps⟩, same_of_datapath e State.cap⟩

/-- Settles O49: without the two ways out only SHUTDOWN changes the datapath, and there only `OPEN`. -/
theorem failedStateIsFrozen : Obligations.FailedStateIsFrozen := by
  intro s t hstep he hreset hsetup
  rcases step_failed hstep he with ⟨l, hh⟩ | ⟨w, l, hh, _, hd⟩ | e | ⟨hw, e⟩
  · exact absurd hh (hreset l)
  · exact absurd hd (hsetup w l hh)
  · obtain ⟨hp, hc, herr, hdiag, hio, hcap⟩ := frozen_of_datapath e
    exact ⟨hp, hc, herr, hdiag, hio, hcap, .inl (same_of_datapath e State.isOpen)⟩
  · obtain ⟨hp, hc, herr, hdiag, hio, hcap⟩ := frozen_of_datapath e
    refine ⟨fun p i => ?_, hc, herr, hdiag, hio, hcap, .inr ⟨same_of_datapath e State.isOpen, hw⟩⟩
    rw [hp p i, State.closeSession_plane]

/-! ### The entry into the failed state -/

/-- The status and the error registers at the end of a procedure that began without a failure agree: `Ok`
without one, or the status and the kind of the failure (R160, R161). -/
def Reports (st : Status) (t : State) : Prop :=
  (t.err = false ∧ st = .ok) ∨ ∃ f : Failure, t.err = true ∧ st = f.status ∧ t.errKind = f.kind

/-- The procedure ends so; where it never returns it has not failed (R199). -/
def Ran.Reports : Ran → Prop
  | .done st t => Machine.Reports st t
  | .hung t => t.err = false
  | .bad _ => True

theorem Failure.status_ne_ok (f : Failure) : f.status ≠ .ok := by cases f <;> simp [Failure.status]

theorem Reports.err_of_ok (h : Reports .ok t) : t.err = false := by
  rcases h with ⟨he, _⟩ | ⟨f, _, hst, _⟩
  · exact he
  · exact absurd hst.symm f.status_ne_ok

theorem State.flush_reports (he : s.err = false) : s.flush.Reports := by
  cases hr : s.flush with
  | bad f => trivial
  | hung t =>
    obtain ⟨_, _, _, hq⟩ := State.flush_hung hr
    exact (State.exchange_stalled_frame hq).1.err.trans he
  | done st t =>
    rcases State.flush_done hr with ⟨_, rfl, rfl⟩ | ⟨_, he', _⟩ | ⟨_, _, _, u, _, i, _, rfl, rfl⟩
      | ⟨_, _, _, u, hq, _, rfl, rfl⟩ | ⟨_, _, _, u, _, rfl, rfl⟩
    · exact .inl ⟨he, rfl⟩
    · rw [he] at he'; cases he'
    · exact .inr ⟨u.mismatchAt i, by simp, rfl, rfl⟩
    · exact .inl ⟨(State.exchange_received_frame hq).1.err.trans he, rfl⟩
    · exact .inr ⟨.connectivity, rfl, rfl, rfl⟩

theorem State.recordCycle_reports (he : s.err = false) (a b c d e : Bool) : (s.recordCycle a b c d e).Reports := by
  have herr := (s.afterCycle_frame a b c d).err.trans he
  rcases s.recordCycle_cases a b c d e with ⟨he', _⟩ | ⟨_, _, hr⟩ | ⟨_, _, _, hr⟩ | ⟨_, _, _, _, hr⟩
  · rw [he] at he'; cases he'
  · rw [hr]; trivial
  · rw [hr]; exact State.flush_reports herr
  · rw [hr]; exact .inl ⟨herr, rfl⟩

theorem State.idleCycles_reports (he : s.err = false) (tms : Bool) (n : Nat) : (s.idleCycles tms n).Reports := by
  induction n generalizing s with
  | zero => exact .inl ⟨he, rfl⟩
  | succ n ih =>
    have hr := State.recordCycle_reports (s := s.setWcnt n) he tms false false false false
    unfold State.idleCycles
    split
    · next t ht => rw [ht] at hr; exact ih (Reports.err_of_ok hr)
    · exact hr

/-- The trailing flush of WAIT fails after idle cycles that did not, or finds their failure (R114). -/
theorem State.waitBody_reports (he : s.err = false) (tms : Bool) (n : Nat) : (s.waitBody tms n).Reports := by
  have hi := State.idleCycles_reports (s := s.enterWait n) he tms n
  unfold State.waitBody
  cases hr : (s.enterWait n).idleCycles tms n <;> rw [hr] at hi
  case bad f => trivial
  case hung t => exact hi
  case done first t =>
    rcases hi with ⟨ht, rfl⟩ | ⟨f, ht, rfl, hk⟩
    · have hf := State.flush_reports ht
      dsimp only
      cases hr' : t.flush <;> rw [hr'] at hf <;> exact hf
    · obtain ⟨st, hf⟩ := State.flush_failed ht
      simp only [hf, f.status_ne_ok, if_false]
      exact .inr ⟨f, ht, rfl, hk⟩

theorem State.body_reports (he : s.err = false) {i : Instr} (hi : i ≠ .setup) : (s.body i).Reports := by
  cases i with
  | setup => exact absurd rfl hi
  | record a b c d e => exact State.recordCycle_reports he a b c d e
  | wait a n => exact State.waitBody_reports he a n
  | flush => exact State.flush_reports he
  | shiftReq n a b => exact .inl ⟨he, rfl⟩
  | shutdown =>
    have hf := State.flush_reports he
    unfold State.body
    cases hr : s.flush <;> rw [hr] at hf <;> exact hf

/-- Settles O48: a step sets `ERR` by a procedure that failed, and its status and `ERR_KIND` are the
failure's. -/
theorem errorIsSetByAFailingFlushOnly : Obligations.ErrorIsSetByAFailingFlushOnly := by
  intro s t hstep he ht
  rcases step_cases hstep with rfl | ⟨_, _, rfl⟩ | ⟨w, _, _, _, ⟨i, hd, hex⟩ | ⟨_, _, rfl⟩⟩
  · rw [he] at ht; cases ht
  · cases ht
  · rcases exec_cases hd hex with ⟨_, rfl⟩ | ⟨_, _, rfl⟩ | ⟨hi, _, ⟨st, u, hb, rfl⟩ | hb⟩
    · cases ht
    · rw [State.respond_err, State.accept_err, he] at ht; cases ht
    · have hr := State.body_reports (s := s.accept w) he hi
      have hg := (Grows.body hi _).done hb
      rw [hb] at hr
      rcases hr with ⟨hu, _⟩ | ⟨f, _, rfl, hk⟩
      · rw [State.respond_err, hu] at ht; cases ht
      · refine ⟨w, ?_⟩
        rw [State.respond_responses, State.respond_errKind, hg.responses, hg.cmd, hk]
        cases f
        · exact .inl ⟨rfl, rfl⟩
        · exact .inr ⟨rfl, rfl⟩
    · have hr := State.body_reports (s := s.accept w) he hi
      rw [hb] at hr
      have : t.err = false := hr
      rw [this] at ht; cases ht
  · rw [State.respond_err, State.accept_err, he] at ht; cases ht

end Sys2Proof.Machine
end

section
/-! The cursor, RECORD's count, the reset state and the status outputs (spec/10_state.md R14, R21, R27,
R29), and the gate of the shift request (log 4). -/

namespace Sys2Proof.Machine

variable {s t : State}

/-! ### The cursor -/

theorem bitpos_shiftLeft {k : Nat} (hk : k < 8) : bitpos (0x01#8 <<< k) = k := by
  interval_cases k <;> rfl

/-- `N` is the number of whole bytes and of one begun (R14). -/
theorem State.nbytes_eq (h : oneHot s.bitMask = true) :
    s.nbytes = s.byteIdx + (if s.bitMask = 0x01#8 then 0 else 1) := by
  have hlt := bitpos_lt h
  have hzero := bitpos_eq_zero h
  unfold State.nbytes State.nbits ceil8
  split
  · next h1 => rw [hzero.2 h1]; omega
  · next h1 => have : bitpos s.bitMask ≠ 0 := mt hzero.1 h1; omega

/-- Settles O7: the one-hot mask `1 << k` counts `k` bits, and the bounds are those of the cursor. -/
theorem batchLengthFromTheCursor : Obligations.BatchLengthFromTheCursor := by
  intro s k h hk hm
  have hn : s.nbits = 8 * s.byteIdx + k := by rw [State.nbits, hm, bitpos_shiftLeft hk]
  exact ⟨hn, State.nbits_le h.one_hot h.in_range, rfl, State.nbytes_eq h.one_hot,
    State.nbytes_le h.one_hot h.in_range, State.nbits_eq_zero h.one_hot⟩

/-! ### RECORD -/

/-- A flush that answers `Ok` leaves nothing pending (R121, R129). -/
theorem State.nbits_of_flush_ok (h : s.flush = .done .ok t) : t.nbits = 0 := by
  rcases State.flush_done h with ⟨h0, _, rfl⟩ | ⟨_, _, hst, _⟩ | ⟨_, _, _, _, _, _, _, hst, _⟩
    | ⟨_, _, _, _, _, _, _, rfl⟩ | ⟨_, _, _, _, _, hst, _⟩
  · exact h0
  · cases hst
  · cases hst
  · rfl
  · cases hst

theorem State.nbits_of_recordCycle_ok (h1 : oneHot s.bitMask = true) {a b c d e : Bool}
    (h : s.recordCycle a b c d e = .done .ok t) : t.nbits = s.nbits + 1 ∨ t.nbits = 0 := by
  rcases s.recordCycle_cases a b c d e with ⟨_, hr⟩ | ⟨_, _, hr⟩ | ⟨_, _, _, hr⟩ | ⟨_, _, _, _, hr⟩ <;>
    rw [hr] at h
  · cases h
  · cases h
  · exact .inr (State.nbits_of_flush_ok h)
  · cases h; exact .inl (State.nbits_afterCycle h1 a b c d)

/-- Settles O26: the status in the history is that of the recorded cycle. -/
theorem recordAdvancesByOneOrEmpties : Obligations.RecordAdvancesByOneOrEmpties := by
  intro s t tms tdi tdo compare sync h ho hc hex hok
  have hlive : Live s := ⟨h, ho, hc⟩
  have hgrows := closed_grows.record s tms tdi tdo compare sync
  have hkeeps := hlive.recordCycle tms tdi tdo compare sync
  have hout : (s.recordCycle tms tdi tdo compare sync).outcome = .next t := by
    rwa [← State.inSession_open ho]
  rcases Ran.outcome_next hout with ⟨st, u, hr, rfl⟩ | hr
  · have hg := hgrows.done hr
    obtain rfl : st = .ok := by simpa [hg.responses, hg.cmd] using hok
    rw [hr] at hkeeps
    rw [State.nbits_respond]
    refine ⟨State.nbits_of_recordCycle_ok h.one_hot hr, ?_⟩
    rcases hkeeps.inv.in_range with hlt | ⟨heq, _⟩
    · exact le_of_lt hlt
    · exact le_of_eq heq
  · have hg := hgrows.hung hr
    simp [hg.responses] at hok

/-! ### Reset, the outputs and the shift request -/

theorem Config.capBytes_bounds : 1 ≤ Config.capBytes ∧ Config.capBytes ≤ Config.maxCapBytes :=
  ⟨Nat.succ_pos _, Config.capIndex.isLt⟩

/-- Settles O10: each register by its definition, the capacity by the bounds of its open constant. -/
theorem resetState : Obligations.ResetState :=
  ⟨rfl, rfl, rfl, rfl, rfl, rfl, rfl, rfl, rfl, rfl, rfl, rfl, rfl, Config.capBytes_bounds⟩

/-- Settles O11: nothing is listed in the arrays, and the cursor is at the origin with room. -/
theorem resetMeetsTheInvariant : Obligations.ResetMeetsTheInvariant := by
  obtain ⟨hpos, hle⟩ := Config.capBytes_bounds
  have storage : StorageOk State.reset := {
    cap_pos := hpos
    cap_le := hle
    planes_wf := fun p => by cases p <;> rfl
    planes_within := fun p => by cases p <;> rfl
    obs_wf := rfl
    obs_within := rfl }
  have batch : BatchOk State.reset := .of_empty hpos (fun p => by cases p <;> rfl) rfl rfl
  exact .of_sound ⟨storage, batch, .of_clear rfl rfl rfl⟩ (fun _ _ => hpos) (.inl ⟨rfl, rfl⟩)

theorem State.busy_iff : s.busy = true ↔ s.cph ≠ .idle := by simp [State.busy, State.cmdReady]

/-- Settles O8, by the two branches of the outputs: `busy` or not. -/
theorem statusOutputsShowTheRegisters : Obligations.StatusOutputsShowTheRegisters := by
  intro s
  constructor
  · intro hc
    have hb : ¬ s.busy = true := fun h => State.busy_iff.1 h hc
    rw [State.outputs, if_neg hb]
  · intro hc
    rw [State.outputs, if_pos (State.busy_iff.2 hc)]
    rfl

/-- Settles O37: the gate is the first branch of the shift request. -/
theorem shiftRequestOnlyInALiveSession : Obligations.ShiftRequestOnlyInALiveSession := by
  intro s n tms tdi hgate
  exact if_pos hgate

end Sys2Proof.Machine
end

section
/-! What a command sends (spec/20_memory.md R51, R52; spec/30_encoding.md R72, R74): every procedure of the
block sends whole shift requests that carry the pending cycles in order, until one fails or never returns. -/

namespace Sys2Proof.Machine

variable {s t u : State} {a b c d : List Bool}

/-! ### The request of a batch -/

/-- A well-formed shift request that a block of this capacity can send (R69). -/
def IsRequest (cap : Nat) (f : Nat × List Byte × List Byte) : Prop :=
  (Instr.shiftReq f.1 f.2.1 f.2.2).WellFormed = true ∧ f.1 ≤ 8 * cap

/-- The bit count and the two sections of the pending batch's request (R124). -/
def State.batch (s : State) : Nat × List Byte × List Byte :=
  (s.nbits, Memory.readRange s.tms 0 s.nbytes, Memory.readRange s.tdi 0 s.nbytes)

theorem framesOf_nil : framesOf [] = [] := rfl

theorem framesOf_append (fs gs : List (Nat × List Byte × List Byte)) :
    framesOf (fs ++ gs) = framesOf fs ++ framesOf gs := by simp [framesOf]

theorem framesOf_batch : framesOf [s.batch] = s.frame := by
  simp [framesOf, State.batch, State.frame]

/-- The batch of a session is a request: the planes hold nothing beyond the cursor, so the padding is zero
(R25 item 2, R72). -/
theorem Sound.isRequest_batch (h : Sound s) (ho : s.isOpen = true) (h0 : 0 < s.nbits) :
    IsRequest s.cap s.batch := by
  have hle : s.nbits ≤ 8 * s.cap := State.nbits_le h.batch.one_hot h.batch.in_range
  have hcount : countInRange s.nbits = true := by
    have := h.storage.cap_le
    simp only [countInRange, Bool.and_eq_true, decide_eq_true_eq]
    omega
  have hpad : ∀ p, paddingIsZero s.nbits (Memory.readRange (s.plane p) 0 s.nbytes) = true := fun p =>
    paddingIsZero_readRange h0 (h.batch.zero_beyond ho p)
  refine ⟨?_, hle⟩
  simp only [Instr.WellFormed, State.batch, hcount, Memory.length_readRange, Bool.and_eq_true, beq_iff_eq]
  exact ⟨⟨⟨⟨trivial, rfl⟩, rfl⟩, hpad .tms⟩, hpad .tdi⟩

/-- A section cut from a plane holds the plane's bits in order (R42, R72). -/
theorem sectionBits_readRange (m : Memory) (n : Nat) :
    sectionBits n (Memory.readRange m 0 (ceil8 n)) = (List.range n).map (Memory.bitAt m) := by
  refine List.map_congr_left fun k hk => ?_
  have hk : k < n := List.mem_range.1 hk
  rw [Memory.getD_readRange _ _ _ _ (lt_ceil8.2 (by omega)), Nat.zero_add]
  rfl

/-- The sections of the batch's request hold the pending cycles (R42, R124). -/
theorem State.sectionBits_batch (s : State) :
    sectionBits s.batch.1 s.batch.2.1 = s.pendingBits .tms
      ∧ sectionBits s.batch.1 s.batch.2.2 = s.pendingBits .tdi :=
  ⟨sectionBits_readRange s.tms s.nbits, sectionBits_readRange s.tdi s.nbits⟩

/-! ### The pending cycles -/

theorem State.pendingBits_of_nbits_eq_zero (h : s.nbits = 0) (p : Plane) : s.pendingBits p = [] := by
  simp [State.pendingBits, h]

/-- A cycle joins the pending ones at their end (R42, R100). -/
theorem Sound.pendingBits_afterCycle (h : Sound s) (tms tdi tdo compare : Bool) (p : Plane) :
    (s.afterCycle tms tdi tdo compare).pendingBits p
      = s.pendingBits p ++ [Memory.bitAt ((s.afterCycle tms tdi tdo compare).plane p) s.nbits] := by
  unfold State.pendingBits
  rw [State.nbits_afterCycle h.batch.one_hot, List.range_succ, List.map_append]
  congr 1
  refine List.map_congr_left fun k hk => ?_
  have hk : k ≠ s.nbits := (List.mem_range.1 hk).ne
  rw [State.bitAt_afterCycle s _ _ _ _ p h.storage.planes_wf h.batch.one_hot]
  simp [hk]

/-- The new bit is the cycle's own, since the plane held 0 there (R25 item 2, R90). -/
theorem Sound.bitAt_afterCycle_nbits (h : Sound s) (ho : s.isOpen = true) (tms tdi tdo compare : Bool) :
    Memory.bitAt ((s.afterCycle tms tdi tdo compare).plane .tms) s.nbits = tms
      ∧ Memory.bitAt ((s.afterCycle tms tdi tdo compare).plane .tdi) s.nbits = tdi := by
  have hzero : ∀ p, Memory.bitAt (s.plane p) s.nbits = false := fun p => h.batch.zero_beyond ho p _ le_rfl
  constructor <;>
    rw [State.bitAt_afterCycle s _ _ _ _ _ h.storage.planes_wf h.batch.one_hot, hzero] <;> simp

/-! ### What is sent on the way to a state -/

/-- From `s` to `t` the block has recorded these cycles and has sent whole requests only; what it sent,
followed by what is still pending, is what was pending, followed by what it recorded (R42, R52). -/
def SendsInOrder (s t : State) (tms tdi : List Bool) : Prop :=
  ∃ whole : List (Nat × List Byte × List Byte),
    t.tx = s.tx ++ framesOf whole
    ∧ (∀ f ∈ whole, IsRequest s.cap f)
    ∧ whole.flatMap (fun f => sectionBits f.1 f.2.1) ++ t.pendingBits .tms = s.pendingBits .tms ++ tms
    ∧ whole.flatMap (fun f => sectionBits f.1 f.2.2) ++ t.pendingBits .tdi = s.pendingBits .tdi ++ tdi

/-- From `s` to `t` the block has sent whole requests and then at most the first bytes of one, cut short for
this cause only (R51, R74). -/
def SendsUntilCut (s t : State) (cause : Prop) : Prop :=
  ∃ (whole : List (Nat × List Byte × List Byte)) (cut : List Byte),
    t.tx = s.tx ++ framesOf whole ++ cut
    ∧ (∀ f ∈ whole, IsRequest s.cap f)
    ∧ (cut ≠ [] → cause ∧ ∃ n tms tdi, (Instr.shiftReq n tms tdi).WellFormed = true ∧ n ≤ s.capBits
        ∧ cut <+: shiftFrame n tms tdi)

/-- What does not touch the batch or the TX history sends nothing. -/
theorem SendsInOrder.of_same (htx : t.tx = s.tx) (hn : t.nbits = s.nbits)
    (hplane : ∀ p, t.plane p = s.plane p) : SendsInOrder s t [] [] :=
  ⟨[], by simp [htx, framesOf_nil], by simp, by simp [State.pendingBits, hn, hplane],
    by simp [State.pendingBits, hn, hplane]⟩

theorem SendsInOrder.refl (s : State) : SendsInOrder s s [] [] := .of_same rfl rfl fun _ => rfl

theorem SendsInOrder.trans (h : SendsInOrder s t a b) (hcap : t.cap = s.cap) (h' : SendsInOrder t u c d) :
    SendsInOrder s u (a ++ c) (b ++ d) := by
  obtain ⟨fs, htx, hreq, htms, htdi⟩ := h
  obtain ⟨gs, htx', hreq', htms', htdi'⟩ := h'
  refine ⟨fs ++ gs, ?_, ?_, ?_, ?_⟩
  · rw [htx', htx, framesOf_append, List.append_assoc]
  · intro f hf
    rcases List.mem_append.1 hf with hf | hf
    · exact hreq f hf
    · exact hcap ▸ hreq' f hf
  · rw [List.flatMap_append, List.append_assoc, htms', ← List.append_assoc, htms, List.append_assoc]
  · rw [List.flatMap_append, List.append_assoc, htdi', ← List.append_assoc, htdi, List.append_assoc]

theorem SendsUntilCut.of_tx {cause : Prop} (h : t.tx = s.tx) : SendsUntilCut s t cause :=
  ⟨[], [], by simp [h, framesOf_nil], by simp, by simp⟩

theorem SendsUntilCut.mono {P Q : Prop} (h : SendsUntilCut s t P) (himp : P → Q) : SendsUntilCut s t Q := by
  obtain ⟨whole, cut, htx, hreq, hcut⟩ := h
  exact ⟨whole, cut, htx, hreq, fun hne => ⟨himp (hcut hne).1, (hcut hne).2⟩⟩

/-- Requests sent whole are cut nowhere. -/
theorem SendsInOrder.untilCut {cause : Prop} (h : SendsInOrder s t a b) : SendsUntilCut s t cause := by
  obtain ⟨whole, htx, hreq, _⟩ := h
  exact ⟨whole, [], by simp [htx], hreq, by simp⟩

theorem SendsInOrder.trans_untilCut {cause : Prop} (h : SendsInOrder s t a b) (hcap : t.cap = s.cap)
    (h' : SendsUntilCut t u cause) : SendsUntilCut s u cause := by
  obtain ⟨fs, htx, hreq, _⟩ := h
  obtain ⟨gs, cut, htx', hreq', hcut⟩ := h'
  rw [hcap] at hreq'
  rw [State.capBits, hcap] at hcut
  refine ⟨fs ++ gs, cut, ?_, ?_, hcut⟩
  · rw [htx', htx, framesOf_append, List.append_assoc s.tx]
  · exact fun f hf => (List.mem_append.1 hf).elim (hreq f) (hreq' f)

/-! ### The flush -/

/-- A batch sent whole (R124). -/
theorem Sound.sendsUntilCut_frame {cause : Prop} (h : Sound s) (ho : s.isOpen = true) (h0 : 0 < s.nbits)
    (htx : t.tx = s.tx ++ s.frame) : SendsUntilCut s t cause :=
  ⟨[s.batch], [], by rw [framesOf_batch, htx, List.append_nil],
    by simpa using h.isRequest_batch ho h0, by simp⟩

/-- A batch sent whole and cleared: its two sections are what was pending (R42, R129). -/
theorem Sound.sendsInOrder_frame (h : Sound s) (ho : s.isOpen = true) (h0 : 0 < s.nbits)
    (htx : t.tx = s.tx ++ s.frame) (ht : t.nbits = 0) : SendsInOrder s t [] [] := by
  obtain ⟨htms, htdi⟩ := s.sectionBits_batch
  exact ⟨[s.batch], by rw [framesOf_batch, htx], by simpa using h.isRequest_batch ho h0,
    by simp [State.pendingBits_of_nbits_eq_zero ht, htms], by simp [State.pendingBits_of_nbits_eq_zero ht, htdi]⟩

/-- A batch whose request was cut short, if not sent whole (R126, R199). -/
theorem Sound.sendsUntilCut_take {cause : Prop} {k : Nat} (h : Sound s) (ho : s.isOpen = true)
    (h0 : 0 < s.nbits) (htx : t.tx = s.tx ++ s.frame.take k) (hcause : cause) : SendsUntilCut s t cause := by
  obtain ⟨hwf, hle⟩ := h.isRequest_batch ho h0
  exact ⟨[], s.frame.take k, by simp [htx, framesOf_nil], by simp,
    fun _ => ⟨hcause, _, _, _, hwf, hle, List.take_prefix _ _⟩⟩

theorem State.request_received_tx (h : s.request = .received t) : t.tx = s.tx ++ s.frame := by
  obtain ⟨_, _, _, rfl⟩ := State.exchange_received h
  rw [State.onWire_tx]; rfl

theorem State.request_linkDown_tx (h : s.request = .linkDown t) : ∃ k, t.tx = s.tx ++ s.frame.take k := by
  obtain ⟨k, _, _, rfl⟩ := State.exchange_linkDown h
  exact ⟨k, by rw [State.onWire_tx]; rfl⟩

theorem State.request_stalled_tx (h : s.request = .stalled t) : ∃ k, t.tx = s.tx ++ s.frame.take k := by
  rcases State.exchange_stalled h with ⟨k, _, rfl⟩ | ⟨_, _, _, rfl⟩
  · exact ⟨k, by rw [State.stuckIn_tx, State.onWire_tx]; rfl⟩
  · exact ⟨s.frame.length, by rw [State.stuckIn_tx, State.onWire_tx, List.take_length]; rfl⟩

/-- The procedure, begun in `s`, answers `Ok` having sent its cycles and the pending ones in order, or fails,
or never returns; only a transport that fails or stops cuts a request short. -/
def Ran.Sends (s : State) (tms tdi : List Bool) : Ran → Prop
  | .done st t => (st = .ok ∧ SendsInOrder s t tms tdi)
      ∨ (st ≠ .ok ∧ t.err = true ∧ SendsUntilCut s t (t.errKind = .connectivityError))
  | .hung t => SendsUntilCut s t (t.busy = true)
  | .bad _ => True

/-- First a procedure that answered `Ok`, then another. -/
theorem SendsInOrder.trans_ran {r : Ran} (h : SendsInOrder s t a b) (hcap : t.cap = s.cap)
    (hr : r.Sends t c d) : r.Sends s (a ++ c) (b ++ d) := by
  cases r with
  | done st u =>
    rcases hr with ⟨hst, hu⟩ | ⟨hst, he, hu⟩
    · exact .inl ⟨hst, h.trans hcap hu⟩
    · exact .inr ⟨hst, he, h.trans_untilCut hcap hu⟩
  | hung u => exact h.trans_untilCut hcap hr
  | bad f => trivial

/-- A procedure that has not answered `Ok` says nothing of the cycles. -/
theorem Ran.Sends.of_not_ok {r : Ran} (h : r.Sends s a b) (hr : ∀ t, r ≠ .done .ok t) : r.Sends s c d := by
  cases r with
  | done st t =>
    rcases h with ⟨rfl, _⟩ | hfail
    · exact absurd rfl (hr t)
    · exact .inr hfail
  | hung t => exact h
  | bad f => trivial

/-- The flush, by its outcomes (R130). -/
theorem Sound.flush_sends (h : Sound s) (ho : s.isOpen = true) : s.flush.Sends s [] [] := by
  cases hr : s.flush with
  | bad f => trivial
  | hung t =>
    obtain ⟨h0, _, _, hq⟩ := State.flush_hung hr
    obtain ⟨k, htx⟩ := State.request_stalled_tx hq
    have hcph := (State.exchange_stalled_frame hq).2.1
    exact h.sendsUntilCut_take ho h0 htx (State.busy_iff.2 (by simp [hcph]))
  | done st t =>
    rcases State.flush_done hr with ⟨_, hst, rfl⟩ | ⟨_, he, rfl, rfl⟩ | ⟨h0, _, _, u, hq, i, _, rfl, rfl⟩
      | ⟨h0, _, _, u, hq, _, hst, rfl⟩ | ⟨h0, _, _, u, hq, rfl, rfl⟩
    · exact .inl ⟨hst, .refl _⟩
    · exact .inr ⟨by simp, he, .of_tx rfl⟩
    · exact .inr ⟨by simp, by simp, h.sendsUntilCut_frame ho h0 (by simp [State.request_received_tx hq])⟩
    · exact .inl ⟨hst, h.sendsInOrder_frame ho h0 (by simp [State.request_received_tx hq]) (by simp)⟩
    · obtain ⟨k, htx⟩ := State.request_linkDown_tx hq
      exact .inr ⟨by simp, by simp, h.sendsUntilCut_take ho h0 (by simpa using htx) rfl⟩

/-! ### The commands -/

/-- A recorded cycle joins the pending ones, and nothing is sent (R100). -/
theorem Sound.afterCycle_sends (h : Sound s) (ho : s.isOpen = true) (tms tdi tdo compare : Bool) :
    SendsInOrder s (s.afterCycle tms tdi tdo compare) [tms] [tdi] := by
  obtain ⟨htms, htdi⟩ := h.bitAt_afterCycle_nbits ho tms tdi tdo compare
  exact ⟨[], by simp [(s.afterCycle_frame tms tdi tdo compare).tx, framesOf_nil], by simp,
    by simp [h.pendingBits_afterCycle, htms], by simp [h.pendingBits_afterCycle, htdi]⟩

theorem Live.recordCycle_sends (h : Live s) (tms tdi tdo compare sync : Bool) :
    (s.recordCycle tms tdi tdo compare sync).Sends s [tms] [tdi] := by
  have hf := s.afterCycle_frame tms tdi tdo compare
  have hcycle := h.sound.afterCycle_sends h.isOpen tms tdi tdo compare
  rcases s.recordCycle_cases tms tdi tdo compare sync with ⟨he, hr⟩ | ⟨_, _, hr⟩ | ⟨he, hlt, _, hr⟩
    | ⟨_, _, _, _, hr⟩ <;> rw [hr]
  · exact .inr ⟨by simp, he, .of_tx rfl⟩
  · trivial
  · exact hcycle.trans_ran hf.cap
      ((h.sound.afterCycle he hlt tms tdi tdo compare).flush_sends (hf.isOpen.trans h.isOpen))
  · exact .inl ⟨rfl, hcycle⟩

/-- The idle cycles of WAIT, each followed by the rest (R111). -/
theorem Live.idleCycles_sends (h : Live s) (tms : Bool) (n : Nat) :
    (s.idleCycles tms n).Sends s (List.replicate n tms) (List.replicate n false) := by
  induction n generalizing s with
  | zero => exact .inl ⟨rfl, .refl s⟩
  | succ n ih =>
    have hsend : ((s.setWcnt n).recordCycle tms false false false false).Sends s [tms] [false] :=
      (SendsInOrder.of_same rfl rfl (by simp)).trans_ran rfl ((h.setWcnt n).recordCycle_sends ..)
    have hkeep := (h.setWcnt n).recordCycle tms false false false false
    have hgrow := closed_grows.record (s.setWcnt n) tms false false false false
    unfold State.idleCycles
    split
    · next t ht =>
      rw [ht] at hsend hkeep hgrow
      rcases hsend with ⟨_, hcycle⟩ | ⟨hst, _⟩
      · exact hcycle.trans_ran hgrow.cap (ih hkeep)
      · exact absurd rfl hst
    · next hne => exact hsend.of_not_ok hne

/-- WAIT: after idle cycles that answered `Ok` the trailing flush sends the rest; after a failure it sends
nothing (R112, R114). -/
theorem Live.waitBody_sends (h : Live s) (tms : Bool) (n : Nat) :
    (s.waitBody tms n).Sends s (List.replicate n tms) (List.replicate n false) := by
  have hsend : ((s.enterWait n).idleCycles tms n).Sends s (List.replicate n tms) (List.replicate n false) :=
    (SendsInOrder.of_same rfl rfl (by simp)).trans_ran rfl ((h.enterWait n).idleCycles_sends tms n)
  have hkeep := (h.enterWait n).idleCycles tms n
  have hgrow := closed_grows.idle (s.enterWait n) tms n
  unfold State.waitBody
  cases hr : (s.enterWait n).idleCycles tms n <;> rw [hr] at hsend hkeep hgrow
  case hung t => exact hsend
  case bad f => trivial
  case done first t =>
    rcases hsend with ⟨rfl, hsend⟩ | ⟨hst, he, hsend⟩
    · have hflush := hsend.trans_ran hgrow.cap (hkeep.sound.flush_sends hkeep.isOpen)
      simp only [List.append_nil] at hflush
      dsimp only
      cases hr' : t.flush <;> rw [hr'] at hflush <;> exact hflush
    · obtain ⟨st, hf⟩ := State.flush_failed he
      simp only [hf, hst, if_false]
      exact .inr ⟨hst, he, hsend⟩

/-- SHUTDOWN's last update touches neither the batch nor the streams (R151). -/
theorem Live.shutdown_sends (h : Live s) : (s.body .shutdown).Sends s [] [] := by
  have hflush := h.sound.flush_sends h.isOpen
  have hgrow := closed_grows.flush s
  unfold State.body
  cases hr : s.flush <;> rw [hr] at hflush hgrow
  case hung t => exact hflush
  case bad f => trivial
  case done st t =>
    rcases hflush with ⟨hst, hsend⟩ | ⟨hst, he, hsend⟩
    · exact .inl ⟨hst, hsend.trans hgrow.cap (.of_same rfl rfl (by simp))⟩
    · exact .inr ⟨hst, he, hsend⟩

/-- Every command of a session sends its own cycles after the pending ones. -/
theorem Live.body_sends (h : Live s) {i : Instr} (hi : i ≠ .setup) :
    (s.body i).Sends s (recordedTms i) (recordedTdi i) := by
  cases i with
  | setup => exact absurd rfl hi
  | record tms tdi tdo compare sync => exact h.recordCycle_sends tms tdi tdo compare sync
  | wait tms n => exact h.waitBody_sends tms n
  | flush => exact h.sound.flush_sends h.isOpen
  | shutdown => exact h.shutdown_sends
  | shiftReq n tms tdi => exact .inl ⟨rfl, .refl s⟩

/-! ### The step -/

/-- Settles O52: outside a procedure nothing is sent, and a procedure sends whole requests until a failure
or a transport that stops cuts one. -/
theorem txHistoryIsFrames : Obligations.TxHistoryIsFrames := by
  intro s t h hstep
  change SendsUntilCut s t (t.errKind = .connectivityError ∨ t.busy = true)
  rcases step_cases hstep with rfl | ⟨_, _, rfl⟩ | ⟨w, _, _, hc, ⟨i, hd, hex⟩ | ⟨_, _, rfl⟩⟩
  · exact .of_tx rfl
  · exact .of_tx rfl
  · rcases exec_cases hd hex with ⟨_, rfl⟩ | ⟨_, _, rfl⟩ | ⟨hi, ho, hrun⟩
    · exact .of_tx rfl
    · exact .of_tx rfl
    · have hlive : Live (s.accept w) := ⟨h.accept hc w, ho, hc⟩
      have hsends := hlive.body_sends hi
      rcases hrun with ⟨st, u, hb, rfl⟩ | hb <;> rw [hb] at hsends
      · rcases hsends with ⟨_, hu⟩ | ⟨_, _, hu⟩
        · exact hu.untilCut
        · exact hu.mono .inl
      · exact hsends.mono .inr
  · exact .of_tx rfl

/-- A command offered to an idle block is the step's (R8, R60). -/
theorem step_of_command {w : Word} {later : List HostInput} {i : Instr} (hc : s.cph = .idle)
    (hh : s.host = .command w :: later) (hd : decodeWord w = .ok i) : step s = exec i (s.accept w) := by
  have hport : s.portEvent = .command w := by simp [State.portEvent, hh, State.cmdReady, hc]
  simp only [step, hport, hd]

/-- Settles O53: in a session the status is the procedure's, and a procedure that answers `Ok` has sent the
cycles in order. -/
theorem cyclesAreSentOnceAndInOrder : Obligations.CyclesAreSentOnceAndInOrder := by
  intro s t w later i h ho hc hh hd hi hstep hok
  change SendsInOrder s t (recordedTms i) (recordedTdi i)
  rw [step_of_command hc hh hd] at hstep
  rcases exec_cases hd hstep with ⟨hi', _⟩ | ⟨_, hclosed, _⟩ | ⟨_, _, ⟨st, u, hb, rfl⟩ | hb⟩
  · exact absurd hi' hi
  · rw [State.accept_isOpen, ho] at hclosed; cases hclosed
  · have hg := (Grows.body hi _).done hb
    obtain rfl : st = .ok := by simpa [hg.responses, hg.cmd] using hok
    have hlive : Live (s.accept w) := ⟨h.accept hc w, ho, hc⟩
    have hsends := hlive.body_sends hi
    rw [hb] at hsends
    rcases hsends with ⟨_, hu⟩ | ⟨hst, _⟩
    · exact hu
    · exact absurd rfl hst
  · have hg := (Grows.body hi _).hung hb
    simp [hg.responses] at hok

end Sys2Proof.Machine
end

section
/-! The decoder and the encoder (spec/30_encoding.md): a code decodes to an instruction exactly when it is
the encoding of that instruction and the instruction is well formed, so each is the other's inverse. -/

namespace Sys2Proof.Machine

/-! ### The fields of a command word -/

/-- A bit of a field that two words share is the same in both. -/
theorem getLsbD_eq_of_extractLsb'_eq {v w : Word} {start len k : Nat}
    (h : v.extractLsb' start len = w.extractLsb' start len) (hlo : start ≤ k) (hhi : k < start + len) :
    v.getLsbD k = w.getLsbD k := by
  have hbit := congrArg (·.getLsbD (k - start)) h
  simpa [BitVec.getLsbD_extractLsb', show k - start < len by omega, show start + (k - start) = k by omega]
    using hbit

/-- `OP` and the bits below it make up the word (R60). -/
theorem word_ext {v w : Word} (hop : opField v = opField w)
    (hlow : ∀ k, k < 28 → v.getLsbD k = w.getLsbD k) : v = w := by
  refine BitVec.eq_of_getLsbD_eq fun k hk => ?_
  by_cases hk28 : k < 28
  · exact hlow k hk28
  · exact getLsbD_eq_of_extractLsb'_eq hop (by omega) (by omega)

/-- The operands and the reserved bits of an encoded RECORD (R62). -/
theorem fields_encodeR (tms tdi tdo compare sync : Bool) :
    (encodeR tms tdi tdo compare sync).extractLsb' 5 23 = 0#23
      ∧ (encodeR tms tdi tdo compare sync).getLsbD 0 = tms
      ∧ (encodeR tms tdi tdo compare sync).getLsbD 1 = tdi
      ∧ (encodeR tms tdi tdo compare sync).getLsbD 2 = tdo
      ∧ (encodeR tms tdi tdo compare sync).getLsbD 3 = compare
      ∧ (encodeR tms tdi tdo compare sync).getLsbD 4 = sync := by
  revert tms tdi tdo compare sync
  decide

/-- The bits of an encoded WAIT below `OP` (R63). -/
theorem getLsbD_encodeW (tms : Bool) (count : Nat) {k : Nat} (hk : k < 28) :
    (encodeW tms count).getLsbD k = if k < 24 then count.testBit k else decide (k = 24) && tms := by
  have hop : (0x30000000#32 : Word).getLsbD k = false := by interval_cases k <;> rfl
  have hk32 : k < 32 := by omega
  rw [encodeW, BitVec.getLsbD_or, BitVec.getLsbD_or, hop, getLsbD_bitAt, BitVec.getLsbD_setWidth,
    BitVec.getLsbD_ofNat]
  by_cases hlt : k < 24
  · simp [hlt, hk32, show k ≠ 24 by omega]
  · simp [hlt, hk32]

/-- The operands and the reserved bits of an encoded WAIT (R63). -/
theorem fields_encodeW (tms : Bool) (count : Nat) :
    (encodeW tms count).extractLsb' 25 3 = 0#3
      ∧ (encodeW tms count).getLsbD 24 = tms
      ∧ (encodeW tms count).extractLsb' 0 24 = BitVec.ofNat 24 count := by
  refine ⟨BitVec.eq_of_getLsbD_eq fun k hk => ?_, ?_, BitVec.eq_of_getLsbD_eq fun k hk => ?_⟩
  · rw [BitVec.getLsbD_extractLsb', getLsbD_encodeW _ _ (by omega)]
    simp [show ¬ 25 + k < 24 by omega, show ¬ 25 + k = 24 by omega]
  · rw [getLsbD_encodeW _ _ (by omega)]; simp
  · rw [BitVec.getLsbD_extractLsb', getLsbD_encodeW _ _ (by omega)]
    simp [hk, BitVec.getLsbD_ofNat, -BitVec.getLsbD_eq_getElem]

theorem opField_encodeR (tms tdi tdo compare sync : Bool) :
    opField (encodeR tms tdi tdo compare sync) = 0x2#4 :=
  beq_iff_eq.1 (Laws.Opcode.record tms tdi tdo compare sync)

theorem opField_encodeW (tms : Bool) (count : Nat) : opField (encodeW tms count) = 0x3#4 :=
  beq_iff_eq.1 (Laws.Opcode.wait tms count)

/-! ### The formats -/

/-- Format Z: the word is the opcode word, which has no operand (R64). -/
theorem decodeZ_ok_iff {w v : Word} {i j : Instr} (hv : v.extractLsb' 0 28 = 0#28)
    (hop : opField w = opField v) : decodeZ i w = .ok j ↔ v = w ∧ i = j := by
  have hreserved : w.extractLsb' 0 28 = 0#28 ↔ v = w := by
    refine ⟨fun h => (word_ext hop fun k hk => ?_).symm, fun h => h ▸ hv⟩
    exact getLsbD_eq_of_extractLsb'_eq (h.trans hv.symm) (by omega) (by omega)
  simp only [decodeZ, hreserved]
  split <;> simp_all

/-- Format R: the word is the encoding of its five operand bits (R62). -/
theorem decodeR_ok_iff {w : Word} {i : Instr} (hop : opField w = 0x2#4) :
    decodeR w = .ok i ↔ ∃ tms tdi tdo compare sync,
      encodeR tms tdi tdo compare sync = w ∧ .record tms tdi tdo compare sync = i := by
  constructor
  · intro h
    unfold decodeR at h
    split at h
    · next hreserved =>
      cases h
      obtain ⟨hzero, h0, h1, h2, h3, h4⟩ := fields_encodeR (w.getLsbD 0) (w.getLsbD 1) (w.getLsbD 2)
        (w.getLsbD 3) (w.getLsbD 4)
      refine ⟨_, _, _, _, _, word_ext ((opField_encodeR ..).trans hop.symm) fun k hk => ?_, rfl⟩
      by_cases hk5 : k < 5
      · interval_cases k <;> assumption
      · exact getLsbD_eq_of_extractLsb'_eq (hzero.trans hreserved.symm) (by omega) (by omega)
    · cases h
  · rintro ⟨tms, tdi, tdo, compare, sync, rfl, rfl⟩
    obtain ⟨hzero, h0, h1, h2, h3, h4⟩ := fields_encodeR tms tdi tdo compare sync
    rw [decodeR, if_pos hzero, h0, h1, h2, h3, h4]

/-- Format W: the word is the encoding of its level and of its 24-bit count (R63). -/
theorem decodeW_ok_iff {w : Word} {i : Instr} (hop : opField w = 0x3#4) :
    decodeW w = .ok i ↔ ∃ tms count, encodeW tms count = w ∧ count < 2 ^ 24 ∧ .wait tms count = i := by
  constructor
  · intro h
    unfold decodeW at h
    split at h
    · next hreserved =>
      cases h
      obtain ⟨hzero, htms, hcount⟩ := fields_encodeW (w.getLsbD 24) (w.extractLsb' 0 24).toNat
      rw [BitVec.ofNat_toNat, BitVec.setWidth_eq] at hcount
      refine ⟨_, _, word_ext ((opField_encodeW ..).trans hop.symm) fun k hk => ?_, BitVec.isLt _, rfl⟩
      rcases lt_trichotomy k 24 with hlt | rfl | hgt
      · exact getLsbD_eq_of_extractLsb'_eq hcount (by omega) (by omega)
      · exact htms
      · exact getLsbD_eq_of_extractLsb'_eq (hzero.trans hreserved.symm) (by omega) (by omega)
    · cases h
  · rintro ⟨tms, count, rfl, hlt, rfl⟩
    obtain ⟨hzero, htms, hcount⟩ := fields_encodeW tms count
    rw [decodeW, if_pos hzero, htms, hcount, BitVec.toNat_ofNat, Nat.mod_eq_of_lt hlt]

/-! ### The reserved bits -/

theorem decodeZ_error_iff {w : Word} {i : Instr} :
    (∃ e, decodeZ i w = .error e) ↔ w.extractLsb' 0 28 ≠ 0#28 := by
  unfold decodeZ; split <;> simp_all

theorem decodeR_error_iff {w : Word} : (∃ e, decodeR w = .error e) ↔ w.extractLsb' 5 23 ≠ 0#23 := by
  unfold decodeR; split <;> simp_all

theorem decodeW_error_iff {w : Word} : (∃ e, decodeW w = .error e) ↔ w.extractLsb' 25 3 ≠ 0#3 := by
  unfold decodeW; split <;> simp_all

/-! ### Command words -/

/-- The opcode map: the format that decodes a word is that of its `OP`; the other eleven are reserved
(R61, R66). -/
theorem decodeWord_cases (w : Word) :
    (opField w = 0x1#4 ∧ decodeWord w = decodeZ .setup w)
    ∨ (opField w = 0x2#4 ∧ decodeWord w = decodeR w)
    ∨ (opField w = 0x3#4 ∧ decodeWord w = decodeW w)
    ∨ (opField w = 0x4#4 ∧ decodeWord w = decodeZ .flush w)
    ∨ (opField w = 0x5#4 ∧ decodeWord w = decodeZ .shutdown w)
    ∨ ((opField w = 0x0#4 ∨ 0x6#4 ≤ opField w) ∧ decodeWord w = .error .reservedOpcode) := by
  unfold decodeWord
  generalize opField w = op
  split_ifs with h1 h2 h3 h4 h5
  · exact .inl ⟨h1, rfl⟩
  · exact .inr (.inl ⟨h2, rfl⟩)
  · exact .inr (.inr (.inl ⟨h3, rfl⟩))
  · exact .inr (.inr (.inr (.inl ⟨h4, rfl⟩)))
  · exact .inr (.inr (.inr (.inr (.inl ⟨h5, rfl⟩))))
  · exact .inr (.inr (.inr (.inr (.inr ⟨by bv_omega, rfl⟩))))

theorem decodeWord_of_op_record {w : Word} (h : opField w = 0x2#4) : decodeWord w = decodeR w := by
  simp [decodeWord, h]

theorem decodeWord_of_op_wait {w : Word} (h : opField w = 0x3#4) : decodeWord w = decodeW w := by
  simp [decodeWord, h]

/-- A word decodes to an instruction exactly when it is the encoding of it, well formed (R60 to R66). -/
theorem decodeWord_ok_iff {w : Word} {i : Instr} :
    decodeWord w = .ok i ↔ encode i = .word w ∧ i.WellFormed = true := by
  constructor
  · intro h
    rcases decodeWord_cases w with ⟨hop, hd⟩ | ⟨hop, hd⟩ | ⟨hop, hd⟩ | ⟨hop, hd⟩ | ⟨hop, hd⟩ | ⟨_, hd⟩ <;>
      rw [hd] at h
    · obtain ⟨rfl, rfl⟩ := (decodeZ_ok_iff (v := 0x10000000#32) rfl hop).1 h
      exact ⟨rfl, rfl⟩
    · obtain ⟨_, _, _, _, _, rfl, rfl⟩ := (decodeR_ok_iff hop).1 h
      exact ⟨rfl, rfl⟩
    · obtain ⟨_, _, rfl, hcount, rfl⟩ := (decodeW_ok_iff hop).1 h
      exact ⟨rfl, decide_eq_true hcount⟩
    · obtain ⟨rfl, rfl⟩ := (decodeZ_ok_iff (v := 0x40000000#32) rfl hop).1 h
      exact ⟨rfl, rfl⟩
    · obtain ⟨rfl, rfl⟩ := (decodeZ_ok_iff (v := 0x50000000#32) rfl hop).1 h
      exact ⟨rfl, rfl⟩
    · cases h
  · rintro ⟨he, hwf⟩
    cases i with
    | setup => cases he; rfl
    | flush => cases he; rfl
    | shutdown => cases he; rfl
    | shiftReq => cases he
    | record tms tdi tdo compare sync =>
      cases he
      have hop := opField_encodeR tms tdi tdo compare sync
      rw [decodeWord_of_op_record hop]
      exact (decodeR_ok_iff hop).2 ⟨_, _, _, _, _, rfl, rfl⟩
    | wait tms count =>
      cases he
      have hop := opField_encodeW tms count
      rw [decodeWord_of_op_wait hop]
      exact (decodeW_ok_iff hop).2 ⟨_, _, rfl, of_decide_eq_true hwf, rfl⟩

/-- The illegal words are those the decoder rejects (R66). -/
theorem illegalWord_iff {w : Word} : IllegalWord w ↔ ∃ e, decodeWord w = .error e := by
  unfold IllegalWord
  rw [← opField]
  rcases decodeWord_cases w with ⟨hop, hd⟩ | ⟨hop, hd⟩ | ⟨hop, hd⟩ | ⟨hop, hd⟩ | ⟨hop, hd⟩ | ⟨hop, hd⟩ <;>
    rw [hd]
  · simp [hop, decodeZ_error_iff]
  · simp [hop, decodeR_error_iff]
  · simp [hop, decodeW_error_iff]
  · simp [hop, decodeZ_error_iff]
  · simp [hop, decodeZ_error_iff]
  · exact ⟨fun _ => ⟨_, rfl⟩, fun _ => hop.elim .inl (.inr ∘ .inl)⟩

/-! ### Shift requests -/

/-- A shift request read back section by section (R69, R74). -/
theorem shiftFrame_sections (n : Nat) (tms tdi : List Byte) :
    (shiftFrame n tms tdi).take 6 = Config.tag ∧ ((shiftFrame n tms tdi).drop 6).take 4 = le32 n
      ∧ (shiftFrame n tms tdi).drop 10 = tms ++ tdi := by
  refine ⟨?_, ?_, ?_⟩ <;> simp [shiftFrame, Config.tag, le32]

/-- A frame is cut into the four parts of a shift request (R69). -/
theorem eq_append_sections (bs : List Byte) (k : Nat) :
    bs = bs.take 6 ++ (bs.drop 6).take 4 ++ (bs.drop 10).take k ++ bs.drop (10 + k) := by
  rw [← List.drop_drop, List.append_assoc, List.append_assoc, List.take_append_drop,
    show bs.drop 10 = (bs.drop 6).drop 4 by rw [List.drop_drop], List.take_append_drop,
    List.take_append_drop]

/-- The count field of a shift request is the one encoding of the number it stands for (R71). -/
theorem le32_leValue_of_length {bs : List Byte} (h : bs.length = 4) : le32 (leValue bs) = bs := by
  match bs, h with
  | [b0, b1, b2, b3], _ => exact le32_leValue b0 b1 b2 b3

/-- A count in range fits the count field (R69, R71). -/
theorem lt_of_countInRange {n : Nat} (h : countInRange n = true) : n < 2 ^ 32 := by
  simp only [countInRange, Bool.and_eq_true, decide_eq_true_eq] at h
  obtain ⟨_, hle⟩ := h
  unfold Config.maxCapBytes at hle
  omega

/-- A frame decodes to an instruction exactly when it is the encoding of it, well formed (R69 to R74; for
what else a receiver may take, log 20). -/
theorem decodeFrame_ok_iff {bs : List Byte} {i : Instr} :
    decodeFrame bs = .ok i ↔ encode i = .frame bs ∧ i.WellFormed = true := by
  constructor
  · intro h
    simp only [decodeFrame] at h
    split_ifs at h with htag hcount hlen hpad
    cases h
    have htag : bs.take 6 = Config.tag := not_not.1 htag
    have hlen : bs.length = 10 + 2 * ceil8 (leValue ((bs.drop 6).take 4)) := not_not.1 hlen
    have hle32 : le32 (leValue ((bs.drop 6).take 4)) = (bs.drop 6).take 4 :=
      le32_leValue_of_length (by simp; omega)
    refine ⟨congrArg Code.frame ?_, ?_⟩
    · rw [shiftFrame, ← htag, hle32]
      exact (eq_append_sections bs _).symm
    · simp only [Bool.not_eq_false, Bool.and_eq_true] at hcount hpad
      obtain ⟨hpadTms, hpadTdi⟩ := hpad
      simp only [Instr.WellFormed, hcount, hpadTms, hpadTdi, List.length_take, List.length_drop,
        Bool.and_true, Bool.true_and, Bool.and_eq_true, beq_iff_eq]
      omega
  · rintro ⟨he, hwf⟩
    cases i <;> cases he
    next n tms tdi =>
      simp only [Instr.WellFormed, Bool.and_eq_true, beq_iff_eq] at hwf
      obtain ⟨⟨⟨⟨hcount, htms⟩, htdi⟩, hpadTms⟩, hpadTdi⟩ := hwf
      obtain ⟨htag, hle32, hrest⟩ := shiftFrame_sections n tms tdi
      have htdiAt : (shiftFrame n tms tdi).drop (10 + ceil8 n) = tdi := by
        rw [← List.drop_drop, hrest, ← htms, List.drop_left]
      have htmsAt : (tms ++ tdi).take (ceil8 n) = tms := by rw [← htms, List.take_left]
      have hlen : (shiftFrame n tms tdi).length = 10 + 2 * ceil8 n := by
        rw [length_shiftFrame, htms, htdi]; omega
      simp [decodeFrame, htag, hle32, leValue_le32 (lt_of_countInRange hcount), hrest, htdiAt, htmsAt, hlen,
        hcount, hpadTms, hpadTdi]

/-- Whatever decodes is the encoding of a well-formed instruction, and every such encoding decodes. -/
theorem decode_ok_iff {c : Code} {i : Instr} : decode c = .ok i ↔ encode i = c ∧ i.WellFormed = true := by
  cases c with
  | word w => exact decodeWord_ok_iff
  | frame bs => exact decodeFrame_ok_iff

/-- Settles O1: the encoding of a well-formed instruction decodes to it. -/
theorem decodeInvertsEncode : Obligations.DecodeInvertsEncode :=
  fun _ hwf => decode_ok_iff.2 ⟨rfl, hwf⟩

/-- Settles O2: only the encoding of a well-formed instruction decodes. -/
theorem decodedCodeIsTheEncoding : Obligations.DecodedCodeIsTheEncoding :=
  fun _ _ => decode_ok_iff.1

/-- Settles O3: each code is the encoding of its instruction, bit by bit. -/
theorem wordsOfTheSpecDecode : Obligations.WordsOfTheSpecDecode := by
  refine ⟨?_, ?_, ?_, ?_, ?_, ?_, ?_, decodeFrame_ok_iff.2 ⟨rfl, rfl⟩⟩ <;>
    exact decodeWord_ok_iff.2 ⟨rfl, rfl⟩

/-- Settles O6: the two tables, entry by entry. -/
theorem codesOfTheSpec : Obligations.CodesOfTheSpec :=
  ⟨rfl, rfl, rfl, rfl, rfl, rfl, rfl, rfl, rfl⟩

/-! ### The frame of a batch -/

/-- Byte `j` of the count field is bits `8*j` to `8*j + 7` of the number (R71). -/
theorem getD_le32 (n : Nat) {j : Nat} (hj : j < 4) :
    (le32 n).getD j 0#8 = (BitVec.ofNat 32 n).extractLsb' (8 * j) 8 := by
  interval_cases j <;> apply BitVec.eq_of_toNat_eq <;> simp [le32, Nat.shiftRight_eq_div_pow] <;> omega

/-- Settles O4, part by part of the frame. -/
theorem frameLayout : Obligations.FrameLayout := by
  intro s
  obtain ⟨htag, hle32, hrest⟩ := shiftFrame_sections s.nbits (Memory.readRange s.tms 0 s.nbytes)
    (Memory.readRange s.tdi 0 s.nbytes)
  rw [← State.frame] at htag hle32 hrest
  have getD_rest : ∀ i, s.frame.getD (10 + i) 0#8
      = (Memory.readRange s.tms 0 s.nbytes ++ Memory.readRange s.tdi 0 s.nbytes).getD i 0#8 := fun i => by
    rw [← hrest, List.getD_eq_getElem?_getD, List.getD_eq_getElem?_getD, List.getElem?_drop]
  refine ⟨?_, htag, fun j hj => ?_, fun i hi => ?_, fun i hi => ?_⟩
  · rw [State.frame, length_shiftFrame, Memory.length_readRange, Memory.length_readRange]; omega
  · rw [← getD_le32 s.nbits hj, ← hle32, List.getD_eq_getElem?_getD, List.getD_eq_getElem?_getD,
      List.getElem?_take_of_lt hj, List.getElem?_drop]
  · rw [getD_rest, List.getD_append _ _ _ _ (by simpa using hi), Memory.getD_readRange _ _ _ _ hi,
      Nat.zero_add]
  · rw [Nat.add_assoc, getD_rest, List.getD_append_right _ _ _ _ (by simp), Memory.length_readRange,
      Nat.add_sub_cancel_left, Memory.getD_readRange _ _ _ _ hi, Nat.zero_add]

/-- Settles O5: the sections are cut from the planes, and the request they make is well formed. -/
theorem frameOfABatchIsAWellFormedRequest : Obligations.FrameOfABatchIsAWellFormedRequest := by
  intro s h ho h0
  have hsection : ∀ (m : Memory) i, i < s.nbytes →
      (Memory.readRange m 0 s.nbytes).getD i 0#8 = Memory.read m i := fun m i hi => by
    rw [Memory.getD_readRange _ _ _ _ hi, Nat.zero_add]
  obtain ⟨hwf, _⟩ := h.sound.isRequest_batch ho h0
  exact ⟨_, _, hwf, rfl, Memory.length_readRange .., Memory.length_readRange .., hsection s.tms, hsection s.tdi⟩

end Sys2Proof.Machine
end

section
/-! What a step takes from the command port (spec/30_encoding.md R60, R66), and the wire transaction of a
shift request (R69, R73; log 4). -/

namespace Sys2Proof.Machine

/-- Settles O12: the accepted state is the one the statement writes out. -/
theorem stepRunsTheDecodedCommand : Obligations.StepRunsTheDecodedCommand := by
  intro s w later i hh hc hd
  rw [step_of_command hc hh hd, State.accept, hh, List.tail_cons]

/-- A word the decoder rejects, offered to an idle block, is answered and nothing else (R66, log 3). -/
theorem step_of_illegal {s : State} {w : Word} {later : List HostInput} (hc : s.cph = .idle)
    (hh : s.host = .command w :: later) (hw : IllegalWord w) :
    step s = .next ((s.accept w).respond .illegalCommand) := by
  obtain ⟨e, hd⟩ := illegalWord_iff.1 hw
  have hport : s.portEvent = .command w := by simp [State.portEvent, hh, State.cmdReady, hc]
  simp only [step, hport, hd, State.rejectIllegal]

/-- Settles O14: accepting the word and answering it touch the command port only. -/
theorem illegalWordChangesNothing : Obligations.IllegalWordChangesNothing := by
  intro s w later hh hc hw
  have hplanes : SamePlanes s ((s.accept w).respond .illegalCommand) := fun p i => by
    rw [State.respond_plane, State.accept_plane]
  exact ⟨_, step_of_illegal hc hh hw, rfl, rfl, hplanes, ⟨rfl, rfl⟩, ⟨rfl, rfl⟩,
    ⟨rfl, rfl, rfl, rfl, rfl, rfl⟩, rfl, rfl, ⟨rfl, rfl, rfl, rfl⟩, rfl,
    by rw [State.respond_host, State.accept_host, hh, List.tail_cons]⟩

/-- A shift request in a live session whose response comes is its wire transaction (log 4). -/
theorem execShiftReq_received {s t : State} {n : Nat} {tms tdi : List Byte} (ho : s.isOpen = true)
    (he : s.err = false) (hN : ceil8 n ≤ s.cap) (hx : s.exchange n tms tdi = .received t) :
    exec (.shiftReq n tms tdi) s = .next t := by
  change execShiftReq n tms tdi s = .next t
  rw [execShiftReq, if_neg (by simp [ho, he]), if_neg (by omega), hx]

/-- The response lands in the receive buffer from index 0 up, and the rest of it stays (R125). -/
theorem read_response {m : Memory} (hm : Memory.wf m = true) {bs : List Byte} {N : Nat}
    (hN : N ≤ bs.length) (i : Nat) :
    Memory.read (Memory.writeRange m 0 (bs.take N)) i = if i < N then bs.getD i 0#8 else Memory.read m i := by
  rw [Memory.read_writeRange hm, Nat.sub_zero, List.length_take, Nat.min_eq_left hN]
  by_cases hi : i < N <;> simp [hi, List.getD_eq_getElem?_getD]

/-- Settles O35: the wire transaction that receives its response, field by field. -/
theorem shiftRequestExchangesBytes : Obligations.ShiftRequestExchangesBytes := by
  intro s n tms tdi arriving later ho he hN hm ha hl
  have hx := State.exchange_of_bytes (n := n) (a := tms) (b := tdi) (State.nextAnswer_cons s ha) hl
  obtain ⟨hf, hcph, hfph⟩ := State.exchange_received_frame hx
  refine ⟨_, execShiftReq_received ho he hN hx, by simp, fun i hi => ?_, fun i hi => ?_, by simp,
    by simp [ha], hf.cmps, hf.responses, fun p i => by rw [hf.plane], ⟨hf.byteIdx, hf.bitMask⟩,
    ⟨hf.err, hf.errKind⟩,
    ⟨hf.diagValid, hf.diagIndex, hf.diagObs, hf.diagMask, hf.diagExp, hf.events⟩,
    hf.isOpen, hcph, hfph, ⟨hf.cap, hf.host⟩⟩
  · rw [State.onWire_obs, read_response hm hl, if_pos hi]
  · rw [State.onWire_obs, read_response hm hl, if_neg (by omega)]

end Sys2Proof.Machine
end

section
/-! The absence of faults (spec/40_bitplane_cursor.md R92, spec/60_exceptions.md R166): the cursor of the
invariant leaves room for every access, and without room a RECORD is the fault. -/

namespace Sys2Proof.Machine

variable {s : State} {f : Fault}

/-! ### The procedures of the block -/

/-- The batch of a running command fits the planes, a full one too, so no flush reads beyond them
(R14, R48). -/
theorem Sound.flush_ne_bad (h : Sound s) : s.flush ≠ .bad f := by
  intro hbad
  obtain ⟨_, _, _, hlong⟩ := State.flush_bad hbad
  have hfits : s.nbytes ≤ s.cap := State.nbytes_le h.batch.one_hot h.batch.in_range
  omega

/-- Between two procedures there is room for the next cycle (R25 item 5). -/
theorem Live.recordCycle_ne_bad (h : Live s) (a b c d e : Bool) : s.recordCycle a b c d e ≠ .bad f := by
  rcases s.recordCycle_cases a b c d e with ⟨_, hr⟩ | ⟨he, hfull, _⟩ | ⟨he, hlt, _, hr⟩ | ⟨_, _, _, _, hr⟩
  · rw [hr]; exact Ran.noConfusion
  · exact absurd (h.room he) (by omega)
  · rw [hr]; exact (h.sound.afterCycle he hlt a b c d).flush_ne_bad
  · rw [hr]; exact Ran.noConfusion

/-- Each idle cycle leaves the room that the next one needs. -/
theorem Live.idleCycles_ne_bad (h : Live s) (tms : Bool) (n : Nat) : s.idleCycles tms n ≠ .bad f := by
  induction n generalizing s with
  | zero => exact Ran.noConfusion
  | succ n ih =>
    have hlive := h.setWcnt n
    unfold State.idleCycles
    split
    · next t ht =>
      have hnext := hlive.recordCycle tms false false false false
      rw [ht] at hnext
      exact ih hnext
    · exact hlive.recordCycle_ne_bad tms false false false false

theorem Live.waitBody_ne_bad (h : Live s) (tms : Bool) (n : Nat) : s.waitBody tms n ≠ .bad f := by
  have hlive := h.enterWait n
  have hcycles := hlive.idleCycles tms n
  unfold State.waitBody
  cases hr : (s.enterWait n).idleCycles tms n with
  | bad g => exact absurd hr (hlive.idleCycles_ne_bad tms n)
  | hung t => exact Ran.noConfusion
  | done first t =>
    rw [hr] at hcycles
    dsimp only
    cases hr' : t.flush with
    | bad g => exact absurd hr' hcycles.sound.flush_ne_bad
    | hung u => exact Ran.noConfusion
    | done st u => exact Ran.noConfusion

theorem Live.body_ne_bad (h : Live s) (i : Instr) : s.body i ≠ .bad f := by
  cases i with
  | setup => exact Ran.noConfusion
  | record a b c d e => exact h.recordCycle_ne_bad a b c d e
  | wait tms n => exact h.waitBody_ne_bad tms n
  | flush => exact h.sound.flush_ne_bad
  | shiftReq n a b => exact Ran.noConfusion
  | shutdown =>
    unfold State.body
    cases hr : s.flush with
    | bad g => exact absurd hr h.sound.flush_ne_bad
    | hung t => exact Ran.noConfusion
    | done st t => exact Ran.noConfusion

/-! ### The step -/

/-- A procedure faults where it is bad, and nowhere else. -/
theorem Ran.outcome_eq_fault_iff {r : Ran} : r.outcome = .fault f ↔ r = .bad f := by
  cases r <;> simp [Ran.outcome]

/-- No procedure refuses: a refusal is the decoder's (R163). -/
theorem Ran.outcome_ne_refused (r : Ran) (q : Refusal) : r.outcome ≠ .refused q := by
  cases r <;> simp [Ran.outcome]

/-- A command in a session is its procedure; SETUP, and a command without a session, always answer. -/
theorem exec_next_or_body {w : Word} {i : Instr} (hd : decodeWord w = .ok i) :
    (∃ t, exec i s = .next t) ∨ (s.isOpen = true ∧ exec i s = (s.body i).outcome) := by
  have gate (r : Ran) : (∃ t, s.inSession r = .next t) ∨ (s.isOpen = true ∧ s.inSession r = r.outcome) := by
    cases ho : s.isOpen with
    | false => exact .inl ⟨_, State.inSession_closed ho r⟩
    | true => exact .inr ⟨rfl, State.inSession_open ho r⟩
  cases i with
  | setup => exact .inl ⟨_, rfl⟩
  | record a b c d e => exact gate _
  | wait tms n => exact gate _
  | flush => exact gate _
  | shutdown => exact gate _
  | shiftReq n a b => exact absurd hd decodeWord_not_shift

/-- Every step either answers a next state or is the procedure of a command accepted in a session. -/
theorem step_next_or_body (s : State) :
    (∃ t, step s = .next t) ∨
      ∃ w i, s.cph = .idle ∧ s.isOpen = true ∧ step s = ((s.accept w).body i).outcome := by
  cases hh : s.host with
  | nil => exact .inl ⟨s, by simp [step, State.portEvent, hh]⟩
  | cons input later =>
    cases input with
    | reset => exact .inl ⟨s.popHost.hardwareReset, by simp [step, State.portEvent, hh]⟩
    | command w =>
      by_cases hc : s.cph = .idle
      · cases hd : decodeWord w with
        | error e => exact .inl ⟨_, step_of_illegal hc hh (illegalWord_iff.2 ⟨e, hd⟩)⟩
        | ok i =>
          rw [step_of_command hc hh hd]
          exact (exec_next_or_body hd).imp_right fun ⟨ho, hb⟩ => ⟨w, i, hc, ho, hb⟩
      · exact .inl ⟨s, by simp [step, State.portEvent, State.cmdReady, hh, hc]⟩

/-- Settles O46: what does not answer is a procedure, which from the invariant is never bad and from no
state refuses. -/
theorem noStepFaults : Obligations.NoStepFaults := by
  refine ⟨fun s f h hfault => ?_, fun s q hrefused => ?_⟩
  · rcases step_next_or_body s with ⟨t, ht⟩ | ⟨w, i, hc, ho, hb⟩
    · rw [ht] at hfault; cases hfault
    · have hlive : Live (s.accept w) := ⟨h.accept hc w, ho, hc⟩
      exact hlive.body_ne_bad i (Ran.outcome_eq_fault_iff.1 (hb.symm.trans hfault))
  · rcases step_next_or_body s with ⟨t, ht⟩ | ⟨w, i, _, _, hb⟩
    · rw [ht] at hrefused; cases hrefused
    · exact Ran.outcome_ne_refused _ q (hb.symm.trans hrefused)

/-! ### The overflow -/

/-- Settles O25: `set_bit` needs `BYTE_IDX < CAP_BYTES`. -/
theorem overflowIsInvariantViolation : Obligations.OverflowIsInvariantViolation := by
  intro s tms tdi tdo compare sync ho he hfull
  change s.inSession (s.recordCycle tms tdi tdo compare sync) = _
  rw [State.inSession_open ho, State.recordCycle_full he hfull.ge, Ran.outcome_eq_fault_iff]

end Sys2Proof.Machine
end

section
/-! RECORD (spec/41_shift_accumulator.md): in the failed state it only answers, with room it stores its cycle,
and a RECORD that flushes is the flush of the batch with its own cycle in it. -/

namespace Sys2Proof.Machine

variable {s : State}

/-! ### The two commands in a session -/

theorem exec_record_of_isOpen (ho : s.isOpen = true) (tms tdi tdo compare sync : Bool) :
    exec (.record tms tdi tdo compare sync) s = (s.recordCycle tms tdi tdo compare sync).outcome :=
  State.inSession_open ho _

theorem exec_flush_of_isOpen (ho : s.isOpen = true) : exec .flush s = s.flush.outcome :=
  State.inSession_open ho _

/-- A status to the host changes no register that the host can see. -/
theorem onlyAnswers_respond (s : State) (st : Status) : OnlyAnswers s (s.respond st) st := by
  have hplanes : SamePlanes s (s.respond st) := fun p i => by rw [State.respond_plane]
  exact ⟨⟨rfl, rfl, rfl⟩, hplanes, ⟨rfl, rfl⟩, ⟨rfl, rfl⟩, ⟨rfl, rfl, rfl, rfl, rfl, rfl⟩, rfl, rfl,
    ⟨rfl, rfl, rfl, rfl⟩, ⟨rfl, rfl⟩⟩

/-- Settles O22: in the failed state `record_cycle` ends before its first `set_bit`. -/
theorem recordInTheFailedState : Obligations.RecordInTheFailedState := by
  intro s tms tdi tdo compare sync ho he
  refine ⟨s.respond .alreadyFailed, ?_, onlyAnswers_respond s _⟩
  rw [exec_record_of_isOpen ho, State.recordCycle_failed he, Ran.outcome]

/-! ### A RECORD with room to spare -/

/-- At the cursor the four planes hold the bits of the cycle, since they held 0 there (R25 item 2, R102). -/
theorem Sound.bitAt_afterCycle_own (h : Sound s) (ho : s.isOpen = true) (tms tdi tdo compare : Bool) :
    Memory.bitAt (s.afterCycle tms tdi tdo compare).tms s.nbits = tms
      ∧ Memory.bitAt (s.afterCycle tms tdi tdo compare).tdi s.nbits = tdi
      ∧ Memory.bitAt (s.afterCycle tms tdi tdo compare).tdoExp s.nbits = (tdo && compare)
      ∧ Memory.bitAt (s.afterCycle tms tdi tdo compare).mask s.nbits = compare := by
  have hzero : ∀ p, Memory.bitAt (s.plane p) s.nbits = false := fun p => h.batch.zero_beyond ho p _ le_rfl
  have hexp := State.bitAt_afterCycle s tms tdi tdo compare .tdoExp h.storage.planes_wf h.batch.one_hot s.nbits
  have hmask := State.bitAt_afterCycle s tms tdi tdo compare .mask h.storage.planes_wf h.batch.one_hot s.nbits
  rw [hzero, decide_eq_true rfl, Bool.true_and, Bool.false_or] at hexp hmask
  obtain ⟨htms, htdi⟩ := h.bitAt_afterCycle_nbits ho tms tdi tdo compare
  exact ⟨htms, htdi, hexp, hmask⟩

/-- Everywhere else the planes are as before (R102). -/
theorem Sound.bitAt_afterCycle_of_ne (h : Sound s) (tms tdi tdo compare : Bool) (p : Plane) {k : Nat}
    (hk : k ≠ s.nbits) :
    Memory.bitAt ((s.afterCycle tms tdi tdo compare).plane p) k = Memory.bitAt (s.plane p) k := by
  rw [State.bitAt_afterCycle s _ _ _ _ p h.storage.planes_wf h.batch.one_hot, decide_eq_false hk,
    Bool.false_and, Bool.or_false]

/-- Settles O21: with room and no `sync` the command is the stored cycle and its status. -/
theorem recordStoresTheCycle : Obligations.RecordStoresTheCycle := by
  intro s tms tdi tdo compare h ho hc he hl
  have hf := s.afterCycle_frame tms tdi tdo compare
  have hrun : s.recordCycle tms tdi tdo compare false = .done .ok (s.afterCycle tms tdi tdo compare) := by
    rw [State.recordCycle_room he (h.room hc he), if_neg (by simp [hl])]
  obtain ⟨htms, htdi, hexp, hmask⟩ := h.sound.bitAt_afterCycle_own ho tms tdi tdo compare
  refine ⟨(s.afterCycle tms tdi tdo compare).respond .ok, ?_, ⟨?_, rfl, rfl⟩, htms, htdi, hexp, hmask,
    fun p k hk => ?_, ?_, ?_, State.nbits_afterCycle h.one_hot .., ⟨hf.err, hf.errKind⟩,
    ⟨hf.diagValid, hf.diagIndex, hf.diagObs, hf.diagMask, hf.diagExp, hf.events⟩, hf.isOpen, hf.obs,
    ⟨hf.tx, hf.rx, hf.answers, hf.cmps⟩, ⟨hf.cap, hf.host⟩⟩
  · rw [exec_record_of_isOpen ho, hrun, Ran.outcome]
  · rw [State.respond_responses, hf.responses, hf.hid]
  · rw [State.respond_plane, h.sound.bitAt_afterCycle_of_ne _ _ _ _ p hk]
  · rw [State.respond_byteIdx, State.afterCycle_byteIdx, State.moveCursor_byteIdx]
  · rw [State.respond_bitMask, State.afterCycle_bitMask, State.moveCursor_bitMask]

/-! ### A RECORD that flushes -/

/-- Settles O23: `record_cycle` ends in the one flush of the stored cycle, which FLUSH runs too. -/
theorem recordFlushesItsOwnCycle : Obligations.RecordFlushesItsOwnCycle := by
  intro s tms tdi tdo compare sync ho he hroom hflush
  have hopen : (s.afterCycle tms tdi tdo compare).isOpen = true := (s.afterCycle_frame ..).isOpen.trans ho
  rw [exec_record_of_isOpen ho, State.recordCycle_room he hroom, if_pos hflush, exec_flush_of_isOpen hopen]

/-- The state of a flush once its response is in `OBS` (R124, R125). -/
def State.withResponse (s : State) (arriving : List Byte) : State :=
  s.onWire s.frame ((s.rx ++ arriving).drop s.nbytes)
    (Memory.writeRange s.obs 0 ((s.rx ++ arriving).take s.nbytes))

/-- A response that comes in full is received (R125). -/
theorem State.request_withResponse {arriving : List Byte} {later : List Answer}
    (ha : s.answers = .bytes arriving :: later) (hl : s.nbytes ≤ (s.rx ++ arriving).length) :
    s.request = .received (s.withResponse arriving) :=
  State.exchange_of_bytes (State.nextAnswer_cons s ha) hl

/-- Whether a byte agrees is decided by the response byte of its index (R125, R127). -/
theorem State.agreesAt_withResponse (hm : Memory.wf s.obs = true) {arriving : List Byte}
    (hl : s.nbytes ≤ (s.rx ++ arriving).length) {i : Nat} (hi : i < s.nbytes) :
    (s.withResponse arriving).agreesAt i = true ↔
      Memory.read s.tdoExp i = (s.rx ++ arriving).getD i 0#8 &&& Memory.read s.mask i := by
  simp [State.agreesAt, byteAgrees, State.withResponse, read_response hm hl, hi]

/-- A response received leaves all but the streams, `OBS` and the transport's answers (R125). -/
theorem State.withResponse_frame (s : State) (arriving : List Byte) :
    State.WireFrame s (s.withResponse arriving) := by
  unfold State.withResponse
  constructor <;> simp

/-- The state after a flush whose response verifies: every byte compared, the batch cleared (R129). -/
def State.verified (s : State) (arriving : List Byte) : State :=
  ((s.withResponse arriving).countCmps s.nbytes).clearAndReset.forgetObs

theorem State.emptyBatch_verified (s : State) (arriving : List Byte) : EmptyBatch (s.verified arriving) := by
  refine ⟨fun p i => ?_, rfl, rfl⟩
  rw [State.verified, State.forgetObs_plane, State.clearAndReset_plane, Memory.read_nil]

/-- A flush of a pending batch whose `N` response bytes all agree (R129). -/
theorem State.flush_verified {arriving : List Byte} {later : List Answer} (he : s.err = false)
    (h0 : 0 < s.nbits) (hN : s.nbytes ≤ s.cap) (hm : Memory.wf s.obs = true)
    (ha : s.answers = .bytes arriving :: later) (hl : s.nbytes ≤ (s.rx ++ arriving).length)
    (hagree : ∀ i, i < s.nbytes →
      Memory.read s.tdoExp i = (s.rx ++ arriving).getD i 0#8 &&& Memory.read s.mask i) :
    s.flush = .done .ok (s.verified arriving) := by
  have hnone : (s.withResponse arriving).firstMismatch 0 s.nbytes = none := by
    refine State.firstMismatch_eq_none.2 fun i _ hi => ?_
    rw [Nat.zero_add] at hi
    exact (State.agreesAt_withResponse hm hl hi).2 (hagree i hi)
  rw [State.flush_io h0 he hN, State.request_withResponse ha hl]
  simp only [State.verify, hnone, State.verified]

/-- Settles O24: the RECORD is the verified flush of the batch with its own cycle, which fits the planes. -/
theorem recordThatFlushesVerified : Obligations.RecordThatFlushesVerified := by
  intro s r tms tdi tdo compare sync arriving later h ho hc he hflush hr ha hl hagree
  have hroom : s.byteIdx < s.cap := h.room hc he
  have hf : State.CycleFrame s r := hr ▸ s.afterCycle_frame tms tdi tdo compare
  have hsound : Sound r := hr ▸ h.sound.afterCycle he hroom tms tdi tdo compare
  have hpending : 0 < r.nbits := by rw [hr, State.nbits_afterCycle h.one_hot]; omega
  have hfits : r.nbytes ≤ r.cap := State.nbytes_le hsound.batch.one_hot hsound.batch.in_range
  rw [← hf.rx] at hl hagree ⊢
  have hexec : exec (.record tms tdi tdo compare sync) s = exec .flush r :=
    hr ▸ recordFlushesItsOwnCycle s tms tdi tdo compare sync ho he hroom hflush
  have hrun : r.flush = .done .ok (r.verified arriving) :=
    State.flush_verified (hf.err.trans he) hpending hfits hsound.storage.obs_wf (hf.answers.trans ha) hl hagree
  have hw := r.withResponse_frame arriving
  refine ⟨(r.verified arriving).respond .ok, ?_, ⟨?_, rfl, rfl⟩, ?_, ?_, ?_, ?_, ?_,
    ⟨hw.err.trans hf.err, hw.errKind.trans hf.errKind⟩,
    ⟨hw.diagValid.trans hf.diagValid, hw.diagIndex.trans hf.diagIndex, hw.diagObs.trans hf.diagObs,
      hw.diagMask.trans hf.diagMask, hw.diagExp.trans hf.diagExp, hw.events.trans hf.events⟩,
    hw.isOpen.trans hf.isOpen, ⟨hw.cap.trans hf.cap, hw.host.trans hf.host⟩⟩
  · rw [hexec, exec_flush_of_isOpen (hf.isOpen.trans ho), hrun, Ran.outcome]
  · simp [State.verified, hw.responses, hw.cmd, hf.responses, hf.hid]
  · exact r.emptyBatch_verified arriving
  · simp [State.verified, State.withResponse, hf.tx]
  · simp [State.verified, State.withResponse]
  · simp [State.verified, State.withResponse, hf.answers, ha]
  · simp [State.verified, hw.cmps, hf.cmps]

end Sys2Proof.Machine
end

section
/-! WAIT (spec/42_delay_emulator.md): its counters touch nothing that a procedure reads, each idle cycle is
followed by the rest of the WAIT or ends it, and no idle cycle writes a plane other than TMS. -/

namespace Sys2Proof.Machine

variable {s t : State} {st : Status} {tms : Bool}

/-! ### The counters of WAIT -/

theorem State.orBit_enterWait (s : State) (k : Nat) (p : Plane) (v : Bool) :
    (s.enterWait k).orBit p v = (s.orBit p v).enterWait k := by
  cases v
  · rfl
  · cases p <;> rfl

theorem State.moveCursor_enterWait (s : State) (k : Nat) :
    (s.enterWait k).moveCursor = s.moveCursor.enterWait k := by
  by_cases h : s.bitMask = 0x80#8 <;> simp only [State.moveCursor, State.enterWait_bitMask, h] <;> rfl

theorem State.afterCycle_enterWait (s : State) (k : Nat) (tms tdi tdo compare : Bool) :
    (s.enterWait k).afterCycle tms tdi tdo compare = (s.afterCycle tms tdi tdo compare).enterWait k := by
  cases compare <;> simp [State.afterCycle, State.orBit_enterWait, State.moveCursor_enterWait]

theorem State.dropAnswer_enterWait (s : State) (k : Nat) :
    (s.enterWait k).dropAnswer = s.dropAnswer.enterWait k := by
  cases h : s.answers <;> simp only [State.dropAnswer, State.enterWait_answers, h] <;> rfl

theorem State.onWire_enterWait (s : State) (k : Nat) (sent rxAfter : List Byte) (obs : Memory) :
    (s.enterWait k).onWire sent rxAfter obs = (s.onWire sent rxAfter obs).enterWait k := by
  simp only [State.onWire, State.dropAnswer_enterWait]; rfl

/-- The wire transaction of a block that has begun a WAIT. -/
def Wire.enterWait (k : Nat) : Wire → Wire
  | .received t => .received (t.enterWait k)
  | .linkDown t => .linkDown (t.enterWait k)
  | .stalled t => .stalled (t.enterWait k)

/-- The end of a procedure of a block that has begun a WAIT. -/
def Ran.enterWait (k : Nat) : Ran → Ran
  | .done st t => .done st (t.enterWait k)
  | .hung t => .hung (t.enterWait k)
  | .bad f => .bad f

/-- The transport does not see the counters. -/
theorem State.exchange_enterWait (s : State) (k n : Nat) (a b : List Byte) :
    (s.enterWait k).exchange n a b = (s.exchange n a b).enterWait k := by
  have hnext : (s.enterWait k).nextAnswer = s.nextAnswer := rfl
  unfold State.exchange
  rw [hnext]
  cases s.nextAnswer with
  | never j => simp only [State.onWire_enterWait]; rfl
  | linkFail j rxAfter => simp only [State.onWire_enterWait]; rfl
  | bytes arriving =>
    simp only [State.onWire_enterWait, State.enterWait_rx, State.enterWait_obs]
    split <;> rfl

theorem State.firstMismatch_enterWait (s : State) (k i bytes : Nat) :
    (s.enterWait k).firstMismatch i bytes = s.firstMismatch i bytes := by
  induction bytes generalizing i with
  | zero => rfl
  | succ bytes ih => simp only [State.firstMismatch, ih]; rfl

theorem State.verify_enterWait (s : State) (k bytes : Nat) :
    (s.enterWait k).verify bytes = ((s.verify bytes).1, (s.verify bytes).2.enterWait k) := by
  unfold State.verify
  rw [State.firstMismatch_enterWait]
  cases s.firstMismatch 0 bytes <;> rfl

/-- A flush inside a WAIT is the flush outside it (R137). -/
theorem State.flush_enterWait (s : State) (k : Nat) : (s.enterWait k).flush = s.flush.enterWait k := by
  have hbatch : (s.enterWait k).nbytes = s.nbytes := rfl
  unfold State.flush
  simp only [State.nbits_enterWait, State.enterWait_err, State.enterWait_cap, hbatch, State.enterWait_tms,
    State.enterWait_tdi, State.exchange_enterWait]
  split
  · rfl
  · split
    · rfl
    · split
      · rfl
      · cases s.exchange s.nbits (Memory.readRange s.tms 0 s.nbytes) (Memory.readRange s.tdi 0 s.nbytes) with
        | received t => simp only [Wire.enterWait, State.verify_enterWait]; rfl
        | linkDown t => rfl
        | stalled t => rfl

/-- The status to the host ends the counters with the command (R20). -/
theorem State.respond_enterWait (s : State) (k : Nat) (st : Status) :
    (s.enterWait k).respond st = s.respond st := rfl

/-! ### The idle cycles and the trailing flush -/

theorem exec_wait_of_isOpen (ho : s.isOpen = true) (tms : Bool) (count : Nat) :
    exec (.wait tms count) s = (s.waitBody tms count).outcome :=
  State.inSession_open ho _

theorem exec_wait_of_closed (ho : s.isOpen = false) (tms : Bool) (count : Nat) :
    exec (.wait tms count) s = .next (s.respond .noSession) :=
  State.inSession_closed ho _

/-- The counter of the entry and of its first count is that of an entry with one cycle less (R134). -/
theorem State.setWcnt_enterWait (s : State) (k n : Nat) : (s.enterWait n).setWcnt k = s.enterWait k := rfl

/-- An idle cycle with room is stored, and flushed at capacity (R103, R111). -/
theorem State.recordCycle_enterWait (he : s.err = false) (hroom : s.byteIdx < s.cap) (tms : Bool) (k : Nat) :
    (s.enterWait k).recordCycle tms false false false false
      = if s.atLastBit = true then (s.afterCycle tms false false false).flush.enterWait k
        else .done .ok ((s.afterCycle tms false false false).enterWait k) := by
  have hlast : (s.enterWait k).atLastBit = s.atLastBit := rfl
  rw [State.recordCycle_room (s := s.enterWait k) he hroom, State.afterCycle_enterWait, State.flush_enterWait, hlast]
  simp

/-- A WAIT of no cycles is its trailing flush (R112). -/
theorem State.waitBody_zero (s : State) (tms : Bool) : s.waitBody tms 0 = s.flush.enterWait 0 := by
  rw [← State.flush_enterWait]
  simp only [State.waitBody, State.idleCycles, if_true]
  cases (s.enterWait 0).flush <;> rfl

/-- An idle cycle that answers `Ok` is followed by the rest of the WAIT (R111). -/
theorem State.waitBody_succ_of_ok {k : Nat}
    (h : (s.enterWait k).recordCycle tms false false false false = .done .ok (t.enterWait k)) :
    s.waitBody tms (k + 1) = t.waitBody tms k := by
  simp only [State.waitBody, State.idleCycles, State.setWcnt_enterWait, h]

/-- An idle cycle that fails ends the WAIT with its status: the trailing flush finds `ERR` set (R113, R114). -/
theorem State.waitBody_succ_of_failed {k : Nat}
    (h : (s.enterWait k).recordCycle tms false false false false = .done st t) (hst : st ≠ .ok)
    (he : t.err = true) : s.waitBody tms (k + 1) = .done st t := by
  obtain ⟨trailing, hflush⟩ := State.flush_failed he
  have hidle : (s.enterWait (k + 1)).idleCycles tms (k + 1) = .done st t := by
    rw [State.idleCycles, State.setWcnt_enterWait, h]
    cases st with
    | ok => exact absurd rfl hst
    | _ => rfl
  simp only [State.waitBody, hidle, hflush, if_neg hst]

/-- A WAIT that answers does so after its trailing flush: with the first failure, or else with the flush's
status (R112, R114). -/
theorem State.waitBody_done {count : Nat} (h : s.waitBody tms count = .done st t) :
    ∃ first u trailing, (s.enterWait count).idleCycles tms count = .done first u
      ∧ u.flush = .done trailing t ∧ st = if first = .ok then trailing else first := by
  unfold State.waitBody at h
  cases hi : (s.enterWait count).idleCycles tms count with
  | bad f => rw [hi] at h; cases h
  | hung u => rw [hi] at h; cases h
  | done first u =>
    rw [hi] at h
    dsimp only at h
    cases hf : u.flush with
    | bad f => rw [hf] at h; cases h
    | hung v => rw [hf] at h; cases h
    | done trailing v => rw [hf] at h; cases h; exact ⟨first, u, trailing, rfl, hf, rfl⟩

/-- Settles O38: with no idle cycle only the trailing flush is left, and its answer ends the counters. -/
theorem waitOfZeroCyclesIsFlush : Obligations.WaitOfZeroCyclesIsFlush := by
  intro s t tms ho hflush hc
  rw [exec_flush_of_isOpen ho] at hflush
  rw [exec_wait_of_isOpen ho, State.waitBody_zero]
  rcases Ran.outcome_next hflush with ⟨st, u, hr, rfl⟩ | hr
  · rw [hr, Ran.enterWait, Ran.outcome, State.respond_enterWait]
  · obtain ⟨_, _, _, hq⟩ := State.flush_hung hr
    rw [(State.exchange_stalled_frame hq).2.1] at hc
    cases hc

/-- Settles O39: below the last bit the idle cycle is stored and answers `Ok`. -/
theorem waitRecordsOneIdleCycleAtATime : Obligations.WaitRecordsOneIdleCycleAtATime := by
  intro s tms k ho he hroom hlast
  have hcycle : (s.enterWait k).recordCycle tms false false false false
      = .done .ok ((s.afterCycle tms false false false).enterWait k) := by
    rw [State.recordCycle_enterWait he hroom, if_neg (by simp [hlast])]
  have hopen : (s.afterCycle tms false false false).isOpen = true := (s.afterCycle_frame ..).isOpen.trans ho
  rw [exec_wait_of_isOpen ho, exec_wait_of_isOpen hopen, State.waitBody_succ_of_ok hcycle]

/-- Settles O40: the flush that the last bit asks for leaves `ERR` set and does not answer `Ok`. -/
theorem waitAbortsAtAFailingFlush : Obligations.WaitAbortsAtAFailingFlush := by
  intro s t tms k ho he hroom hlast hflush ht
  have hf := s.afterCycle_frame tms false false false
  have hreports := State.flush_reports (hf.err.trans he)
  rw [exec_flush_of_isOpen (hf.isOpen.trans ho)] at hflush
  rcases Ran.outcome_next hflush with ⟨st, u, hr, rfl⟩ | hr <;> rw [hr] at hreports
  · have hu : u.err = true := ht
    have hst : st ≠ .ok := by
      rintro rfl
      exact Bool.false_ne_true (hreports.err_of_ok.symm.trans hu)
    have hcycle : (s.enterWait k).recordCycle tms false false false false = .done st (u.enterWait k) := by
      rw [State.recordCycle_enterWait he hroom, if_pos hlast, hr, Ran.enterWait]
    rw [exec_wait_of_isOpen ho, State.waitBody_succ_of_failed hcycle hst hu, Ran.outcome, State.respond_enterWait]
  · exact absurd (hreports.symm.trans ht) Bool.false_ne_true

/-- A flush in the failed state with a batch pending (R122). -/
theorem State.flush_alreadyFailed (he : s.err = true) (h0 : 0 < s.nbits) :
    s.flush = .done .alreadyFailed s := by
  rw [State.flush, if_neg (by omega), if_pos he]

/-- In the failed state the first idle cycle, or the trailing flush if there is none, finds `ERR` set (R114). -/
theorem State.waitBody_failed (he : s.err = true) (h0 : 0 < s.nbits) (tms : Bool) (count : Nat) :
    ∃ k, s.waitBody tms count = .done .alreadyFailed (s.enterWait k) := by
  cases count with
  | zero => exact ⟨0, by rw [State.waitBody_zero, State.flush_alreadyFailed he h0, Ran.enterWait]⟩
  | succ k =>
    exact ⟨k, State.waitBody_succ_of_failed (State.recordCycle_failed (s := s.enterWait k) he ..) (by simp) he⟩

/-- Settles O42: the WAIT touches its counters only, which its status ends. -/
theorem waitInTheFailedState : Obligations.WaitInTheFailedState := by
  intro s tms count ho he h0
  obtain ⟨k, hr⟩ := State.waitBody_failed he h0 tms count
  refine ⟨s.respond .alreadyFailed, ?_, onlyAnswers_respond s _⟩
  rw [exec_wait_of_isOpen ho, hr, Ran.outcome, State.respond_enterWait]

/-- A WAIT leaves the statuses and its command word to the answer (R28). -/
theorem State.status_of_wait {count : Nat} (ho : s.isOpen = true) (hex : exec (.wait tms count) s = .next t)
    (hresp : t.responses = s.responses ++ [(s.hid.cmd, st)]) :
    ∃ u, s.waitBody tms count = .done st u ∧ t = u.respond st := by
  have hgrows := closed_grows.wait s tms count
  rw [exec_wait_of_isOpen ho] at hex
  rcases Ran.outcome_next hex with ⟨st', u, hr, rfl⟩ | hr
  · have hg := hgrows.done hr
    obtain rfl : st' = st := by simpa [hg.responses, hg.cmd] using hresp
    exact ⟨u, hr, rfl⟩
  · simp [(hgrows.hung hr).responses] at hresp

/-- Settles O43: a WAIT that answers `Ok` has a trailing flush that does. -/
theorem waitThatSucceedsDrains : Obligations.WaitThatSucceedsDrains := by
  intro s t tms count ho hex hok
  obtain ⟨u, hr, rfl⟩ := State.status_of_wait ho hex hok
  obtain ⟨first, v, trailing, _, hf, hst⟩ := State.waitBody_done hr
  have htrailing : trailing = .ok := by
    split at hst
    · exact hst.symm
    · next hfirst => exact absurd hst.symm hfirst
  rw [State.nbits_respond]
  exact State.nbits_of_flush_ok (htrailing ▸ hf)

end Sys2Proof.Machine
end

section
/-! What WAIT leaves of the other three planes (spec/42_delay_emulator.md R115): an idle cycle writes TMS
only, and a flush keeps the planes or clears them, so a batch with nothing compared stays one. -/

namespace Sys2Proof.Machine

variable {s t u : State} {r : Ran} {tms : Bool}

/-- No cycle is compared: MASK and TDO_EXP are all `0x00`. -/
def State.Uncompared (s : State) : Prop :=
  (∀ i, Memory.read s.mask i = 0#8) ∧ ∀ i, Memory.read s.tdoExp i = 0#8

/-- Every plane but TMS is as it was, or cleared. -/
def KeepsOrClears (s t : State) : Prop := ∀ p, p ≠ .tms → t.plane p = s.plane p ∨ t.plane p = []

theorem KeepsOrClears.of_same (h : ∀ p, t.plane p = s.plane p) : KeepsOrClears s t := fun p _ => .inl (h p)

theorem KeepsOrClears.trans (h : KeepsOrClears s t) (h' : KeepsOrClears t u) : KeepsOrClears s u := by
  intro p hp
  rcases h' p hp with e' | e'
  · rw [e']; exact h p hp
  · exact .inr e'

/-- No bit is set that was not set before. -/
theorem KeepsOrClears.no_new_bits (h : KeepsOrClears s t) {p : Plane} (hp : p ≠ .tms) (i : Nat) :
    Memory.read (t.plane p) i &&& ~~~(Memory.read (s.plane p) i) = 0#8 := by
  rcases h p hp with e | e
  · rw [e]; simp
  · rw [e, Memory.read_nil, BitVec.zero_and]

theorem KeepsOrClears.reads_zero (h : KeepsOrClears s t) {p : Plane} (hp : p ≠ .tms)
    (hzero : ∀ i, Memory.read (s.plane p) i = 0#8) (i : Nat) : Memory.read (t.plane p) i = 0#8 := by
  rcases h p hp with e | e <;> rw [e]
  · exact hzero i
  · exact Memory.read_nil i

theorem KeepsOrClears.uncompared (h : KeepsOrClears s t) (hs : s.Uncompared) : t.Uncompared :=
  ⟨h.reads_zero (p := .mask) (by simp) hs.1, h.reads_zero (p := .tdoExp) (by simp) hs.2⟩

/-- A byte that is not compared agrees with every response (R127). -/
theorem State.Uncompared.agreesAt (h : s.Uncompared) (i : Nat) : s.agreesAt i = true := by
  simp [State.agreesAt, byteAgrees, h.1 i, h.2 i]

/-- The procedure, begun in `s`, keeps or clears the three planes and finds no mismatch where nothing is
compared. -/
def Ran.SparesPlanes (s : State) : Ran → Prop
  | .done st t => KeepsOrClears s t ∧ (s.Uncompared → st ≠ .verificationMismatch)
  | .hung t => KeepsOrClears s t
  | .bad _ => True

theorem KeepsOrClears.trans_ran (h : KeepsOrClears s t) (hr : r.SparesPlanes t) : r.SparesPlanes s := by
  cases r with
  | done st u => exact ⟨h.trans hr.1, fun hs => hr.2 (h.uncompared hs)⟩
  | hung u => exact h.trans hr
  | bad f => trivial

/-- The flush, by its outcomes (R130). -/
theorem State.flush_sparesPlanes (s : State) : s.flush.SparesPlanes s := by
  have refl : KeepsOrClears s s := .of_same fun _ => rfl
  cases hr : s.flush with
  | bad f => trivial
  | hung t =>
    obtain ⟨_, _, _, hq⟩ := State.flush_hung hr
    exact .of_same (State.exchange_stalled_frame hq).1.plane
  | done st t =>
    rcases State.flush_done hr with ⟨_, rfl, rfl⟩ | ⟨_, _, rfl, rfl⟩ | ⟨_, _, _, u, hq, i, hi, rfl, rfl⟩
      | ⟨_, _, _, u, hq, _, rfl, rfl⟩ | ⟨_, _, _, u, hq, rfl, rfl⟩
    · exact ⟨refl, by simp⟩
    · exact ⟨refl, by simp⟩
    · have hplane : KeepsOrClears s u := .of_same (State.exchange_received_frame hq).1.plane
      refine ⟨hplane.trans (.of_same (by simp)), fun hs => ?_⟩
      obtain ⟨_, _, hdiffers, _⟩ := State.firstMismatch_eq_some.1 hi
      rw [(hplane.uncompared hs).agreesAt i] at hdiffers
      cases hdiffers
    · exact ⟨fun p _ => .inr (by simp), by simp⟩
    · have hplane : KeepsOrClears s u := .of_same (State.exchange_linkDown_frame hq).1.plane
      exact ⟨hplane.trans (.of_same (by simp)), by simp⟩

/-- An idle cycle has no TDI bit and is not compared (R111). -/
theorem State.keepsOrClears_idle (s : State) (tms : Bool) :
    KeepsOrClears s (s.afterCycle tms false false false) := by
  intro p hp
  have htdi : (s.orBit .tms tms).orBit .tdi false = s.orBit .tms tms := rfl
  exact .inl (by simp [State.afterCycle, htdi, hp])

theorem State.recordCycle_sparesPlanes (s : State) (tms : Bool) :
    (s.recordCycle tms false false false false).SparesPlanes s := by
  have hcycle := s.keepsOrClears_idle tms
  rcases s.recordCycle_cases tms false false false false with ⟨_, hr⟩ | ⟨_, _, hr⟩ | ⟨_, _, _, hr⟩
    | ⟨_, _, _, _, hr⟩ <;> rw [hr]
  · exact ⟨.of_same fun _ => rfl, by simp⟩
  · trivial
  · exact hcycle.trans_ran (State.flush_sparesPlanes _)
  · exact ⟨hcycle, by simp⟩

theorem State.idleCycles_sparesPlanes (s : State) (tms : Bool) (n : Nat) :
    (s.idleCycles tms n).SparesPlanes s := by
  induction n generalizing s with
  | zero => exact ⟨.of_same fun _ => rfl, by simp⟩
  | succ n ih =>
    have hcycle : ((s.setWcnt n).recordCycle tms false false false false).SparesPlanes s :=
      (KeepsOrClears.of_same (by simp)).trans_ran ((s.setWcnt n).recordCycle_sparesPlanes tms)
    unfold State.idleCycles
    split
    · next t ht => rw [ht] at hcycle; exact hcycle.1.trans_ran (ih t)
    · exact hcycle

theorem State.waitBody_sparesPlanes (s : State) (tms : Bool) (count : Nat) :
    (s.waitBody tms count).SparesPlanes s := by
  have hidle : ((s.enterWait count).idleCycles tms count).SparesPlanes s :=
    (KeepsOrClears.of_same (by simp)).trans_ran ((s.enterWait count).idleCycles_sparesPlanes tms count)
  unfold State.waitBody
  cases hr : (s.enterWait count).idleCycles tms count <;> rw [hr] at hidle
  case hung t => exact hidle
  case bad f => trivial
  case done first t =>
    obtain ⟨hkeeps, hfirst⟩ := hidle
    have hflush := hkeeps.trans_ran t.flush_sparesPlanes
    dsimp only
    cases hr' : t.flush <;> rw [hr'] at hflush
    case hung u => exact hflush
    case bad f => trivial
    case done trailing u =>
      obtain ⟨hu, htrailing⟩ := hflush
      refine ⟨hu, fun hs => ?_⟩
      split
      · exact htrailing hs
      · exact hfirst hs

/-- The next state of a WAIT keeps or clears the three planes, with or without a session. -/
theorem keepsOrClears_of_wait {count : Nat} (hex : exec (.wait tms count) s = .next t) :
    KeepsOrClears s t := by
  cases ho : s.isOpen with
  | false =>
    rw [exec_wait_of_closed ho] at hex
    cases hex
    exact .of_same (by simp)
  | true =>
    have hspares := s.waitBody_sparesPlanes tms count
    rw [exec_wait_of_isOpen ho] at hex
    rcases Ran.outcome_next hex with ⟨st, u, hr, rfl⟩ | hr <;> rw [hr] at hspares
    · exact hspares.1.trans (.of_same (by simp))
    · exact hspares

/-- Settles O41: the planes are kept or cleared, and the status is one of a procedure that found no mismatch. -/
theorem waitNeverSetsMaskBits : Obligations.WaitNeverSetsMaskBits := by
  intro s t tms count hex
  have hkeeps := keepsOrClears_of_wait hex
  refine ⟨hkeeps.no_new_bits (p := .mask) (by simp), hkeeps.no_new_bits (p := .tdoExp) (by simp),
    hkeeps.no_new_bits (p := .tdi) (by simp), fun hmask hexp hresp => ?_⟩
  cases ho : s.isOpen with
  | false =>
    rw [exec_wait_of_closed ho] at hex
    cases hex
    simp at hresp
  | true =>
    obtain ⟨u, hr, -⟩ := State.status_of_wait ho hex hresp
    have hspares := s.waitBody_sparesPlanes tms count
    rw [hr] at hspares
    exact hspares.2 ⟨hmask, hexp⟩ rfl

end Sys2Proof.Machine
end

section
/-! The frames of a WAIT (spec/42_delay_emulator.md R116): where nothing compared is pending, every flush of
the WAIT takes one whole response, and the counts of frames are those of the cycles. -/

namespace Sys2Proof.Machine

variable {s t u : State} {tms : Bool} {rs rs' full last : List (List Byte)} {later : List Answer}

/-! ### The responses of a number of cycles -/

/-- These are the responses to `n` pending cycles in planes of `cap` bytes: one of a full section for each full
batch, and one for the remainder if there is one (R116). -/
structure Responses (cap n : Nat) (full last : List (List Byte)) : Prop where
  full_count : full.length = n / (8 * cap)
  full_size : ∀ r ∈ full, r.length = cap
  last_count : last.length = if n % (8 * cap) = 0 then 0 else 1
  last_size : ∀ r ∈ last, r.length = ceil8 (n % (8 * cap))

/-- Nothing pending asks for nothing. -/
theorem Responses.eq_nil {cap : Nat} (h : Responses cap 0 full last) : full = [] ∧ last = [] :=
  ⟨List.length_eq_zero_iff.1 (by simpa using h.full_count), List.length_eq_zero_iff.1 (by simpa using h.last_count)⟩

/-- Less than a full batch asks for one response. -/
theorem Responses.of_partial {cap n : Nat} (h : Responses cap n full last) (h0 : 0 < n) (hn : n < 8 * cap) :
    full = [] ∧ ∃ r, last = [r] ∧ r.length = ceil8 n := by
  have hmod : n % (8 * cap) = n := Nat.mod_eq_of_lt hn
  have hlast := h.last_count
  rw [hmod, if_neg (by omega)] at hlast
  obtain ⟨r, rfl⟩ := List.length_eq_one_iff.1 hlast
  refine ⟨List.length_eq_zero_iff.1 (by rw [h.full_count, Nat.div_eq_of_lt hn]), r, rfl, ?_⟩
  rw [h.last_size r (List.mem_singleton_self r), hmod]

/-- A full batch asks for a full response, and the rest for the rest. -/
theorem Responses.of_full {cap n : Nat} (h : Responses cap (8 * cap + n) full last) (hcap : 0 < cap) :
    ∃ r rest, full = r :: rest ∧ r.length = cap ∧ Responses cap n rest last := by
  obtain ⟨hcount, hsize, hlast, hlastSize⟩ := h
  rw [Nat.add_div_left _ (by omega)] at hcount
  rw [Nat.add_mod_left] at hlast hlastSize
  obtain ⟨r, rest, rfl⟩ := List.exists_cons_of_length_eq_add_one hcount
  refine ⟨r, rest, rfl, hsize r List.mem_cons_self, ⟨?_, ?_, hlast, hlastSize⟩⟩
  · simpa using hcount
  · exact fun x hx => hsize x (List.mem_cons_of_mem _ hx)

theorem sum_map_of_length {f : Nat → Nat} {k : Nat} (h : ∀ r ∈ rs, r.length = k) :
    (rs.map fun r => f r.length).sum = rs.length * f k := by
  rw [List.map_congr_left fun r hr => congrArg f (h r hr)]
  simp

/-- A sum over the responses by their two sizes. -/
theorem Responses.sum_map {cap n : Nat} (h : Responses cap n full last) (f : Nat → Nat) :
    ((full ++ last).map fun r => f r.length).sum
      = full.length * f cap + last.length * f (ceil8 (n % (8 * cap))) := by
  rw [List.map_append, List.sum_append, sum_map_of_length h.full_size, sum_map_of_length h.last_size]

/-! ### A WAIT that is answered -/

/-- From `s` to `t` the transport has given these responses in full: a whole frame went out for each, each of
its bytes was compared, and the status, the error and the session are as before. -/
structure Exchanged (rs : List (List Byte)) (s t : State) : Prop where
  answers : s.answers = rs.map Answer.bytes ++ t.answers
  tx : t.tx.length = s.tx.length + (rs.map fun r => 10 + 2 * r.length).sum
  cmps : t.cmps = s.cmps + (rs.map fun r => r.length).sum
  err : SameErr s t
  diag : SameDiag s t
  isOpen : t.isOpen = s.isOpen
  setting : SameSetting s t
  responses : t.responses = s.responses
  cmd : t.hid.cmd = s.hid.cmd

theorem Exchanged.trans (h : Exchanged rs s t) (h' : Exchanged rs' t u) : Exchanged (rs ++ rs') s u where
  answers := by rw [h.answers, h'.answers, List.map_append, List.append_assoc]
  tx := by rw [h'.tx, h.tx, List.map_append, List.sum_append]; omega
  cmps := by rw [h'.cmps, h.cmps, List.map_append, List.sum_append]; omega
  err := ⟨h'.err.1.trans h.err.1, h'.err.2.trans h.err.2⟩
  diag := by
    obtain ⟨h1, h2, h3, h4, h5, h6⟩ := h.diag
    obtain ⟨h1', h2', h3', h4', h5', h6'⟩ := h'.diag
    exact ⟨h1'.trans h1, h2'.trans h2, h3'.trans h3, h4'.trans h4, h5'.trans h5, h6'.trans h6⟩
  isOpen := h'.isOpen.trans h.isOpen
  setting := ⟨h'.setting.1.trans h.setting.1, h'.setting.2.trans h.setting.2⟩
  responses := h'.responses.trans h.responses
  cmd := h'.cmd.trans h.cmd

theorem Exchanged.of_datapath (e : t.datapath = s.datapath) (hhost : t.host = s.host)
    (hresp : t.responses = s.responses) (hcmd : t.hid.cmd = s.hid.cmd) : Exchanged [] s t := by
  obtain ⟨-, -, herr, hdiag, ⟨htx, -, hanswers, hcmps⟩, hcap⟩ := frozen_of_datapath e
  exact ⟨hanswers.symm, by simp [htx], by simp [hcmps], herr, hdiag, same_of_datapath e State.isOpen,
    ⟨hcap, hhost⟩, hresp, hcmd⟩

theorem Exchanged.of_afterCycle (s : State) (tms tdi tdo compare : Bool) :
    Exchanged [] s (s.afterCycle tms tdi tdo compare) := by
  have hf := s.afterCycle_frame tms tdi tdo compare
  exact ⟨hf.answers.symm, by simp [hf.tx], by simp [hf.cmps], ⟨hf.err, hf.errKind⟩,
    ⟨hf.diagValid, hf.diagIndex, hf.diagObs, hf.diagMask, hf.diagExp, hf.events⟩, hf.isOpen,
    ⟨hf.cap, hf.host⟩, hf.responses, by rw [hf.hid]⟩

theorem State.length_frame (s : State) : s.frame.length = 10 + 2 * s.nbytes := by
  rw [State.frame, length_shiftFrame, Memory.length_readRange, Memory.length_readRange]; omega

theorem Exchanged.of_verified {r : List Byte} (ha : s.answers = .bytes r :: later) (hl : r.length = s.nbytes) :
    Exchanged [r] s (s.verified r) := by
  have hw := s.withResponse_frame r
  exact ⟨by simp [State.verified, State.withResponse, ha],
    by simp [State.verified, State.withResponse, State.length_frame, hl],
    by simp [State.verified, hw.cmps, hl], ⟨hw.err, hw.errKind⟩,
    ⟨hw.diagValid, hw.diagIndex, hw.diagObs, hw.diagMask, hw.diagExp, hw.events⟩, hw.isOpen,
    ⟨hw.cap, hw.host⟩, hw.responses, hw.cmd⟩

theorem State.verified_answers (r : List Byte) : (s.verified r).answers = s.answers.tail := by
  simp [State.verified, State.withResponse]

/-- Of an RX stream that was empty nothing is left by a response of the batch's own length (R125). -/
theorem State.verified_rx {r : List Byte} (hrx : s.rx = []) (hl : r.length = s.nbytes) :
    (s.verified r).rx = [] := by
  simp [State.verified, State.withResponse, hrx, hl]

/-- Before an idle cycle of a WAIT that R116 counts: a session without failure, an empty RX stream and no
compared cycle pending. -/
structure Quiet (s : State) : Prop where
  live : Live s
  err : s.err = false
  rx : s.rx = []
  uncompared : s.Uncompared

theorem Quiet.enterWait (h : Quiet s) (k : Nat) : Quiet (s.enterWait k) :=
  ⟨h.live.enterWait k, h.err, h.rx, h.uncompared⟩

/-- A flush of a batch with nothing compared verifies against every response of its length (R127, R129). -/
theorem Sound.flush_uncompared (h : Sound s) (he : s.err = false) (h0 : 0 < s.nbits) (hu : s.Uncompared)
    (hrx : s.rx = []) {r : List Byte} (ha : s.answers = .bytes r :: later) (hl : r.length = s.nbytes) :
    s.flush = .done .ok (s.verified r) :=
  State.flush_verified he h0 (State.nbytes_le h.batch.one_hot h.batch.in_range) h.storage.obs_wf ha
    (by simp [hrx, hl]) fun i _ => by rw [hu.2 i, hu.1 i, BitVec.and_zero]

/-- The cursor is at the last bit exactly when one more cycle fills the planes (R91). -/
theorem State.atLastBit_iff (h1 : oneHot s.bitMask = true) : s.atLastBit = true ↔ s.nbits + 1 = 8 * s.cap := by
  have hlt := bitpos_lt h1
  have hseven := bitpos_eq_seven h1
  simp only [State.atLastBit, Bool.and_eq_true, beq_iff_eq, ← hseven, State.nbits]
  omega

/-- What an idle cycle that answers `Ok` leaves the next one. -/
theorem Quiet.next (h : Quiet s) (hr : s.recordCycle tms false false false false = .done .ok t)
    (hrx : t.rx = []) : Quiet t := by
  have hlive := h.live.recordCycle tms false false false false
  have hreports := State.recordCycle_reports h.err tms false false false false
  have hspares := s.recordCycle_sparesPlanes tms
  rw [hr] at hlive hreports hspares
  exact ⟨hlive, hreports.err_of_ok, hrx, hspares.1.uncompared h.uncompared⟩

/-- An idle cycle below the last bit. -/
theorem Quiet.idle_moves (h : Quiet s) (tms : Bool) (hlast : s.atLastBit = false) :
    Quiet (s.afterCycle tms false false false)
      ∧ ∀ k, s.waitBody tms (k + 1) = (s.afterCycle tms false false false).waitBody tms k := by
  have hroom := h.live.room h.err
  refine ⟨h.next (tms := tms) ?_ ((s.afterCycle_frame ..).rx.trans h.rx), fun k => State.waitBody_succ_of_ok ?_⟩
  · rw [State.recordCycle_room h.err hroom, if_neg (by simp [hlast])]
  · rw [State.recordCycle_enterWait h.err hroom, if_neg (by simp [hlast])]

/-- The batch that an idle cycle at the last bit fills takes a response of the planes' own length (R103). -/
theorem Quiet.flush_full (h : Quiet s) (tms : Bool) (hlast : s.atLastBit = true) {r : List Byte}
    (ha : s.answers = .bytes r :: later) (hl : r.length = s.cap) :
    r.length = (s.afterCycle tms false false false).nbytes
      ∧ (s.afterCycle tms false false false).flush
        = .done .ok ((s.afterCycle tms false false false).verified r) := by
  have h1 := h.live.sound.batch.one_hot
  have hf := s.afterCycle_frame tms false false false
  have hfull : (s.afterCycle tms false false false).nbits = 8 * s.cap := by
    rw [State.nbits_afterCycle h1, (State.atLastBit_iff h1).1 hlast]
  have hlen : r.length = (s.afterCycle tms false false false).nbytes := by
    rw [State.nbytes, hfull, ceil8_mul, hl]
  have hsound := h.live.sound.afterCycle h.err (h.live.room h.err) tms false false false
  have hcap := h.live.inv.cap_pos
  exact ⟨hlen, hsound.flush_uncompared (hf.err.trans h.err) (by omega)
    ((s.keepsOrClears_idle tms).uncompared h.uncompared) (hf.rx.trans h.rx) (hf.answers.trans ha) hlen⟩

/-- An idle cycle at the last bit, whose automatic flush is answered in full. -/
theorem Quiet.idle_flushes (h : Quiet s) (tms : Bool) (hlast : s.atLastBit = true) {r : List Byte}
    (ha : s.answers = .bytes r :: later) (hl : r.length = s.cap) :
    ∃ t, Quiet t ∧ Exchanged [r] s t ∧ t.nbits = 0 ∧ ∀ k, s.waitBody tms (k + 1) = t.waitBody tms k := by
  have hroom := h.live.room h.err
  have hf := s.afterCycle_frame tms false false false
  obtain ⟨hlen, hflush⟩ := h.flush_full tms hlast ha hl
  refine ⟨(s.afterCycle tms false false false).verified r, h.next (tms := tms) ?_ ?_, ?_, rfl, fun k => ?_⟩
  · rw [State.recordCycle_room h.err hroom, if_pos (.inl hlast), hflush]
  · exact State.verified_rx (hf.rx.trans h.rx) hlen
  · exact (Exchanged.of_afterCycle s tms false false false).trans (.of_verified (hf.answers.trans ha) hlen)
  · refine State.waitBody_succ_of_ok ?_
    rw [State.recordCycle_enterWait h.err hroom, if_pos hlast, hflush, Ran.enterWait]

/-- Where nothing is pending the planes hold nothing (R25 item 2). -/
theorem Live.emptyBatch (h : Live s) (h0 : s.nbits = 0) : EmptyBatch s := by
  obtain ⟨hidx, hmask⟩ := (State.nbits_eq_zero h.sound.batch.one_hot).1 h0
  refine ⟨fun p i => ?_, hidx, hmask⟩
  have hbits : ∀ k, Memory.bitAt (s.plane p) k = Memory.bitAt [] k := fun k => by
    rw [h.inv.zero_beyond h.isOpen p k (by omega), Memory.bitAt_nil]
  rw [Memory.read_eq_of_bitAt hbits, Memory.read_nil]

/-- The trailing flush sends what is left, if anything is (R112, R116). -/
theorem Quiet.flush_trailing (h : Quiet s) (hr : Responses s.cap s.nbits full last)
    (ha : s.answers = (full ++ last).map Answer.bytes ++ later) :
    ∃ t, s.flush = .done .ok t ∧ Exchanged (full ++ last) s t ∧ EmptyBatch t ∧ t.rx = [] := by
  rcases Nat.eq_zero_or_pos s.nbits with h0 | h0
  · rw [h0] at hr
    obtain ⟨rfl, rfl⟩ := hr.eq_nil
    exact ⟨s, by rw [State.flush, if_pos h0], .of_datapath rfl rfl rfl rfl, h.live.emptyBatch h0, h.rx⟩
  · have hroom := h.live.room h.err
    have hbelow : s.nbits < 8 * s.cap := by
      have := bitpos_lt h.live.sound.batch.one_hot
      unfold State.nbits; omega
    obtain ⟨rfl, r, rfl, hlen⟩ := hr.of_partial h0 hbelow
    exact ⟨s.verified r, h.live.sound.flush_uncompared h.err h0 h.uncompared h.rx ha hlen,
      .of_verified ha hlen, s.emptyBatch_verified r, State.verified_rx h.rx hlen⟩

/-- The whole WAIT, one idle cycle at a time: a cycle adds to the batch or, with a full response, empties it,
and the responses to the rest are those to what is pending and the cycles left (R111, R116). -/
theorem Quiet.waitBody (h : Quiet s) (tms : Bool) (count : Nat)
    (hr : Responses s.cap (s.nbits + count) full last)
    (ha : s.answers = (full ++ last).map Answer.bytes ++ later) :
    ∃ t, s.waitBody tms count = .done .ok t ∧ Exchanged (full ++ last) s t ∧ EmptyBatch t ∧ t.rx = [] := by
  induction count generalizing s full with
  | zero =>
    obtain ⟨t, hflush, hex, hdone⟩ := (h.enterWait 0).flush_trailing hr ha
    have henter : Exchanged [] s (s.enterWait 0) := .of_datapath rfl rfl rfl rfl
    refine ⟨t, ?_, henter.trans hex, hdone⟩
    rw [State.waitBody_zero, ← State.flush_enterWait, hflush]
  | succ k ih =>
    have h1 := h.live.sound.batch.one_hot
    cases hlast : s.atLastBit with
    | false =>
      have hcycle := Exchanged.of_afterCycle s tms false false false
      obtain ⟨hquiet, hwait⟩ := h.idle_moves tms hlast
      obtain ⟨t, hrun, hex, hdone⟩ := ih hquiet
        (by rwa [hcycle.setting.1, State.nbits_afterCycle h1, Nat.add_right_comm, Nat.add_assoc])
        (hcycle.answers.symm.trans ha)
      exact ⟨t, (hwait k).trans hrun, hcycle.trans hex, hdone⟩
    | true =>
      have hsum : s.nbits + (k + 1) = 8 * s.cap + k := by
        have := (State.atLastBit_iff h1).1 hlast
        omega
      rw [hsum] at hr
      obtain ⟨r, rest, rfl, hlen, hrest⟩ := hr.of_full h.live.inv.cap_pos
      obtain ⟨u, hquiet, hexFirst, h0, hwait⟩ := h.idle_flushes tms hlast ha hlen
      obtain ⟨t, hrun, hex, hdone⟩ := ih hquiet (by rwa [hexFirst.setting.1, h0, Nat.zero_add])
        (List.append_cancel_left (hexFirst.answers.symm.trans ha))
      exact ⟨t, (hwait k).trans hrun, hexFirst.trans hex, hdone⟩

/-- Settles O44: the frames, comparisons and answers of the WAIT are those of its responses, of two sizes. -/
theorem waitSendsItsFrames : Obligations.WaitSendsItsFrames := by
  intro s tms count full last later h ho hc he hrx hmask hfull hfullSize hlast hlastSize ha
  have hexp : ∀ i, Memory.read s.tdoExp i = 0#8 := fun i => by
    simpa only [hmask i, BitVec.not_zero, BitVec.and_allOnes] using h.exp_in_mask ho i
  have hquiet : Quiet s := ⟨⟨h, ho, hc⟩, he, hrx, hmask, hexp⟩
  have hresponses : Responses s.cap (s.nbits + count) full last := ⟨hfull, hfullSize, hlast, hlastSize⟩
  obtain ⟨t, hrun, hex, hempty, htrx⟩ := hquiet.waitBody tms count hresponses ha
  have htx := hex.tx
  have hcmps := hex.cmps
  rw [hresponses.sum_map (fun k => 10 + 2 * k), ← Nat.add_assoc] at htx
  rw [hresponses.sum_map (fun k => k), ← Nat.add_assoc] at hcmps
  refine ⟨t.respond .ok, ?_, ⟨?_, rfl, rfl⟩, ?_, ?_, htrx, htx, hcmps, hex.err, hex.diag, hex.isOpen, hex.setting⟩
  · rw [exec_wait_of_isOpen ho, hrun, Ran.outcome]
  · rw [State.respond_responses, hex.responses, hex.cmd]
  · exact ⟨fun p i => by rw [State.respond_plane]; exact hempty.1 p i, hempty.2⟩
  · exact List.append_cancel_left (hex.answers.symm.trans ha)

end Sys2Proof.Machine
end

section
/-! FLUSH and the link failures (spec/43_sync_protocol.md R121 to R131): a flush that does no I/O only answers,
and each way a flush that does I/O can end is one state, whose fields the statements read. -/

namespace Sys2Proof.Machine

variable {s t : State} {st : Status} {arriving : List Byte} {later : List Answer}

/-! ### A flush without I/O -/

/-- A flush with nothing pending (R121). -/
theorem State.flush_empty (h0 : s.nbits = 0) : s.flush = .done .ok s := by
  rw [State.flush, if_pos h0]

/-- A FLUSH whose flush changes nothing only answers. -/
theorem exec_flush_onlyAnswers (ho : s.isOpen = true) (hr : s.flush = .done st s) :
    ∃ t, exec .flush s = .next t ∧ OnlyAnswers s t st :=
  ⟨s.respond st, by rw [exec_flush_of_isOpen ho, hr, Ran.outcome], onlyAnswers_respond s st⟩

/-- Settles O27: the flush returns before it looks at `ERR`. -/
theorem flushOfAnEmptyBatch : Obligations.FlushOfAnEmptyBatch :=
  fun _ ho h0 => exec_flush_onlyAnswers ho (State.flush_empty h0)

/-- Settles O28: the flush returns before its first request byte. -/
theorem flushInTheFailedState : Obligations.FlushInTheFailedState :=
  fun _ ho h0 he => exec_flush_onlyAnswers ho (State.flush_alreadyFailed he h0)

/-! ### A flush that verifies -/

/-- Settles O29: the verified flush, field by field. -/
theorem flushVerified : Obligations.FlushVerified := by
  intro s arriving later ho he h0 hN hm ha hl hagree
  have hw := s.withResponse_frame arriving
  refine ⟨(s.verified arriving).respond .ok, ?_, ⟨?_, rfl, rfl⟩, ?_, ?_, ?_, ?_, ?_, ⟨hw.err, hw.errKind⟩,
    ⟨hw.diagValid, hw.diagIndex, hw.diagObs, hw.diagMask, hw.diagExp, hw.events⟩, hw.isOpen,
    ⟨hw.cap, hw.host⟩⟩
  · rw [exec_flush_of_isOpen ho, State.flush_verified he h0 hN hm ha hl hagree, Ran.outcome]
  · simp [State.verified, hw.responses, hw.cmd]
  · exact s.emptyBatch_verified arriving
  · simp [State.verified, State.withResponse]
  · simp [State.verified, State.withResponse]
  · simp [State.verified, State.withResponse, ha]
  · simp [State.verified, hw.cmps]

/-! ### A flush that fails -/

/-- The state after a flush whose least mismatching byte is `i`: `i + 1` bytes compared, the failure latched
with the byte as received (R128). -/
def State.mismatched (s : State) (arriving : List Byte) (i : Nat) : State :=
  (((s.withResponse arriving).countCmps (i + 1)).raise
    (.mismatch i ((s.rx ++ arriving).getD i 0#8) (Memory.read s.mask i) (Memory.read s.tdoExp i))).forgetObs

/-- A flush of a pending batch whose least mismatching byte is `i` (R128). -/
theorem State.flush_mismatched {i : Nat} (he : s.err = false) (h0 : 0 < s.nbits) (hN : s.nbytes ≤ s.cap)
    (hm : Memory.wf s.obs = true) (ha : s.answers = .bytes arriving :: later)
    (hl : s.nbytes ≤ (s.rx ++ arriving).length) (hi : i < s.nbytes)
    (hdiff : Memory.read s.tdoExp i ≠ (s.rx ++ arriving).getD i 0#8 &&& Memory.read s.mask i)
    (hleast : ∀ j, j < i →
      Memory.read s.tdoExp j = (s.rx ++ arriving).getD j 0#8 &&& Memory.read s.mask j) :
    s.flush = .done .verificationMismatch (s.mismatched arriving i) := by
  have hsome : (s.withResponse arriving).firstMismatch 0 s.nbytes = some i := by
    refine State.firstMismatch_eq_some.2 ⟨by omega, by omega, ?_, fun j _ hj => ?_⟩
    · exact Bool.eq_false_iff.2 fun h => hdiff ((State.agreesAt_withResponse hm hl hi).1 h)
    · exact (State.agreesAt_withResponse hm hl (by omega)).2 (hleast j hj)
  have hbyte : Memory.read (s.withResponse arriving).obs i = (s.rx ++ arriving).getD i 0#8 := by
    rw [State.withResponse, State.onWire_obs, read_response hm hl, if_pos hi]
  have hw := s.withResponse_frame arriving
  have hinfo : (s.withResponse arriving).mismatchAt i
      = .mismatch i ((s.rx ++ arriving).getD i 0#8) (Memory.read s.mask i) (Memory.read s.tdoExp i) := by
    rw [State.mismatchAt, hbyte, hw.mask, hw.tdoExp]
  rw [State.flush_io h0 he hN, State.request_withResponse ha hl]
  simp only [State.verify, hsome, hinfo, State.mismatched]

/-- Settles O30: the flush that latches the mismatch, field by field; the flush after it finds `ERR` set. -/
theorem flushMismatch : Obligations.FlushMismatch := by
  intro s arriving later i ho he h0 hN hm ha hl hi hdiff hleast
  have hw := s.withResponse_frame arriving
  have hrun : exec .flush s = .next ((s.mismatched arriving i).respond .verificationMismatch) := by
    rw [exec_flush_of_isOpen ho, State.flush_mismatched he h0 hN hm ha hl hi hdiff hleast, Ran.outcome]
  refine ⟨_, hrun, ⟨?_, ?_, ?_⟩, ?_, ?_, ?_, ?_, ?_, ?_, ?_, ?_, ?_, ?_, ?_, ?_, fun p j => ?_, ⟨?_, ?_⟩, ?_,
    ⟨?_, ?_⟩, ?again⟩
  case again =>
    have hopen : ((s.mismatched arriving i).respond .verificationMismatch).isOpen = true := by
      simp [State.mismatched, hw.isOpen, ho]
    obtain ⟨st, hflush⟩ := State.flush_failed
      (s := (s.mismatched arriving i).respond .verificationMismatch) (by simp [State.mismatched])
    exact ⟨_, (exec_flush_of_isOpen hopen).trans (congrArg Ran.outcome hflush), rfl, rfl, rfl, rfl⟩
  all_goals
    simp [State.mismatched, Failure.kind, hw.responses, hw.cmd, hw.events, hw.cmps, hw.plane, hw.byteIdx,
      hw.bitMask, hw.isOpen, hw.cap, hw.host]
  all_goals simp [State.withResponse, ha]

/-- The state after a wire transaction of the given request whose transport fails after `k` bytes (R126). -/
def State.cut (s : State) (request : List Byte) (k : Nat) (rxAfter : List Byte) : State :=
  ((s.onWire (request.take k) rxAfter s.obs).raise .connectivity).forgetObs

/-- Settles O31: the flush ends where its request is cut. -/
theorem flushLinkFailure : Obligations.FlushLinkFailure := by
  intro s k rxAfter later ho he h0 hN ha
  have hrequest : s.request = .linkDown (s.onWire (s.frame.take k) rxAfter s.obs) :=
    State.exchange_of_linkFail (State.nextAnswer_cons s ha)
  have hrun : s.flush = .done .connectivityError (s.cut s.frame k rxAfter) := by
    rw [State.flush_io h0 he hN, hrequest, State.cut]
  refine ⟨(s.cut s.frame k rxAfter).respond .connectivityError, ?_, ⟨?_, rfl, rfl⟩, rfl, rfl, ?_, ?_, ?_, ?_, ?_,
    fun p i => ?_, ?_, ?_, ?_⟩
  · rw [exec_flush_of_isOpen ho, hrun, Ran.outcome]
  all_goals simp [State.cut, SameDiag, SameCursor, SameSetting, ha]

/-- Settles O36: the wire transaction ends where its request is cut, and no status is given. -/
theorem shiftRequestLinkFailure : Obligations.ShiftRequestLinkFailure := by
  intro s n k tms tdi rxAfter later ho he hN ha
  have hx := State.exchange_of_linkFail (n := n) (a := tms) (b := tdi) (State.nextAnswer_cons s ha)
  refine ⟨s.cut (shiftFrame n tms tdi) k rxAfter, ?_, rfl, rfl, ?_, ?_, ?_, ?_, ?_, fun p i => ?_, ?_, ?_, ?_⟩
  · change execShiftReq n tms tdi s = _
    rw [execShiftReq, if_neg (by simp [ho, he]), if_neg (by omega), hx, State.cut]
  all_goals simp [State.cut, SameDiag, SameCursor, SameSetting, ha]

/-! ### The second flush -/

/-- A flush that answers leaves an empty batch after `Ok`, and after any other status a batch in the failed
state: nothing that a flush would send (R131). -/
theorem State.flush_leaves (h : s.flush = .done st t) :
    (st = .ok ∧ t.nbits = 0) ∨ (st ≠ .ok ∧ t.err = true ∧ 0 < t.nbits) := by
  rcases State.flush_done h with ⟨h0, rfl, rfl⟩ | ⟨h0, he, rfl, rfl⟩ | ⟨h0, _, _, u, hu, i, _, rfl, rfl⟩
    | ⟨_, _, _, u, _, _, rfl, rfl⟩ | ⟨h0, _, _, u, hu, rfl, rfl⟩
  · exact .inl ⟨rfl, h0⟩
  · exact .inr ⟨by simp, he, h0⟩
  · have hf := (State.exchange_received_frame hu).1
    exact .inr ⟨by simp, by simp, by simpa [hf.nbits] using h0⟩
  · exact .inl ⟨rfl, by simp⟩
  · have hf := (State.exchange_linkDown_frame hu).1
    exact .inr ⟨by simp, by simp, by simpa [hf.nbits] using h0⟩

/-- A flush leaves the session as it is (R130). -/
theorem State.flush_isOpen (h : s.flush = .done st t) : t.isOpen = s.isOpen := by
  rcases State.flush_done h with ⟨_, _, rfl⟩ | ⟨_, _, _, rfl⟩ | ⟨_, _, _, u, hu, _, _, _, rfl⟩
    | ⟨_, _, _, u, hu, _, _, rfl⟩ | ⟨_, _, _, u, hu, _, rfl⟩
  · rfl
  · rfl
  · simp [(State.exchange_received_frame hu).1.isOpen]
  · simp [(State.exchange_received_frame hu).1.isOpen]
  · simp [(State.exchange_linkDown_frame hu).1.isOpen]

/-- Settles O33: the first flush left nothing to do, and a flush that never ends gives no status. -/
theorem flushTwice : Obligations.FlushTwice := by
  intro s t st ho hex hst
  rw [exec_flush_of_isOpen ho] at hex
  have hgrows := closed_grows.flush s
  rcases Ran.outcome_next hex with ⟨st', u, hr, rfl⟩ | hr <;> rw [hr] at hgrows
  · have hsame : st' = st := by
      have hpair := hst
      rw [State.respond_responses, hgrows.responses, hgrows.cmd] at hpair
      simpa using hpair
    subst hsame
    have hagain : (u.respond st').flush
        = .done (if st' = .ok then .ok else .alreadyFailed) (u.respond st') := by
      rcases State.flush_leaves hr with ⟨rfl, h0⟩ | ⟨hne, he, h0⟩
      · rw [if_pos rfl, State.flush_empty (s := u.respond .ok) h0]
      · rw [if_neg hne, State.flush_alreadyFailed (s := u.respond st') he h0]
    exact exec_flush_onlyAnswers ((State.flush_isOpen hr).trans ho) hagain
  · have := hgrows.responses.symm.trans hst
    simp at this

/-! ### The comparison -/

/-- Settles O34: bit by bit, an expected bit outside the mask is 0 on both sides. -/
theorem comparisonInspectsMaskedBitsOnly : Obligations.ComparisonInspectsMaskedBitsOnly := by
  intro e o m hin
  have hout : ∀ k, k < 8 → m.getLsbD k = false → e.getLsbD k = false := fun k hk hmk => by
    have hbit := congrArg (fun b : Byte => b.getLsbD k) hin
    rwa [BitVec.getLsbD_and, BitVec.getLsbD_not, hmk, decide_eq_true hk, Bool.not_false, Bool.and_true,
      Bool.and_true, BitVec.getLsbD_zero] at hbit
  rw [byteAgrees, beq_iff_eq]
  constructor
  · intro heq k _ hmk
    rw [heq, BitVec.getLsbD_and, hmk, Bool.and_true]
  · intro hbits
    refine BitVec.eq_of_getLsbD_eq fun k hk => ?_
    rw [BitVec.getLsbD_and]
    cases hmk : m.getLsbD k with
    | false => rw [hout k hk hmk, Bool.and_false]
    | true => rw [hbits k hk hmk, Bool.and_true]

end Sys2Proof.Machine
end

section
/-! The flush phases and the transport (spec/43_sync_protocol.md R133, R136): what a clock of `C_FLUSH` reads of
the transport's inputs. -/

namespace Sys2Proof.Machine

variable {s : State} {p : PortIn}

/-- A transmitting phase holds while no byte is taken and the link is up (R133). -/
theorem State.sendPhase_stall (hl : p.linkErr = false) (ht : p.txReady = false) (last : Nat) (next : FlushPhase) :
    s.sendPhase p last next = s := by
  unfold State.sendPhase
  rw [hl, ht]
  cases s.txPort <;> rfl

/-- `F_RX` holds while no byte comes and the link is up (R133). -/
theorem State.receivePhase_stall (hl : p.linkErr = false) (hv : p.rxValid = false) : s.receivePhase p = s := by
  rw [State.receivePhase, hl, hv]; rfl

/-- Settles O56: each of the five phases holds. -/
theorem transportPhasesHold : Obligations.TransportPhasesHold := by
  intro s p hc hr hl
  refine ⟨fun hf ht => ?_, fun hf hv => ?_⟩
  · rcases hf with hf | hf | hf | hf <;>
      rw [clock_of_flush hr hc (by simp [hf])] <;>
      simp only [State.flushClock, hf, State.sendPhase_stall hl ht]
  · rw [clock_of_flush hr hc (by simp [hf])]
    simp only [State.flushClock, hf, State.receivePhase_stall hl hv]

/-- Settles O57: the other two flush phases and the other command phases do not read `link_err`. -/
theorem linkErrorIsSampledInIOPhasesOnly : Obligations.LinkErrorIsSampledInIOPhasesOnly := by
  intro s p b hio
  by_cases hr : p.rst = true
  · simp [clock, hr]
  · cases hc : s.cph with
    | flush =>
      cases hf : s.fph with
      | idle | vfy | clr => simp [clock, hr, hc, hf, State.flushClock]
      | tag | cnt | tms | tdi | rx => simp [hc, hf] at hio
    | idle | setup | record | wloop | rsp => simp [clock, hr, hc, State.idlePhase]

end Sys2Proof.Machine
end

section
/-! What the two machines share (spec/43_sync_protocol.md R135): the core of a state, which every procedure of
the block reads and which the updates of both machines change alike, and the ends that a flush can have, each
with the transport's answer that it uses. -/

namespace Sys2Proof.Machine

variable {s t d e v : State} {st : Status} {as later : List Answer}

/-! ### The core of a state -/

/-- The state without the phases, `OBS`, the inputs still to come and the hidden registers other than `CMD`:
what the block of the big step and the clocked block agree on inside a command. -/
def State.core (s : State) : State :=
  { s.visible with fph := .idle, cph := .idle, hid := { Hidden.reset with cmd := s.hid.cmd } }

/-- What is read from the core alone is the same in two states with the same core. -/
theorem same_of_core {α : Type} (e : t.core = s.core) (f : State → α)
    (hf : ∀ v : State, f v.core = f v := by exact fun _ => rfl) : f t = f s := by
  rw [← hf t, e, hf s]

/-- An update that reads and changes the core alone takes states of one core to states of one core. -/
theorem core_congr (e : t.core = s.core) (f : State → State)
    (hf : ∀ v : State, (f v.core).core = (f v).core := by exact fun _ => rfl) : (f t).core = (f s).core :=
  same_of_core e (fun v => (f v).core) hf

theorem core_raise (e : t.core = s.core) (f : Failure) : (t.raise f).core = (s.raise f).core :=
  core_congr e (fun v => v.raise f) fun _ => by cases f <;> rfl

theorem core_orBit (e : t.core = s.core) (p : Plane) (b : Bool) : (t.orBit p b).core = (s.orBit p b).core :=
  core_congr e (fun v => v.orBit p b) fun _ => by cases b <;> cases p <;> rfl

theorem core_moveCursor (e : t.core = s.core) : t.moveCursor.core = s.moveCursor.core :=
  core_congr e State.moveCursor fun v => by
    by_cases h : v.bitMask = 0x80#8
    · rw [State.moveCursor, State.moveCursor, if_pos h, if_pos (show v.core.bitMask = 0x80#8 from h)]; rfl
    · rw [State.moveCursor, State.moveCursor, if_neg h, if_neg (show ¬ v.core.bitMask = 0x80#8 from h)]; rfl

theorem core_afterCycle (e : t.core = s.core) (tms tdi tdo compare : Bool) :
    (t.afterCycle tms tdi tdo compare).core = (s.afterCycle tms tdi tdo compare).core := by
  have hbits := core_orBit (core_orBit e .tms tms) .tdi tdi
  cases compare
  · exact core_moveCursor hbits
  · exact core_moveCursor (core_orBit (core_orBit hbits .tdoExp tdo) .mask true)

theorem core_onWire (s : State) (bytes rxAfter : List Byte) (obs : Memory) :
    (s.onWire bytes rxAfter obs).core = { s with tx := s.tx ++ bytes }.core := by
  unfold State.onWire State.dropAnswer
  split <;> rfl

/-! ### The end of a command -/

/-- The end of a command (R134 `C_RSP`): SHUTDOWN closes the session, then the status goes to the host. -/
def State.conclude (s : State) (st : Status) : State :=
  (if decodeWord s.hid.cmd = .ok .shutdown then s.closeSession else s).respond st

theorem State.conclude_of_shutdown (h : decodeWord s.hid.cmd = .ok .shutdown) (st : Status) :
    s.conclude st = s.closeSession.respond st := by
  rw [State.conclude, if_pos h]

theorem State.conclude_of_not_shutdown (h : decodeWord s.hid.cmd ≠ .ok .shutdown) (st : Status) :
    s.conclude st = s.respond st := by
  rw [State.conclude, if_neg h]

theorem State.rspPhase_eq_conclude (s : State) : s.rspPhase = s.conclude s.hid.rsp := by
  unfold State.rspPhase
  split
  · next hd => rw [State.conclude_of_shutdown hd]
  · next hd => rw [State.conclude_of_not_shutdown hd]

theorem visible_conclude (e : t.core = s.core) (st : Status) :
    (t.conclude st).visible = (s.conclude st).visible := by
  refine same_of_core e (fun v => (v.conclude st).visible) fun v => ?_
  by_cases h : decodeWord v.hid.cmd = .ok .shutdown
  · rw [State.conclude_of_shutdown h, State.conclude_of_shutdown (s := v.core) h]; rfl
  · rw [State.conclude_of_not_shutdown h, State.conclude_of_not_shutdown (s := v.core) h]; rfl

@[simp] theorem State.conclude_rx (s : State) (st : Status) : (s.conclude st).rx = s.rx := by
  unfold State.conclude; split <;> rfl
@[simp] theorem State.conclude_answers (s : State) (st : Status) : (s.conclude st).answers = s.answers := by
  unfold State.conclude; split <;> rfl
@[simp] theorem State.conclude_fph (s : State) (st : Status) : (s.conclude st).fph = .idle := by
  unfold State.conclude; split <;> rfl
@[simp] theorem State.conclude_cph (s : State) (st : Status) : (s.conclude st).cph = .idle := by
  unfold State.conclude; split <;> rfl

/-! ### The ends of a flush -/

/-- A flush does I/O: a batch is pending, nothing has failed, and the batch fits the planes (R121, R122). -/
structure State.Pending (s : State) : Prop where
  nbits_pos : 0 < s.nbits
  err : s.err = false
  fits : s.nbytes ≤ s.cap

/-- The first `k` bytes of the request have been handed over. -/
def State.sent (s : State) (k : Nat) : State := { s with tx := s.tx ++ s.frame.take k }

/-- The whole request has been handed over, and these bytes have come into `OBS`. -/
def State.heard (s : State) (got : List Byte) : State :=
  { s.sent (10 + 2 * s.nbytes) with obs := Memory.writeRange s.obs 0 got }

/-- How a flush from `s` ends: the transport's answers it uses, its status and the state it leaves
(R130, rows 1 to 5). -/
inductive FlushEnds (s : State) : List Answer → Status → State → Prop
  | empty (h0 : s.nbits = 0) : FlushEnds s [] .ok s
  | failed (h0 : 0 < s.nbits) (he : s.err = true) : FlushEnds s [] .alreadyFailed s
  | heard (hp : s.Pending) (got : List Byte) (hlen : got.length = s.nbytes) :
    FlushEnds s [.bytes got] ((s.heard got).verify s.nbytes).1 ((s.heard got).verify s.nbytes).2
  | cut (hp : s.Pending) (k : Nat) (hk : k ≤ 10 + 2 * s.nbytes) :
    FlushEnds s [.linkFail k []] .connectivityError ((s.sent k).raise .connectivity).forgetObs

theorem State.Pending.nbytes_pos (h : s.Pending) : 0 < s.nbytes := ceil8_pos.2 h.nbits_pos

theorem State.Pending.of_core (h : s.Pending) (e : t.core = s.core) : t.Pending where
  nbits_pos := same_of_core e State.nbits ▸ h.nbits_pos
  err := (same_of_core e State.err).trans h.err
  fits := by rw [same_of_core e State.nbytes, same_of_core e State.cap]; exact h.fits

/-- A request that is handed over to its last byte is the frame (R124). -/
theorem State.take_frame {k : Nat} (hk : 10 + 2 * s.nbytes ≤ k) : s.frame.take k = s.frame :=
  List.take_of_length_le (by rw [State.length_frame]; exact hk)

theorem firstMismatch_congr {i k : Nat} (h : ∀ j, i ≤ j → j < i + k → d.agreesAt j = e.agreesAt j) :
    d.firstMismatch i k = e.firstMismatch i k := by
  induction k generalizing i with
  | zero => rfl
  | succ k ih =>
    rw [State.firstMismatch, State.firstMismatch, h i le_rfl (by omega), ih fun j h1 h2 => h j (by omega) (by omega)]

theorem agreesAt_congr (hc : d.core = e.core) {i : Nat} (hobs : Memory.read d.obs i = Memory.read e.obs i) :
    d.agreesAt i = e.agreesAt i := by
  rw [State.agreesAt, State.agreesAt, hobs, same_of_core hc State.tdoExp, same_of_core hc State.mask]

theorem mismatchAt_congr (hc : d.core = e.core) {i : Nat} (hobs : Memory.read d.obs i = Memory.read e.obs i) :
    d.mismatchAt i = e.mismatchAt i := by
  rw [State.mismatchAt, State.mismatchAt, hobs, same_of_core hc State.tdoExp, same_of_core hc State.mask]

/-- The verification reads the core and the bytes of the response (R127 to R129). -/
theorem verify_congr (hc : d.core = e.core) {n : Nat}
    (hobs : ∀ i, i < n → Memory.read d.obs i = Memory.read e.obs i) :
    (d.verify n).1 = (e.verify n).1 ∧ (d.verify n).2.core = (e.verify n).2.core := by
  have hfirst : d.firstMismatch 0 n = e.firstMismatch 0 n :=
    firstMismatch_congr fun j _ hj => agreesAt_congr hc (hobs j (by omega))
  rcases State.verify_cases (s := e) n with ⟨i, hi, hv⟩ | ⟨hi, hv⟩
  · obtain ⟨_, hin, _⟩ := State.firstMismatch_eq_some.1 hi
    have hd : d.verify n = (.verificationMismatch, ((d.countCmps (i + 1)).raise (d.mismatchAt i)).forgetObs) := by
      simp only [State.verify, hfirst, hi]
    rw [hv, hd, mismatchAt_congr hc (hobs i (by omega))]
    exact ⟨rfl, core_raise (core_congr hc fun v => v.countCmps (i + 1)) _⟩
  · have hd : d.verify n = (.ok, (d.countCmps n).clearAndReset.forgetObs) := by
      simp only [State.verify, hfirst, hi]
    rw [hv, hd]
    exact ⟨rfl, core_congr hc fun v => (v.countCmps n).clearAndReset⟩

theorem State.verify_streams (s : State) (n : Nat) :
    (s.verify n).2.rx = s.rx ∧ (s.verify n).2.answers = s.answers := by
  rcases State.verify_cases (s := s) n with ⟨i, _, hv⟩ | ⟨_, hv⟩ <;> rw [hv] <;> simp

/-- A response that comes in full is heard, whatever stood before it on the RX stream (R125). -/
theorem core_withResponse (s : State) (arriving : List Byte) :
    (s.withResponse arriving).core = (s.heard ((s.rx ++ arriving).take s.nbytes)).core := by
  rw [State.withResponse, core_onWire, State.heard, State.sent, State.take_frame le_rfl]
  rfl

theorem State.withResponse_obs (s : State) (arriving : List Byte) :
    (s.withResponse arriving).obs = (s.heard ((s.rx ++ arriving).take s.nbytes)).obs := by
  rw [State.withResponse, State.onWire_obs]
  rfl

theorem verify_withResponse (s : State) (arriving : List Byte) :
    ((s.withResponse arriving).verify s.nbytes).1
        = ((s.heard ((s.rx ++ arriving).take s.nbytes)).verify s.nbytes).1
      ∧ ((s.withResponse arriving).verify s.nbytes).2.core
        = ((s.heard ((s.rx ++ arriving).take s.nbytes)).verify s.nbytes).2.core :=
  verify_congr (core_withResponse s arriving) fun i _ => by rw [State.withResponse_obs]

/-- The flush of the big step has every end whose answer the transport gives next (R130). -/
theorem FlushEnds.flush (h : FlushEnds s as st v) (ha : s.answers = as ++ later) (hrx : s.rx = []) :
    ∃ t, s.flush = .done st t ∧ t.core = v.core ∧ t.rx = [] ∧ t.answers = later := by
  cases h with
  | empty h0 => exact ⟨s, State.flush_empty h0, rfl, hrx, ha⟩
  | failed h0 he => exact ⟨s, State.flush_alreadyFailed he h0, rfl, hrx, ha⟩
  | heard hp got hlen =>
    have hl : s.nbytes ≤ (s.rx ++ got).length := by simp [hrx, hlen]
    have htake : (s.rx ++ got).take s.nbytes = got := by simp [hrx, ← hlen]
    have hverify := verify_withResponse s got
    rw [htake] at hverify
    refine ⟨((s.withResponse got).verify s.nbytes).2, ?_, hverify.2, ?_, ?_⟩
    · rw [State.flush_io hp.nbits_pos hp.err hp.fits, State.request_withResponse ha hl, ← hverify.1]
    · rw [(State.verify_streams _ _).1]; simp [State.withResponse, hrx, hlen]
    · rw [(State.verify_streams _ _).2]; simp [State.withResponse, ha]
  | cut hp k hk =>
    refine ⟨s.cut s.frame k [], ?_, core_raise (core_onWire s (s.frame.take k) [] s.obs) _, ?_, ?_⟩
    · have hrequest : s.request = .linkDown (s.onWire (s.frame.take k) [] s.obs) :=
        State.exchange_of_linkFail (State.nextAnswer_cons s ha)
      rw [State.flush_io hp.nbits_pos hp.err hp.fits, hrequest, State.cut]
    · simp [State.cut]
    · simp [State.cut, ha]

/-- A flush that received its response ends with the verification of what it heard (R125). -/
theorem State.Pending.ends_of_received (hp : s.Pending) {u : State} (hu : s.request = .received u)
    (h : s.flush = .done st t) :
    ∃ as v, FlushEnds s as st v ∧ t.core = v.core ∧ SpellsFrom as s.rx s.answers t.rx t.answers := by
  rw [State.flush_io hp.nbits_pos hp.err hp.fits, hu] at h
  cases h
  obtain ⟨arriving, hnext, hl, hw⟩ := State.exchange_received hu
  replace hw : u = s.withResponse arriving := hw
  subst hw
  obtain ⟨hstatus, hcore⟩ := verify_withResponse s arriving
  obtain ⟨hrx, hanswers⟩ := (s.withResponse arriving).verify_streams s.nbytes
  refine ⟨[.bytes ((s.rx ++ arriving).take s.nbytes)], _, ?_, hcore, arriving, s.dropAnswer.answers,
    (s.rx ++ arriving).drop s.nbytes, hnext ▸ s.nextAnswerIs, (List.take_append_drop ..).symm, ?_, ?_⟩
  · rw [hstatus]
    exact .heard hp _ (List.length_take_of_le hl)
  · rw [hrx, State.withResponse, State.onWire_rx]
  · rw [hanswers, State.withResponse, State.onWire_answers, State.dropAnswer_answers]

/-- A flush of the big step that answers has one of these ends, with what it took from the RX stream or the
place of the failure for the answer (R125, R126, R200). -/
theorem State.flush_ends (h : s.flush = .done st t) :
    ∃ as v, FlushEnds s as st v ∧ t.core = v.core ∧ SpellsFrom as s.rx s.answers t.rx t.answers := by
  rcases State.flush_done h with ⟨h0, rfl, rfl⟩ | ⟨h0, he, rfl, rfl⟩ | ⟨h0, he, hN, u, hu, _⟩
    | ⟨h0, he, hN, u, hu, _⟩ | ⟨h0, he, hN, u, hu, rfl, rfl⟩
  · exact ⟨[], t, .empty h0, rfl, rfl, rfl⟩
  · exact ⟨[], t, .failed h0 he, rfl, rfl, rfl⟩
  · exact State.Pending.ends_of_received ⟨h0, he, hN⟩ hu h
  · exact State.Pending.ends_of_received ⟨h0, he, hN⟩ hu h
  · obtain ⟨position, rxAfter, hnext, rfl⟩ := State.exchange_linkDown hu
    have htake : s.frame.take (min position (10 + 2 * s.nbytes)) = s.frame.take position := by
      rw [← State.length_frame, ← List.take_eq_take_min]
    refine ⟨[.linkFail (min position (10 + 2 * s.nbytes)) []], _, .cut ⟨h0, he, hN⟩ _ (by omega), ?_, position,
      rxAfter, s.dropAnswer.answers, hnext ▸ s.nextAnswerIs, by omega, ?_, ?_⟩
    · have hcut : (s.onWire (s.frame.take position) rxAfter s.obs).core
          = (s.sent (min position (10 + 2 * s.nbytes))).core := by
        rw [core_onWire, State.sent, htake]
      exact core_congr hcut fun v => (v.raise .connectivity).forgetObs
    · simp
    · simp [State.dropAnswer_answers]

end Sys2Proof.Machine
end

section
/-! The flush, clock by clock (spec/43_sync_protocol.md R132 to R134): the states of a running flush are those of
the block stuck inside it, and each clock goes from one of them to the next or ends the flush. -/

namespace Sys2Proof.Machine

variable {x m : State} {p : PortIn} {spelled : List Answer} {taken : List Byte}

/-! ### The bytes of the request -/

/-- The flush after `k` bytes of the request (R132). -/
def State.sending (x : State) (k : Nat) : State := (x.sent k).stuckIn x.nbits (phaseAt x.nbytes k)

/-- The flush after these bytes of the response. -/
def State.receiving (x : State) (got : List Byte) : State :=
  (x.heard got).stuckIn x.nbits (.rx, got.length)

/-- The flush after this response and `i` comparisons. -/
def State.verifying (x : State) (got : List Byte) (i : Nat) : State :=
  ((x.heard got).countCmps i).stuckIn x.nbits (.vfy, i)

/-- The flush after a response that agrees: `FCTR` stays at the last index (R133). -/
def State.clearing (x : State) (got : List Byte) : State :=
  ((x.heard got).countCmps x.nbytes).stuckIn x.nbits (.clr, x.nbytes - 1)

/-- The request has been handed over: the response begins. -/
theorem State.sending_all (x : State) : x.sending (10 + 2 * x.nbytes) = x.receiving [] := by
  have hphase : phaseAt x.nbytes (10 + 2 * x.nbytes) = (.rx, 0) := by
    rw [phaseAt, if_neg (by omega), if_neg (by omega), if_neg (by omega), if_neg (by omega)]
  rw [State.sending, hphase]
  rfl

theorem State.sent_succ {k : Nat} (hk : k < 10 + 2 * x.nbytes) :
    x.sent (k + 1) = { x.sent k with tx := (x.sent k).tx ++ [x.frame.getD k 0#8] } := by
  have hlt : k < x.frame.length := by rw [State.length_frame]; exact hk
  rw [State.sent, State.sent, List.take_succ_eq_append_getElem hlt, List.getD_eq_getElem _ _ hlt,
    ← List.append_assoc]

/-- The phase and the counter of a request that is not handed over yet, section by section (R132). -/
theorem phaseAt_cases {bytes k : Nat} (hk : k < 10 + 2 * bytes) :
    (k < 6 ∧ phaseAt bytes k = (.tag, k)) ∨
    (6 ≤ k ∧ k < 10 ∧ phaseAt bytes k = (.cnt, k - 6)) ∨
    (10 ≤ k ∧ k < 10 + bytes ∧ phaseAt bytes k = (.tms, k - 10)) ∨
    (10 + bytes ≤ k ∧ phaseAt bytes k = (.tdi, k - 10 - bytes)) := by
  unfold phaseAt
  split
  · exact .inl ⟨by omega, rfl⟩
  · split
    · exact .inr (.inl ⟨by omega, by omega, rfl⟩)
    · split
      · exact .inr (.inr (.inl ⟨by omega, by omega, rfl⟩))
      · exact .inr (.inr (.inr ⟨by omega, rfl⟩))

/-- `tx_data` is the next byte of the frame (R69, R132). -/
theorem State.txPort_sending {k : Nat} (hk : k < 10 + 2 * x.nbytes) :
    (x.sending k).txPort = some (x.frame.getD k 0#8) := by
  obtain ⟨_, htag, hcnt, htms, htdi⟩ := frameLayout x
  rcases phaseAt_cases hk with ⟨h, hphase⟩ | ⟨h, h', hphase⟩ | ⟨h, h', hphase⟩ | ⟨h, hphase⟩ <;>
    rw [State.sending, hphase] <;> refine congrArg some ?_
  · change byteAt Config.tag k = _
    rw [byteAt, ← htag]
    simp [List.getD_eq_getElem?_getD, h]
  · change byteAt (le32 (BitVec.ofNat 32 x.nbits).toNat) (k - 6) = _
    rw [byteAt, getD_le32 _ (by omega), BitVec.ofNat_toNat, BitVec.setWidth_eq, ← hcnt _ (by omega),
      show 6 + (k - 6) = k by omega]
  · change Memory.read x.tms (k - 10) = _
    rw [← htms _ (by omega), show 10 + (k - 10) = k by omega]
  · change Memory.read x.tdi (k - 10 - x.nbytes) = _
    rw [← htdi _ (by omega), show 10 + x.nbytes + (k - 10 - x.nbytes) = k by omega]

/-- A clock of a transmitting phase is the phase of its section, whose counter leads to the next byte (R133). -/
theorem State.flushClock_sending (hN : 0 < x.nbytes) {k : Nat} (hk : k < 10 + 2 * x.nbytes) (p : PortIn) :
    ∃ last next, (x.sending k).flushClock p = (x.sending k).sendPhase p last next ∧
      phaseAt x.nbytes (k + 1)
        = if (x.sending k).hid.fctr < last then ((x.sending k).fph, (x.sending k).hid.fctr + 1) else (next, 0) := by
  rcases phaseAt_cases hk with ⟨h, hphase⟩ | ⟨h, h', hphase⟩ | ⟨h, h', hphase⟩ | ⟨h, hphase⟩ <;>
    rw [State.sending, hphase]
  · refine ⟨5, .cnt, rfl, ?_⟩
    change phaseAt x.nbytes (k + 1) = if k < 5 then (.tag, k + 1) else (.cnt, 0)
    grind [phaseAt]
  · refine ⟨3, .tms, rfl, ?_⟩
    change phaseAt x.nbytes (k + 1) = if k - 6 < 3 then (.cnt, k - 6 + 1) else (.tms, 0)
    grind [phaseAt]
  · refine ⟨x.nbytes - 1, .tdi, rfl, ?_⟩
    change phaseAt x.nbytes (k + 1) = if k - 10 < x.nbytes - 1 then (.tms, k - 10 + 1) else (.tdi, 0)
    grind [phaseAt]
  · refine ⟨x.nbytes - 1, .rx, rfl, ?_⟩
    change phaseAt x.nbytes (k + 1)
      = if k - 10 - x.nbytes < x.nbytes - 1 then (.tdi, k - 10 - x.nbytes + 1) else (.rx, 0)
    grind [phaseAt]

/-! ### One clock of each phase -/

/-- The flush has ended, and `FPH` is idle again with its status (R133). -/
def FlushOver (x : State) (as : List Answer) (m : State) : Prop :=
  ∃ st v ph, FlushEnds x as st v ∧ m = (v.stuckIn x.nbits ph).flushReturns st

theorem State.sending_cut (hp : x.Pending) {k : Nat} (hk : k < 10 + 2 * x.nbytes) (hl : p.linkErr = true) :
    FlushOver x [.linkFail k []] ((x.sending k).flushClock p) := by
  obtain ⟨last, next, hclock, _⟩ := State.flushClock_sending hp.nbytes_pos hk p
  refine ⟨_, _, phaseAt x.nbytes k, .cut hp k hk.le, ?_⟩
  rw [hclock, State.sendPhase, if_pos hl]
  rfl

theorem State.sending_next (hN : 0 < x.nbytes) {k : Nat} (hk : k < 10 + 2 * x.nbytes) (hl : p.linkErr = false)
    (ht : p.txReady = true) : (x.sending k).flushClock p = x.sending (k + 1) := by
  obtain ⟨last, next, hclock, hphase⟩ := State.flushClock_sending hN hk p
  rw [hclock, State.sendPhase, hl, ht, State.txPort_sending hk]
  change (x.sending k).sendByte (x.frame.getD k 0#8) last next = (x.sent (k + 1)).stuckIn x.nbits (phaseAt _ _)
  rw [hphase, State.sent_succ hk, State.sendByte]
  split <;> rfl

theorem State.sending_hold (hN : 0 < x.nbytes) {k : Nat} (hk : k < 10 + 2 * x.nbytes) (hl : p.linkErr = false)
    (ht : p.txReady = false) : (x.sending k).flushClock p = x.sending k := by
  obtain ⟨last, next, hclock, _⟩ := State.flushClock_sending hN hk p
  rw [hclock, State.sendPhase_stall hl ht]

theorem Memory.writeRange_concat (m : Memory) (i : Nat) (bs : List Byte) (b : Byte) :
    Memory.writeRange m i (bs ++ [b]) = Memory.write (Memory.writeRange m i bs) (i + bs.length) b := by
  induction bs generalizing m i with
  | nil => rfl
  | cons c bs ih =>
    rw [List.cons_append, Memory.writeRange, ih, Memory.writeRange, List.length_cons,
      show i + 1 + bs.length = i + (bs.length + 1) by omega]

theorem State.heard_concat (x : State) (got : List Byte) (b : Byte) :
    x.heard (got ++ [b]) = { x.heard got with obs := Memory.write (x.heard got).obs got.length b } := by
  rw [State.heard, Memory.writeRange_concat, Nat.zero_add]
  rfl

theorem State.receiving_cut (hp : x.Pending) (got : List Byte) (hl : p.linkErr = true) :
    FlushOver x [.linkFail (10 + 2 * x.nbytes) []] ((x.receiving got).flushClock p) := by
  refine ⟨_, _, (.rx, got.length), .cut hp _ le_rfl, ?_⟩
  change (x.receiving got).receivePhase p = _
  rw [State.receivePhase, if_pos hl]
  rfl

theorem State.receiving_hold (got : List Byte) (hl : p.linkErr = false) (hv : p.rxValid = false) :
    (x.receiving got).flushClock p = x.receiving got :=
  State.receivePhase_stall hl hv

theorem State.receiving_next {got : List Byte} (hlen : got.length < x.nbytes - 1) (hl : p.linkErr = false)
    (hv : p.rxValid = true) : (x.receiving got).flushClock p = x.receiving (got ++ [p.rxData]) := by
  have hctr : (x.receiving got).hid.fctr < (x.receiving got).hid.lenBytes - 1 := hlen
  change (x.receiving got).receivePhase p = _
  rw [State.receivePhase, hl, hv, if_neg Bool.false_ne_true, if_pos rfl]
  dsimp only
  rw [if_pos hctr, State.receiving, State.receiving, State.heard_concat, List.length_append]
  rfl

theorem State.receiving_last {got : List Byte} (hlen : ¬ got.length < x.nbytes - 1) (hl : p.linkErr = false)
    (hv : p.rxValid = true) : (x.receiving got).flushClock p = x.verifying (got ++ [p.rxData]) 0 := by
  have hctr : ¬ (x.receiving got).hid.fctr < (x.receiving got).hid.lenBytes - 1 := hlen
  change (x.receiving got).receivePhase p = _
  rw [State.receivePhase, hl, hv, if_neg Bool.false_ne_true, if_pos rfl]
  dsimp only
  rw [if_neg hctr, State.receiving, State.verifying, State.heard_concat]
  rfl

theorem State.verifying_agree {got : List Byte} {i : Nat} (hi : i < x.nbytes - 1)
    (ha : (x.heard got).agreesAt i = true) : (x.verifying got i).flushClock p = x.verifying got (i + 1) := by
  have hagree : (x.verifying got i).agreesAt (x.verifying got i).hid.fctr = true := ha
  have hctr : (x.verifying got i).hid.fctr < (x.verifying got i).hid.lenBytes - 1 := hi
  change (x.verifying got i).verifyPhase = _
  rw [State.verifyPhase, if_pos hagree, if_pos hctr]
  rfl

theorem State.verifying_last {got : List Byte} {i : Nat} (hi : i + 1 = x.nbytes)
    (ha : (x.heard got).agreesAt i = true) : (x.verifying got i).flushClock p = x.clearing got := by
  have hagree : (x.verifying got i).agreesAt (x.verifying got i).hid.fctr = true := ha
  have hctr : ¬ (x.verifying got i).hid.fctr < (x.verifying got i).hid.lenBytes - 1 := by
    change ¬ i < x.nbytes - 1; omega
  change (x.verifying got i).verifyPhase = _
  rw [State.verifyPhase, if_pos hagree, if_neg hctr, State.clearing, ← hi]
  rfl

theorem State.verifying_mismatch (hp : x.Pending) {got : List Byte} (hlen : got.length = x.nbytes) {i : Nat}
    (hi : i < x.nbytes) (hleast : ∀ j, j < i → (x.heard got).agreesAt j = true)
    (ha : (x.heard got).agreesAt i = false) :
    FlushOver x [.bytes got] ((x.verifying got i).flushClock p) := by
  have hfirst : (x.heard got).firstMismatch 0 x.nbytes = some i :=
    State.firstMismatch_eq_some.2 ⟨by omega, by omega, ha, fun j _ hj => hleast j hj⟩
  have hverify : (x.heard got).verify x.nbytes = (.verificationMismatch,
      (((x.heard got).countCmps (i + 1)).raise ((x.heard got).mismatchAt i)).forgetObs) := by
    simp only [State.verify, hfirst]
  have hdiffer : ¬ (x.verifying got i).agreesAt (x.verifying got i).hid.fctr = true :=
    Bool.eq_false_iff.1 ha
  refine ⟨_, _, (.vfy, i), .heard hp got hlen, ?_⟩
  change (x.verifying got i).verifyPhase = _
  rw [State.verifyPhase, if_neg hdiffer, hverify]
  rfl

theorem State.clearing_over (hp : x.Pending) {got : List Byte} (hlen : got.length = x.nbytes)
    (hall : ∀ j, j < x.nbytes → (x.heard got).agreesAt j = true) :
    FlushOver x [.bytes got] ((x.clearing got).flushClock p) := by
  have hfirst : (x.heard got).firstMismatch 0 x.nbytes = none :=
    State.firstMismatch_eq_none.2 fun j _ hj => hall j (by omega)
  have hverify : (x.heard got).verify x.nbytes
      = (.ok, ((x.heard got).countCmps x.nbytes).clearAndReset.forgetObs) := by
    simp only [State.verify, hfirst]
  refine ⟨_, _, (.clr, x.nbytes - 1), .heard hp got hlen, ?_⟩
  rw [hverify]
  rfl

/-! ### What each phase spells -/

/-- In the phases of the request nothing but a failure is spelled, after the bytes handed over (R126). -/
theorem State.spells_sending {k : Nat} (hk : k < 10 + 2 * x.nbytes) (p : PortIn) (taken : List Byte) :
    (x.sending k).spells p taken = if p.linkErr then (some (.linkFail k []), []) else (none, taken) := by
  have hio : (x.sending k).inIO = true ∧ (x.sending k).rxReady = false ∧ (x.sending k).handedOver = k := by
    rcases phaseAt_cases hk with ⟨h, hphase⟩ | ⟨h, h', hphase⟩ | ⟨h, h', hphase⟩ | ⟨h, hphase⟩ <;>
      rw [State.sending, hphase] <;> refine ⟨rfl, rfl, ?_⟩
    · rfl
    · change 6 + (k - 6) = k; omega
    · change 10 + (k - 10) = k; omega
    · change 10 + x.nbytes + (k - 10 - x.nbytes) = k; omega
  obtain ⟨hio, hrx, hover⟩ := hio
  simp [State.spells, hio, hrx, hover]

theorem State.spells_receiving (x : State) (got : List Byte) (p : PortIn) (taken : List Byte) :
    (x.receiving got).spells p taken =
      if p.linkErr then (some (.linkFail (10 + 2 * x.nbytes) []), [])
      else if p.rxValid then
        if got.length < x.nbytes - 1 then (none, taken ++ [p.rxData]) else (some (.bytes (taken ++ [p.rxData])), [])
      else (none, taken) := by
  have hio : (x.receiving got).inIO = true := rfl
  have hrx : (x.receiving got).rxReady = true := rfl
  rw [State.spells, hio, hrx, Bool.true_and, Bool.true_and]
  rfl

theorem State.spells_verifying (x : State) (got : List Byte) (i : Nat) (p : PortIn) (taken : List Byte) :
    (x.verifying got i).spells p taken = (none, taken) := rfl

theorem State.spells_clearing (x : State) (got : List Byte) (p : PortIn) (taken : List Byte) :
    (x.clearing got).spells p taken = (none, taken) := rfl

/-! ### The states of a running flush -/

/-- The states of a running flush, with the answer its inputs have spelled and the response bytes taken of one
still to be completed. -/
inductive InFlush (x : State) : State → List Answer → List Byte → Prop
  | sending (k : Nat) (hk : k < 10 + 2 * x.nbytes) : InFlush x (x.sending k) [] []
  | receiving (got : List Byte) (hlen : got.length < x.nbytes) : InFlush x (x.receiving got) [] got
  | verifying (got : List Byte) (i : Nat) (hlen : got.length = x.nbytes) (hi : i < x.nbytes)
    (hagree : ∀ j, j < i → (x.heard got).agreesAt j = true) : InFlush x (x.verifying got i) [.bytes got] []
  | clearing (got : List Byte) (hlen : got.length = x.nbytes)
    (hall : ∀ j, j < x.nbytes → (x.heard got).agreesAt j = true) : InFlush x (x.clearing got) [.bytes got] []

theorem InFlush.cph (h : InFlush x m spelled taken) : m.cph = .flush := by cases h <;> rfl

theorem InFlush.fph (h : InFlush x m spelled taken) : m.fph ≠ .idle := by
  cases h with
  | sending k hk => exact State.phaseAt_ne_idle x.nbytes k
  | _ => exact FlushPhase.noConfusion

theorem InFlush.of_sending (hN : 0 < x.nbytes) {k : Nat} (hk : k ≤ 10 + 2 * x.nbytes) :
    InFlush x (x.sending k) [] [] := by
  rcases Nat.lt_or_eq_of_le hk with hk | rfl
  · exact .sending k hk
  · rw [State.sending_all]; exact .receiving [] hN

/-- What one clock does to a running flush: it goes on, or it is over (R133). -/
def Clocks (x : State) (m : State) (spelled : List Answer) (taken : List Byte) : Prop :=
  InFlush x m spelled taken ∨ (taken = [] ∧ FlushOver x spelled m)

theorem Clocks.sending (hp : x.Pending) {k : Nat} (hk : k < 10 + 2 * x.nbytes) (p : PortIn) :
    Clocks x ((x.sending k).flushClock p) ((x.sending k).spells p []).1.toList ((x.sending k).spells p []).2 := by
  rw [State.spells_sending hk]
  cases hl : p.linkErr with
  | true => exact .inr ⟨rfl, State.sending_cut hp hk hl⟩
  | false =>
    refine .inl ?_
    cases ht : p.txReady with
    | true => rw [State.sending_next hp.nbytes_pos hk hl ht]; exact .of_sending hp.nbytes_pos hk
    | false => rw [State.sending_hold hp.nbytes_pos hk hl ht]; exact .sending k hk

theorem Clocks.receiving (hp : x.Pending) {got : List Byte} (hlen : got.length < x.nbytes) (p : PortIn) :
    Clocks x ((x.receiving got).flushClock p) ((x.receiving got).spells p got).1.toList
      ((x.receiving got).spells p got).2 := by
  rw [State.spells_receiving]
  cases hl : p.linkErr with
  | true => exact .inr ⟨rfl, State.receiving_cut hp got hl⟩
  | false =>
    refine .inl ?_
    cases hv : p.rxValid with
    | false => rw [State.receiving_hold got hl hv]; exact .receiving got hlen
    | true =>
      by_cases hlast : got.length < x.nbytes - 1
      · rw [State.receiving_next hlast hl hv, if_neg Bool.false_ne_true, if_pos rfl, if_pos hlast]
        exact .receiving _ (by simp; omega)
      · rw [State.receiving_last hlast hl hv, if_neg Bool.false_ne_true, if_pos rfl, if_neg hlast]
        exact .verifying _ 0 (by simp; omega) hp.nbytes_pos (by simp)

theorem Clocks.verifying (hp : x.Pending) {got : List Byte} {i : Nat} (hlen : got.length = x.nbytes)
    (hi : i < x.nbytes) (hagree : ∀ j, j < i → (x.heard got).agreesAt j = true) (p : PortIn) :
    Clocks x ((x.verifying got i).flushClock p) [.bytes got] [] := by
  cases ha : (x.heard got).agreesAt i with
  | false => exact .inr ⟨rfl, State.verifying_mismatch hp hlen hi hagree ha⟩
  | true =>
    refine .inl ?_
    have hagree' := Nat.forall_lt_succ_right.2 ⟨hagree, ha⟩
    rcases Nat.lt_or_ge (i + 1) x.nbytes with hnext | hlast
    · rw [State.verifying_agree (by omega) ha]; exact .verifying got (i + 1) hlen hnext hagree'
    · rw [State.verifying_last (by omega) ha]; exact .clearing got hlen fun j hj => hagree' j (by omega)

/-- Every clock of a running flush, with what its inputs spell (R133, R135). -/
theorem InFlush.clocks (hp : x.Pending) (h : InFlush x m spelled taken) (p : PortIn) :
    Clocks x (m.flushClock p) (spelled ++ (m.spells p taken).1.toList) (m.spells p taken).2 := by
  cases h with
  | sending k hk => exact Clocks.sending hp hk p
  | receiving got hlen => exact Clocks.receiving hp hlen p
  | verifying got i hlen hi hagree =>
    rw [State.spells_verifying]; exact Clocks.verifying hp hlen hi hagree p
  | clearing got hlen hall =>
    rw [State.spells_clearing]; exact .inr ⟨rfl, State.clearing_over hp hlen hall⟩

/-- A run from inside a flush to an idle block passes through the end of the flush. -/
theorem InFlush.run (hp : x.Pending) {t : State} (hidle : t.cph = .idle) (ps : List PortIn)
    (h : InFlush x m spelled taken) (hrst : ∀ q ∈ ps, q.rst = false) (hrun : runClock ps m = .ok t) :
    ∃ qs n as, FlushOver x (spelled ++ as) n ∧ (∀ q ∈ qs, q.rst = false) ∧ runClock qs n = .ok t
      ∧ spelledAnswers ps m taken = as ++ spelledAnswers qs n [] := by
  induction ps generalizing m spelled taken with
  | nil => cases hrun; rw [h.cph] at hidle; cases hidle
  | cons p ps ih =>
    obtain ⟨hp', hps⟩ := List.forall_mem_cons.1 hrst
    have hclock := clock_of_flush hp' h.cph h.fph
    rw [runClock, hclock] at hrun
    rw [spelledAnswers_cons hclock]
    rcases h.clocks hp p with hin | ⟨htaken, hover⟩
    · obtain ⟨qs, n, as, hover, hqs, hrun', hspell⟩ := ih hin hps hrun
      exact ⟨qs, n, _ ++ as, by rwa [← List.append_assoc], hqs, hrun', by rw [hspell, List.append_assoc]⟩
    · exact ⟨ps, _, _, hover, hps, hrun, by rw [htaken]⟩

/-! ### Runs with chosen inputs -/

/-- Some inputs without reset run the block from `m` to `n` and spell these answers; the bytes taken of a response
under way are those given before and after. -/
def Reaches (m : State) (taken : List Byte) (spelled : List Answer) (n : State) (taken' : List Byte) : Prop :=
  ∃ ps, (∀ q ∈ ps, q.rst = false) ∧ ∀ rest, runClock (ps ++ rest) m = runClock rest n
    ∧ spelledAnswers (ps ++ rest) m taken = spelled ++ spelledAnswers rest n taken'

theorem Reaches.refl (m : State) (taken : List Byte) : Reaches m taken [] m taken :=
  ⟨[], by simp, fun _ => ⟨rfl, rfl⟩⟩

theorem Reaches.trans {n o : State} {taken' taken'' : List Byte} {as bs : List Answer}
    (h : Reaches m taken as n taken') (h' : Reaches n taken' bs o taken'') :
    Reaches m taken (as ++ bs) o taken'' := by
  obtain ⟨ps, hps, hrun⟩ := h
  obtain ⟨qs, hqs, hrun'⟩ := h'
  refine ⟨ps ++ qs, List.forall_mem_append.2 ⟨hps, hqs⟩, fun rest => ?_⟩
  rw [List.append_assoc, (hrun _).1, (hrun _).2, (hrun' _).1, (hrun' _).2, List.append_assoc]
  exact ⟨rfl, rfl⟩

theorem Reaches.clock {n : State} (hr : p.rst = false) (h : clock p m = .ok n) (taken : List Byte) :
    Reaches m taken (m.spells p taken).1.toList n (m.spells p taken).2 := by
  refine ⟨[p], by simp [hr], fun rest => ⟨?_, ?_⟩⟩
  · rw [List.singleton_append, runClock, h]
  · rw [List.singleton_append, spelledAnswers_cons h]

/-- A clock of a running flush with these inputs. -/
theorem InFlush.reaches (h : InFlush x m spelled taken) (hr : p.rst = false) :
    Reaches m taken (m.spells p taken).1.toList (m.flushClock p) (m.spells p taken).2 :=
  .clock hr (clock_of_flush hr h.cph h.fph) taken

/-- Inputs of a transport that takes every byte and offers this one. -/
def offering (b : Byte) : PortIn :=
  { rst := false, cmdValid := false, cmdWord := 0#32, txReady := true, rxValid := true, rxData := b
    linkErr := false }

/-- Inputs of a transport that fails. -/
def failing : PortIn := { offering 0#8 with linkErr := true }

/-- The transport takes the request up to byte `j`. -/
theorem State.sending_reaches (hN : 0 < x.nbytes) {j : Nat} (hj : j ≤ 10 + 2 * x.nbytes) :
    Reaches (x.sending 0) [] [] (x.sending j) [] := by
  induction j with
  | zero => exact .refl _ _
  | succ j ih =>
    have hstep := (InFlush.sending j hj).reaches (p := offering 0#8) rfl
    rw [State.sending_next hN hj rfl rfl, State.spells_sending hj] at hstep
    exact (ih (by omega)).trans hstep

/-- The transport gives the rest of the response. -/
theorem State.receiving_reaches {got more : List Byte} (hmore : more ≠ [])
    (hlen : (got ++ more).length = x.nbytes) :
    Reaches (x.receiving got) got [.bytes (got ++ more)] (x.verifying (got ++ more) 0) [] := by
  induction more generalizing got with
  | nil => exact absurd rfl hmore
  | cons b more ih =>
    have hlen' : got.length + (more.length + 1) = x.nbytes := by simpa using hlen
    have hstep := (InFlush.receiving (x := x) got (by omega)).reaches (p := offering b) rfl
    have hspell : (x.receiving got).spells (offering b) got
        = if got.length < x.nbytes - 1 then (none, got ++ [b]) else (some (.bytes (got ++ [b])), []) :=
      State.spells_receiving x got (offering b) got
    rw [hspell] at hstep
    by_cases hlast : got.length < x.nbytes - 1
    · rw [State.receiving_next hlast rfl rfl, if_pos hlast] at hstep
      have hne : more ≠ [] := by rintro rfl; simp at hlen'; omega
      have hrest := ih (got := got ++ [b]) hne (by simpa using hlen)
      rw [List.append_assoc, List.singleton_append] at hrest
      exact hstep.trans hrest
    · obtain rfl : more = [] := List.eq_nil_of_length_eq_zero (by omega)
      rw [State.receiving_last hlast rfl rfl, if_neg hlast] at hstep
      exact hstep

/-- The block compares the response to the end of the flush. -/
theorem State.verifying_reaches (hp : x.Pending) {got : List Byte} (hlen : got.length = x.nbytes) (left i : Nat)
    (hleft : i + left + 1 = x.nbytes) (hagree : ∀ j, j < i → (x.heard got).agreesAt j = true) :
    ∃ n, FlushOver x [.bytes got] n ∧ Reaches (x.verifying got i) [] [] n [] := by
  induction left generalizing i with
  | zero =>
    have hstep := (InFlush.verifying got i hlen (by omega) hagree).reaches (p := offering 0#8) rfl
    cases ha : (x.heard got).agreesAt i with
    | false => exact ⟨_, State.verifying_mismatch hp hlen (by omega) hagree ha, hstep⟩
    | true =>
      have hall : ∀ j, j < x.nbytes → (x.heard got).agreesAt j = true :=
        hleft ▸ Nat.forall_lt_succ_right.2 ⟨hagree, ha⟩
      rw [State.verifying_last hleft ha] at hstep
      exact ⟨_, State.clearing_over hp hlen hall, hstep.trans
        ((InFlush.clearing got hlen hall).reaches (p := offering 0#8) rfl)⟩
  | succ left ih =>
    have hstep := (InFlush.verifying got i hlen (by omega) hagree).reaches (p := offering 0#8) rfl
    cases ha : (x.heard got).agreesAt i with
    | false => exact ⟨_, State.verifying_mismatch hp hlen (by omega) hagree ha, hstep⟩
    | true =>
      rw [State.verifying_agree (by omega) ha] at hstep
      obtain ⟨n, hover, hrest⟩ := ih (i + 1) (by omega) (Nat.forall_lt_succ_right.2 ⟨hagree, ha⟩)
      exact ⟨n, hover, hstep.trans hrest⟩

/-- A flush that uses an answer has one end. -/
theorem FlushEnds.unique {a : Answer} {st st' : Status} {v v' : State} (h : FlushEnds x [a] st v)
    (h' : FlushEnds x [a] st' v') : st = st' ∧ v = v' := by
  cases h <;> cases h' <;> exact ⟨rfl, rfl⟩

/-- The transport that gives an answer leads the flush to the end which that answer has (R133, R135). -/
theorem FlushEnds.reaches (hp : x.Pending) {a : Answer} {st : Status} {v : State} (h : FlushEnds x [a] st v) :
    ∃ ph, Reaches (x.sending 0) [] [a] ((v.stuckIn x.nbits ph).flushReturns st) [] := by
  have hover : ∃ n, FlushOver x [a] n ∧ Reaches (x.sending 0) [] [a] n [] := by
    cases h with
    | heard _ got hlen =>
      have hsend := State.sending_reaches hp.nbytes_pos (j := 10 + 2 * x.nbytes) le_rfl
      rw [State.sending_all] at hsend
      have hne : got ≠ [] := by rintro rfl; have := hp.nbytes_pos; simp at hlen; omega
      obtain ⟨n, hover, hverify⟩ := State.verifying_reaches hp hlen (x.nbytes - 1) 0
        (by have := hp.nbytes_pos; omega) (by simp)
      exact ⟨n, hover, hsend.trans ((State.receiving_reaches (got := []) hne hlen).trans hverify)⟩
    | cut _ k hk =>
      have hsend := State.sending_reaches hp.nbytes_pos hk
      rcases Nat.lt_or_eq_of_le hk with hk | rfl
      · have hstep := (InFlush.sending k hk).reaches (p := failing) rfl
        rw [State.spells_sending hk] at hstep
        exact ⟨_, State.sending_cut hp hk rfl, hsend.trans hstep⟩
      · rw [State.sending_all] at hsend
        have hstep := (InFlush.receiving (x := x) [] hp.nbytes_pos).reaches (p := failing) rfl
        rw [State.spells_receiving] at hstep
        exact ⟨_, State.receiving_cut hp [] rfl, hsend.trans hstep⟩
  obtain ⟨n, ⟨st', v', ph, hends, rfl⟩, hreach⟩ := hover
  obtain ⟨rfl, rfl⟩ := h.unique hends
  exact ⟨ph, hreach⟩

end Sys2Proof.Machine
end

section
/-! The command phases, clock by clock (spec/43_sync_protocol.md R134): what `C_REC` and `C_WLOOP` come to, and
that a status is given at the end of a command and nowhere else. -/

namespace Sys2Proof.Machine

variable {s m n t : State} {p : PortIn} {ps : List PortIn}

/-! ### The phases of a cycle -/

theorem State.recordPhase_failed (he : s.err = true) (tms tdi tdo compare sync : Bool) :
    s.recordPhase tms tdi tdo compare sync = .ok (s.toRsp .alreadyFailed) := by
  rw [State.recordPhase, if_pos he]

theorem State.recordPhase_full (he : s.err = false) (h : s.cap ≤ s.byteIdx) (tms tdi tdo compare sync : Bool) :
    s.recordPhase tms tdi tdo compare sync = .error .invariantViolation := by
  rw [State.recordPhase, he, State.recordBits_of_le h]
  rfl

/-- The bits of a cycle with room, as `afterCycle` has them before the cursor moves. -/
theorem State.recordBits_stored (h : s.byteIdx < s.cap) (tms tdi tdo compare : Bool) :
    s.recordBits tms tdi tdo compare = .ok (s.stored tms tdi tdo compare) :=
  State.recordBits_of_lt h ..

/-- `C_REC` with room and no failure: the cycle is stored, and a flush of the batch starts at capacity or on
request (R100, R134). -/
theorem State.recordPhase_room (he : s.err = false) (h : s.byteIdx < s.cap) (tms tdi tdo compare sync : Bool) :
    s.recordPhase tms tdi tdo compare sync =
      if s.atLastBit = true ∨ sync = true then (s.afterCycle tms tdi tdo compare).startFlush .command
      else .ok ((s.afterCycle tms tdi tdo compare).toRsp .ok) := by
  have hroom : ¬ s.cap ≤ s.byteIdx := by omega
  rw [State.recordPhase, he, State.recordBits_stored h, State.afterCycle_eq]
  simp only [Bool.false_eq_true, if_false, State.stored_cap, State.stored_byteIdx, State.stored_atLastBit, hroom,
    Bool.or_eq_true]

/-- `C_WLOOP` once the idle cycles are over (R112, R134). -/
theorem State.waitPhase_over (h : s.hid.wcnt = 0#24 ∨ s.hid.wres ≠ .ok) (tms : Bool) :
    s.waitPhase tms = s.startFlush .trailing := by
  rw [State.waitPhase, if_neg (by tauto)]

section
variable (hcount : s.hid.wcnt ≠ 0#24) (hres : s.hid.wres = .ok)
include hcount hres

theorem State.waitPhase_failed (he : s.err = true) (tms : Bool) :
    s.waitPhase tms = .ok (s.countIdle .alreadyFailed) := by
  rw [State.waitPhase, if_pos ⟨hcount, hres⟩, if_pos he]

theorem State.waitPhase_full (he : s.err = false) (h : s.cap ≤ s.byteIdx) (tms : Bool) :
    s.waitPhase tms = .error .invariantViolation := by
  rw [State.waitPhase, if_pos ⟨hcount, hres⟩, he, State.recordBits_of_le h]
  rfl

/-- One idle cycle with room: it is stored and counted, and a flush of the batch starts at capacity (R111). -/
theorem State.waitPhase_room (he : s.err = false) (h : s.byteIdx < s.cap) (tms : Bool) :
    s.waitPhase tms =
      if s.atLastBit = true then ((s.afterCycle tms false false false).countIdle .ok).startFlush .idleCycle
      else .ok ((s.afterCycle tms false false false).countIdle .ok) := by
  have hroom : ¬ s.cap ≤ s.byteIdx := by omega
  rw [State.waitPhase, if_pos ⟨hcount, hres⟩, he, State.recordBits_stored h, State.afterCycle_eq]
  simp only [Bool.false_eq_true, if_false, State.stored_cap, State.stored_byteIdx, State.stored_atLastBit, hroom]

end

/-! ### When a status is given -/

/-- A clock that does not end the command: the block stays busy and gives no status. -/
structure StaysBusy (s : State) (c : Clocked) : Prop where
  keeps : ∀ n, c = .ok n → n.responses = s.responses ∧ n.cph ≠ .idle

theorem StaysBusy.of_ok (hr : n.responses = s.responses) (hc : n.cph ≠ .idle) : StaysBusy s (.ok n) :=
  ⟨fun _ h => by cases h; exact ⟨hr, hc⟩⟩

theorem StaysBusy.of_error (f : Fault) : StaysBusy s (.error f) := ⟨fun _ h => by cases h⟩

theorem StaysBusy.startFlush (hr : n.responses = s.responses) (k : FlushCaller) : StaysBusy s (n.startFlush k) := by
  rcases n.startFlush_cases k with ⟨_, h⟩ | ⟨_, _, h⟩ | ⟨_, _, _, h⟩ | ⟨_, _, _, h⟩ <;> rw [h]
  · exact .of_ok hr CmdPhase.noConfusion
  · exact .of_ok hr CmdPhase.noConfusion
  · exact .of_error _
  · exact .of_ok hr CmdPhase.noConfusion

theorem StaysBusy.recordPhase (s : State) (tms tdi tdo compare sync : Bool) :
    StaysBusy s (s.recordPhase tms tdi tdo compare sync) := by
  have hcycle := (s.afterCycle_frame tms tdi tdo compare).responses
  cases he : s.err with
  | true => rw [State.recordPhase_failed he]; exact .of_ok rfl CmdPhase.noConfusion
  | false =>
    rcases Nat.lt_or_ge s.byteIdx s.cap with hroom | hfull
    · rw [State.recordPhase_room he hroom]
      split
      · exact .startFlush hcycle _
      · exact .of_ok ((State.toRsp_responses ..).trans hcycle) CmdPhase.noConfusion
    · rw [State.recordPhase_full he hfull]; exact .of_error _

theorem StaysBusy.waitPhase (hc : s.cph ≠ .idle) (tms : Bool) : StaysBusy s (s.waitPhase tms) := by
  have hframe := s.afterCycle_frame tms false false false
  by_cases hover : s.hid.wcnt = 0#24 ∨ s.hid.wres ≠ .ok
  · rw [State.waitPhase_over hover]; exact .startFlush rfl _
  · obtain ⟨hcount, hres⟩ : s.hid.wcnt ≠ 0#24 ∧ s.hid.wres = .ok := by tauto
    cases he : s.err with
    | true => rw [State.waitPhase_failed hcount hres he]; exact .of_ok rfl hc
    | false =>
      rcases Nat.lt_or_ge s.byteIdx s.cap with hroom | hfull
      · rw [State.waitPhase_room hcount hres he hroom]
        split
        · exact .startFlush ((State.countIdle_responses ..).trans hframe.responses) _
        · exact .of_ok ((State.countIdle_responses ..).trans hframe.responses)
            (by rw [State.countIdle_cph, hframe.cph]; exact hc)
      · rw [State.waitPhase_full hcount hres he hfull]; exact .of_error _

theorem StaysBusy.commandPhase (hc : s.cph ≠ .idle) : StaysBusy s s.commandPhase := by
  unfold State.commandPhase
  split
  · exact .recordPhase ..
  · exact .waitPhase hc _
  · exact .of_ok rfl hc

theorem StaysBusy.dispatchCommand (s : State) (w : Word) : StaysBusy s (s.dispatchCommand w) := by
  unfold State.dispatchCommand
  split
  · exact .of_ok rfl CmdPhase.noConfusion
  · exact .of_ok rfl CmdPhase.noConfusion
  · exact .of_ok rfl CmdPhase.noConfusion
  · split <;> exact .of_ok rfl CmdPhase.noConfusion
  · split <;> exact .of_ok rfl CmdPhase.noConfusion
  · split
    · exact .startFlush rfl _
    · exact .of_ok rfl CmdPhase.noConfusion
  · split
    · exact .startFlush rfl _
    · exact .of_ok rfl CmdPhase.noConfusion

theorem State.flushDone_frame (s : State) : s.flushDone.responses = s.responses ∧ s.flushDone.cph ≠ .idle := by
  unfold State.flushDone
  split <;> exact ⟨rfl, CmdPhase.noConfusion⟩

theorem State.sendPhase_frame (s : State) (p : PortIn) (last : Nat) (next : FlushPhase) :
    (s.sendPhase p last next).responses = s.responses ∧ (s.sendPhase p last next).cph = s.cph := by
  unfold State.sendPhase
  split
  · exact ⟨rfl, rfl⟩
  · split
    · split
      · unfold State.sendByte; split <;> exact ⟨rfl, rfl⟩
      · exact ⟨rfl, rfl⟩
    · exact ⟨rfl, rfl⟩

theorem State.flushClock_frame (s : State) (p : PortIn) :
    (s.flushClock p).responses = s.responses ∧ (s.flushClock p).cph = s.cph := by
  unfold State.flushClock
  split
  · exact ⟨rfl, rfl⟩
  · exact s.sendPhase_frame ..
  · exact s.sendPhase_frame ..
  · exact s.sendPhase_frame ..
  · exact s.sendPhase_frame ..
  · unfold State.receivePhase
    split
    · exact ⟨rfl, rfl⟩
    · split
      · dsimp only; split <;> exact ⟨rfl, rfl⟩
      · exact ⟨rfl, rfl⟩
  · rcases s.verifyPhase_cases with ⟨_, h⟩ | ⟨_, _, h⟩ | ⟨_, _, h⟩ <;> rw [h] <;> simp
  · exact ⟨rfl, rfl⟩

/-- A clock of a command other than its last gives no status (R134). -/
theorem StaysBusy.clock (hr : p.rst = false) (hc : s.cph ≠ .idle) (hrsp : s.cph ≠ .rsp) :
    StaysBusy s (clock p s) := by
  unfold Machine.clock
  rw [hr, if_neg Bool.false_ne_true]
  cases hph : s.cph with
  | idle => exact absurd hph hc
  | setup => exact .of_ok rfl CmdPhase.noConfusion
  | record => exact .commandPhase hc
  | wloop => exact .commandPhase hc
  | flush =>
    dsimp only
    split
    · exact .of_ok s.flushDone_frame.1 s.flushDone_frame.2
    · obtain ⟨hresp, hcph⟩ := s.flushClock_frame p
      exact .of_ok hresp (hcph ▸ hc)
  | rsp => exact absurd hph hrsp

/-- The last clock of a command (R134 `C_RSP`). -/
theorem clock_of_rsp (hr : p.rst = false) (hc : s.cph = .rsp) : clock p s = .ok (s.conclude s.hid.rsp) := by
  rw [← State.rspPhase_eq_conclude]
  simp only [clock, hr, hc, Bool.false_eq_true, if_false]

/-- The block with this command word latched in `CMD` (R134). -/
def State.latch (s : State) (w : Word) : State := { s with hid := { s.hid with cmd := w } }

/-- An idle block takes the command that is offered (R60, R134). -/
theorem clock_of_offer (hr : p.rst = false) (hc : s.cph = .idle) (hv : p.cmdValid = true) :
    clock p s = (s.latch p.cmdWord).dispatchCommand p.cmdWord := by
  simp only [clock, hr, hc, Bool.false_eq_true, if_false, State.idlePhase, hv, if_true]
  rfl

theorem clock_of_no_offer (hr : p.rst = false) (hc : s.cph = .idle) (hv : p.cmdValid = false) :
    clock p s = .ok s := by
  simp only [clock, hr, hc, Bool.false_eq_true, if_false, State.idlePhase, hv]

theorem State.conclude_responses (s : State) (st : Status) :
    (s.conclude st).responses = s.responses ++ [(s.hid.cmd, st)] := by
  unfold State.conclude; split <;> rfl

/-- Everything a clock can do to the statuses (R134): an idle block waits or takes a command, a busy one goes on
or ends its command. -/
theorem clock_responses (hr : p.rst = false) (h : clock p m = .ok n) :
    (m.cph = .idle ∧ n = m) ∨ (n.responses = m.responses ∧ n.cph ≠ .idle) ∨
    (m.cph ≠ .idle ∧ n.cph = .idle ∧ n.responses.length = m.responses.length + 1) := by
  by_cases hc : m.cph = .idle
  · cases hv : p.cmdValid with
    | true =>
      rw [clock_of_offer hr hc hv] at h
      exact .inr (.inl ((StaysBusy.dispatchCommand (m.latch p.cmdWord) p.cmdWord).keeps n h))
    | false => rw [clock_of_no_offer hr hc hv] at h; cases h; exact .inl ⟨hc, rfl⟩
  · by_cases hrsp : m.cph = .rsp
    · rw [clock_of_rsp hr hrsp] at h
      cases h
      exact .inr (.inr ⟨hc, State.conclude_cph .., by simp [State.conclude_responses]⟩)
    · exact .inr (.inl ((StaysBusy.clock hr hc hrsp).keeps n h))

/-- A run to an idle block gives the status of the command that it begins in (R134). -/
theorem run_responses (hrst : ∀ q ∈ ps, q.rst = false) (hrun : runClock ps m = .ok t) (ht : t.cph = .idle) :
    m.responses.length ≤ t.responses.length
      ∧ (m.cph ≠ .idle → m.responses.length < t.responses.length) := by
  induction ps generalizing m with
  | nil => cases hrun; exact ⟨le_rfl, fun hc => absurd ht hc⟩
  | cons p ps ih =>
    obtain ⟨hp, hps⟩ := List.forall_mem_cons.1 hrst
    rw [runClock] at hrun
    split at hrun
    · next n hclock =>
      obtain ⟨hle, hlt⟩ := ih hps hrun
      rcases clock_responses hp hclock with ⟨hc, rfl⟩ | ⟨hresp, hbusy⟩ | ⟨_, _, hresp⟩
      · exact ⟨hle, hlt⟩
      · have := hresp ▸ hlt hbusy
        exact ⟨this.le, fun _ => this⟩
      · exact ⟨by omega, fun _ => by omega⟩
    · cases hrun

/-- A run of an idle block that gives no status takes no command, and changes and spells nothing. -/
theorem run_of_idle (hrst : ∀ q ∈ ps, q.rst = false) (hrun : runClock ps m = .ok t) (ht : t.cph = .idle)
    (hc : m.cph = .idle) (hf : m.fph = .idle) (hlen : t.responses.length = m.responses.length) :
    t = m ∧ spelledAnswers ps m [] = [] := by
  induction ps with
  | nil => cases hrun; exact ⟨rfl, rfl⟩
  | cons p ps ih =>
    obtain ⟨hp, hps⟩ := List.forall_mem_cons.1 hrst
    rw [runClock] at hrun
    split at hrun
    · next n hclock =>
      rcases clock_responses hp hclock with ⟨_, rfl⟩ | ⟨hresp, hbusy⟩ | ⟨hbusy, _⟩
      · obtain ⟨htn, hspell⟩ := ih hps hrun
        refine ⟨htn, ?_⟩
        rw [spelledAnswers_cons hclock, State.spells_of_idle hf, hspell]
        rfl
      · have hlt := (run_responses hps hrun ht).2 hbusy
        rw [hresp] at hlt; omega
      · exact absurd hc hbusy
    · cases hrun

end Sys2Proof.Machine
end

section
/-! The refinement (spec/43_sync_protocol.md R135): a state of the clocked block simulates the rest of a big step
when each of its runs is one for the answers it spells, and some run of it spells what the big step takes. -/

namespace Sys2Proof.Machine

variable {s t u v x m n : State} {st : Status} {r : Ran} {p : PortIn} {ps : List PortIn} {as : List Answer}

/-! ### A procedure and what comes after it -/

/-- A procedure of the big step, and what a caller makes of its status and state. -/
def Ran.andThen (r : Ran) (f : Status → State → Ran) : Ran :=
  match r with
  | .done st t => f st t
  | .hung t => .hung t
  | .bad f => .bad f

theorem Ran.andThen_done {f : Status → State → Ran} (h : r.andThen f = .done st u) :
    ∃ st' t, r = .done st' t ∧ f st' t = .done st u := by
  cases r with
  | done st' t => exact ⟨st', t, rfl, h⟩
  | hung t => cases h
  | bad f => cases h

theorem Ran.andThen_done_self (r : Ran) : r.andThen .done = r := by cases r <;> rfl

/-! ### Simulation -/

/-- The clocked block in `m` and the rest `r` of a big step from `s`, which holds the answers to come: each run of
`m` to the end of its command for the answers of `s` ends as `r` does, and has used them all (R135, first
half); and where `r` ends, a run of `m` ends so too, which spells what `r` took (second half). -/
structure Sim (m s : State) (r : Ran) : Prop where
  concluded : ∀ {ps t}, (∀ q ∈ ps, q.rst = false) → runClock ps m = .ok t → t.cph = .idle →
    t.responses.length = m.responses.length + 1 → s.rx = [] → s.answers = spelledAnswers ps m [] →
    ∃ st u, r = .done st u ∧ (u.conclude st).visible = t.visible ∧ u.rx = [] ∧ u.answers = []
  realized : ∀ {st u}, r = .done st u → ∃ as t, Reaches m [] as t [] ∧ t.visible = (u.conclude st).visible
    ∧ SpellsFrom as s.rx s.answers u.rx u.answers

/-- The simulation after a clock that has this result; a clock that faults leaves no end of the big step. -/
structure SimAfter (c : Clocked) (s : State) (r : Ran) : Prop where
  ok : ∀ n, c = .ok n → Sim n s r
  error : ∀ f, c = .error f → ∀ st u, r ≠ .done st u

theorem SimAfter.of_ok (h : Sim n s r) : SimAfter (.ok n) s r :=
  ⟨fun _ e => (by cases e; exact h), fun _ e => (by cases e)⟩

theorem SimAfter.of_error (f g : Fault) : SimAfter (.error f) s (.bad g) :=
  ⟨fun _ e => (by cases e), fun _ _ _ _ e => (by cases e)⟩

/-- The simulation reads of `s` the inputs to come only. -/
theorem Sim.of_inputs (h : Sim m t r) (hrx : t.rx = s.rx) (ha : t.answers = s.answers) : Sim m s r where
  concluded := by rw [← hrx, ← ha]; exact h.concluded
  realized := by rw [← hrx, ← ha]; exact h.realized

theorem SimAfter.of_inputs {c : Clocked} (h : SimAfter c t r) (hrx : t.rx = s.rx) (ha : t.answers = s.answers) :
    SimAfter c s r :=
  ⟨fun n e => (h.ok n e).of_inputs hrx ha, h.error⟩

/-- A clock inside a command, outside the phases of a flush, whose result does not depend on the inputs. -/
theorem Sim.of_clock {c : Clocked} (hc : m.cph ≠ .idle) (hrsp : m.cph ≠ .rsp) (hf : m.fph = .idle)
    (hclock : ∀ p, p.rst = false → clock p m = c) (h : SimAfter c s r) : Sim m s r where
  concluded {ps t} hrst hrun ht hlen hrx ha := by
    cases ps with
    | nil => cases hrun; exact absurd ht hc
    | cons p ps =>
      obtain ⟨hp, hps⟩ := List.forall_mem_cons.1 hrst
      rw [runClock] at hrun
      split at hrun
      · next n hn =>
        rw [spelledAnswers_cons hn, State.spells_of_idle hf] at ha
        have hresp := ((StaysBusy.clock hp hc hrsp).keeps n hn).1
        exact (h.ok n ((hclock p hp).symm.trans hn)).concluded hps hrun ht (by rw [hlen, hresp]) hrx ha
      · cases hrun
  realized {st u} hr := by
    have hclock' := hclock (offering 0#8) rfl
    cases hcase : c with
    | error f => exact absurd hr (h.error f hcase st u)
    | ok n =>
      obtain ⟨as, t, hreach, hvisible, hspells⟩ := (h.ok n hcase).realized hr
      have hstep := Reaches.clock rfl (hclock'.trans hcase) []
      rw [State.spells_of_idle hf] at hstep
      exact ⟨as, t, hstep.trans hreach, hvisible, hspells⟩

/-- The last clock of a command. -/
theorem Sim.of_rsp (hc : m.cph = .rsp) (hf : m.fph = .idle) (e : m.core = s.core) :
    Sim m s (.done m.hid.rsp s) where
  concluded {ps t} hrst hrun ht hlen hrx ha := by
    cases ps with
    | nil => cases hrun; rw [hc] at ht; cases ht
    | cons p ps =>
      obtain ⟨hp, hps⟩ := List.forall_mem_cons.1 hrst
      have hclock := clock_of_rsp hp hc
      rw [runClock, hclock] at hrun
      rw [spelledAnswers_cons hclock, State.spells_of_idle hf] at ha
      obtain ⟨rfl, hspell⟩ := run_of_idle hps hrun ht (State.conclude_cph ..) (State.conclude_fph ..)
        (by simp [hlen, State.conclude_responses])
      exact ⟨_, s, rfl, (visible_conclude e _).symm, hrx, ha.trans hspell⟩
  realized hr := by
    cases hr
    have hstep := Reaches.clock (p := offering 0#8) rfl (clock_of_rsp rfl hc) []
    rw [State.spells_of_idle hf] at hstep
    exact ⟨[], _, hstep, visible_conclude e _, rfl, rfl⟩

/-! ### A flush inside a command -/

/-- The clocked block `m` and the block `s` of the big step, with the arrays that hold the responses to come in
canonical form. -/
structure Alike (m s : State) : Prop where
  core : m.core = s.core
  obs_wf : Memory.wf m.obs = true
  obs_wf_step : Memory.wf s.obs = true

/-- The flush that `k` called from `x` has returned a status (R133, R134). -/
structure Returned (x : State) (k : FlushCaller) (n : State) (st : Status) : Prop where
  cph : n.cph = .flush
  fph : n.fph = .idle
  fres : n.hid.fres = st
  caller : n.hid.caller = k
  wcnt : n.hid.wcnt = x.hid.wcnt
  wres : n.hid.wres = x.hid.wres
  cmd : n.hid.cmd = x.hid.cmd

/-- The block that a caller has sent into a flush. -/
def State.calledBy (x : State) (k : FlushCaller) : State := { x with hid := { x.hid with caller := k } }

theorem State.startFlush_pending (hp : x.Pending) (k : FlushCaller) :
    x.startFlush k = .ok ((x.calledBy k).sending 0) := by
  have hsent : (x.calledBy k).sent 0 = x.calledBy k := by
    rw [State.sent, List.take_zero, List.append_nil]
  rcases x.startFlush_cases k with ⟨h0, _⟩ | ⟨_, he, _⟩ | ⟨_, _, hfull, _⟩ | ⟨_, _, _, h⟩
  · exact absurd h0 (Nat.ne_of_gt hp.nbits_pos)
  · rw [hp.err] at he; cases he
  · exact absurd hp.fits (Nat.not_le.2 hfull)
  · rw [h, State.sending, hsent]; rfl

theorem State.verify_frame (s : State) (k : Nat) :
    (s.verify k).2.hid = s.hid ∧ Memory.wf (s.verify k).2.obs = true := by
  rcases State.verify_cases (s := s) k with ⟨i, _, hv⟩ | ⟨_, hv⟩ <;> rw [hv] <;>
    exact ⟨by simp, Memory.wf_free ..⟩

/-- A flush leaves the hidden registers of its caller, and `OBS` in canonical form. -/
theorem FlushEnds.frame (h : FlushEnds x as st v) (hw : Memory.wf x.obs = true) :
    v.hid = x.hid ∧ Memory.wf v.obs = true := by
  cases h with
  | empty h0 => exact ⟨rfl, hw⟩
  | failed h0 he => exact ⟨rfl, hw⟩
  | heard hp got hlen => exact (x.heard got).verify_frame x.nbytes
  | cut hp k hk => exact ⟨rfl, Memory.wf_free ..⟩

theorem FlushEnds.returned {k : FlushCaller} {ph : FlushPhase × Nat} (h : FlushEnds (x.calledBy k) as st v)
    (hw : Memory.wf x.obs = true) (bits : Nat) : Returned x k ((v.stuckIn bits ph).flushReturns st) st := by
  obtain ⟨hhid, _⟩ := h.frame hw
  refine ⟨rfl, rfl, rfl, ?_, ?_, ?_, ?_⟩
  · change v.hid.caller = k; rw [hhid]; rfl
  · change v.hid.wcnt = _; rw [hhid]; rfl
  · change v.hid.wres = _; rw [hhid]; rfl
  · change v.hid.cmd = _; rw [hhid]; rfl

/-- A flush that does I/O uses one answer. -/
theorem FlushEnds.single (h : FlushEnds x as st v) (hp : x.Pending) : ∃ a, as = [a] := by
  cases h with
  | empty h0 => exact absurd h0 (Nat.ne_of_gt hp.nbits_pos)
  | failed h0 he => rw [hp.err] at he; cases he
  | heard _ got _ => exact ⟨_, rfl⟩
  | cut _ k _ => exact ⟨_, rfl⟩

/-- Whether the core or the whole of a state is given, its flush has the same ends. -/
theorem FlushEnds.of_core (h : FlushEnds x as st v) (e : x.core = s.core) (hx : Memory.wf x.obs = true)
    (hs : Memory.wf s.obs = true) : ∃ v', FlushEnds s as st v' ∧ v'.core = v.core := by
  have hnbits := same_of_core e State.nbits
  have hnbytes := same_of_core e State.nbytes
  cases h with
  | empty h0 => exact ⟨s, .empty (hnbits ▸ h0), e.symm⟩
  | failed h0 he => exact ⟨s, .failed (hnbits ▸ h0) ((same_of_core e State.err).symm.trans he), e.symm⟩
  | heard hp got hlen =>
    have hheard : ∀ i, i < x.nbytes → Memory.read (x.heard got).obs i = Memory.read (s.heard got).obs i :=
      fun i hi => by
        have hin : 0 ≤ i ∧ i < 0 + got.length := ⟨by omega, by omega⟩
        change Memory.read (Memory.writeRange _ 0 got) i = Memory.read (Memory.writeRange _ 0 got) i
        rw [Memory.read_writeRange hx, Memory.read_writeRange hs, if_pos hin, if_pos hin]
    obtain ⟨hstatus, hcore⟩ := verify_congr (core_congr e fun v => v.heard got) hheard
    rw [hstatus]
    rw [hnbytes] at hcore hlen ⊢
    exact ⟨_, .heard (hp.of_core e.symm) got hlen, hcore.symm⟩
  | cut hp k hk =>
    exact ⟨_, .cut (hp.of_core e.symm) k (hnbytes ▸ hk),
      (core_congr e fun v => ((v.sent k).raise .connectivity).forgetObs).symm⟩

theorem State.flush_obs_wf (h : s.flush = .done st u) (hs : Memory.wf s.obs = true) : Memory.wf u.obs = true := by
  rcases State.flush_done h with ⟨_, _, rfl⟩ | ⟨_, _, _, rfl⟩ | ⟨_, _, _, _, _, _, _, _, rfl⟩
    | ⟨_, _, _, _, _, _, _, rfl⟩ | ⟨_, _, _, _, _, _, rfl⟩
  · exact hs
  · exact hs
  · exact Memory.wf_free ..
  · exact Memory.wf_free ..
  · exact Memory.wf_free ..

/-- A flush that does I/O, inside a command whose rest is simulated from where the flush returns. -/
theorem Sim.flush (hp : x.Pending) (h : Alike x s) (k : FlushCaller) {f : Status → State → Ran}
    (hnext : ∀ n st u, Returned x k n st → Alike n u → Sim n u (f st u)) :
    Sim ((x.calledBy k).sending 0) s (s.flush.andThen f) where
  concluded {ps t} hrst hrun ht hlen hrx ha := by
    have hp' : (x.calledBy k).Pending := ⟨hp.nbits_pos, hp.err, hp.fits⟩
    obtain ⟨qs, _, as, ⟨st, v, ph, hends, rfl⟩, hqs, hrun', hspell⟩ :=
      InFlush.run hp' ht ps (.of_sending hp'.nbytes_pos (Nat.zero_le _)) hrst hrun
    obtain ⟨v', hends', hcore⟩ := hends.of_core (s := s) h.core h.obs_wf h.obs_wf_step
    obtain ⟨u, hflush, hu, hurx, huanswers⟩ := hends'.flush (ha.trans hspell) hrx
    have hgrows := closed_grows.flush s
    rw [hflush] at hgrows
    have halike : Alike ((v.stuckIn (x.calledBy k).nbits ph).flushReturns st) u :=
      ⟨(hu.trans hcore).symm, (hends.frame h.obs_wf).2, State.flush_obs_wf hflush h.obs_wf_step⟩
    have hsim := hnext _ st u (hends.returned h.obs_wf _) halike
    rw [hflush]
    refine hsim.concluded hqs hrun' ht ?_ hurx huanswers
    rw [hlen, same_of_core halike.core State.responses, hgrows.responses, ← same_of_core h.core State.responses]
    rfl
  realized {st' u'} hr := by
    have hp' : (x.calledBy k).Pending := ⟨hp.nbits_pos, hp.err, hp.fits⟩
    obtain ⟨st, u, hflush, hrest⟩ := Ran.andThen_done hr
    obtain ⟨as, v, hends, hu, hspells⟩ := State.flush_ends hflush
    obtain ⟨v', hends', hcore⟩ := hends.of_core (s := x.calledBy k) h.core.symm h.obs_wf_step h.obs_wf
    obtain ⟨a, rfl⟩ := hends'.single hp'
    obtain ⟨ph, hreach⟩ := hends'.reaches hp'
    have halike : Alike ((v'.stuckIn (x.calledBy k).nbits ph).flushReturns st) u :=
      ⟨hcore.trans hu.symm, (hends'.frame h.obs_wf).2, State.flush_obs_wf hflush h.obs_wf_step⟩
    obtain ⟨as', t, hreach', hvisible, hspells'⟩ :=
      (hnext _ st u (hends'.returned h.obs_wf _) halike).realized hrest
    exact ⟨[a] ++ as', t, hreach.trans hreach', hvisible, hspells.append hspells'⟩

/-- The start of a flush inside a command (R133, the rows of `F_IDLE`): the rest of the command is simulated
from wherever the flush returns. -/
theorem SimAfter.startFlush (h : Alike x s) (k : FlushCaller) {f : Status → State → Ran}
    (hnext : ∀ n st u, Returned x k n st → Alike n u → Sim n u (f st u)) :
    SimAfter (x.startFlush k) s (s.flush.andThen f) := by
  have hnbits := same_of_core h.core State.nbits
  have herr := same_of_core h.core State.err
  rcases x.startFlush_cases k with ⟨h0, hc⟩ | ⟨h0, he, hc⟩ | ⟨h0, he, hfull, hc⟩ | ⟨h0, he, hfits, _⟩
  · rw [hc, State.flush_empty (hnbits ▸ h0)]
    exact .of_ok (hnext _ .ok s ⟨rfl, rfl, rfl, rfl, rfl, rfl, rfl⟩ ⟨h.core, h.obs_wf, h.obs_wf_step⟩)
  · rw [hc, State.flush_alreadyFailed (herr ▸ he) (hnbits ▸ Nat.pos_of_ne_zero h0)]
    exact .of_ok (hnext _ .alreadyFailed s ⟨rfl, rfl, rfl, rfl, rfl, rfl, rfl⟩
      ⟨h.core, h.obs_wf, h.obs_wf_step⟩)
  · have hbad : s.flush = .bad .invariantViolation := by
      rw [State.flush, if_neg (hnbits ▸ h0), if_neg (by simp [← herr, he]),
        if_pos (by rw [← same_of_core h.core State.cap, ← same_of_core h.core State.nbytes]; exact hfull)]
    rw [hc, hbad]
    exact .of_error _ _
  · have hp : x.Pending := ⟨Nat.pos_of_ne_zero h0, he, hfits⟩
    rw [State.startFlush_pending hp]
    exact .of_ok (.flush hp h k hnext)

end Sys2Proof.Machine
end

section
/-! The commands of the two machines (spec/43_sync_protocol.md R134, R135): each phase of a command simulates what
the big step has left of it, and so the clocked block refines the step and the step the clocked block. -/

namespace Sys2Proof.Machine

variable {s t u v x m n : State} {st : Status} {r : Ran} {k : FlushCaller} {tms : Bool} {w : Word}

/-! ### Where a flush returns to -/

theorem Alike.afterCycle (h : Alike m s) (tms tdi tdo compare : Bool) :
    Alike (m.afterCycle tms tdi tdo compare) (s.afterCycle tms tdi tdo compare) :=
  ⟨core_afterCycle h.core .., (m.afterCycle_frame ..).obs ▸ h.obs_wf,
    (s.afterCycle_frame ..).obs ▸ h.obs_wf_step⟩

/-- A status on its way to the host. -/
theorem Sim.toRsp (h : Alike m s) (hf : m.fph = .idle) (st : Status) : Sim (m.toRsp st) s (.done st s) :=
  .of_rsp rfl hf h.core

/-- A flush that has returned goes on in its caller (R134). -/
theorem Returned.sim (h : Returned x k n st) (hnext : Sim n.flushDone s r) : Sim n s r := by
  have hclock : ∀ p, p.rst = false → clock p n = .ok n.flushDone := fun p hp => by
    simp only [clock, hp, h.cph, h.fph, Bool.false_eq_true, if_false, if_true]
  exact .of_clock (by simp [h.cph]) (by simp [h.cph]) h.fph hclock (.of_ok hnext)

/-- A flush that is all that is left of its command. -/
theorem Returned.sim_command (h : Returned x k n st) (hk : k = .command ∨ k = .shutdown) (ha : Alike n s) :
    Sim n s (.done st s) := by
  refine h.sim ?_
  have hdone : n.flushDone = n.toRsp st := by
    unfold State.flushDone
    rw [h.caller, h.fres]
    rcases hk with rfl | rfl <;> rfl
  rw [hdone]
  exact .toRsp ha h.fph st

theorem SimAfter.flush (h : Alike x s) (hk : k = .command ∨ k = .shutdown) :
    SimAfter (x.startFlush k) s s.flush := by
  rw [← Ran.andThen_done_self s.flush]
  exact .startFlush h k fun n st u hret ha => hret.sim_command hk ha

/-! ### RECORD -/

/-- `C_REC` is the recording of one cycle (R100, R134). -/
theorem SimAfter.recordPhase (h : Alike m s) (hf : m.fph = .idle) (tms tdi tdo compare sync : Bool) :
    SimAfter (m.recordPhase tms tdi tdo compare sync) s (s.recordCycle tms tdi tdo compare sync) := by
  have herr := same_of_core h.core State.err
  have hcap := same_of_core h.core State.cap
  have hidx := same_of_core h.core State.byteIdx
  have hlast := same_of_core h.core State.atLastBit
  have hcycle := h.afterCycle tms tdi tdo compare
  have hframe := s.afterCycle_frame tms tdi tdo compare
  cases he : s.err with
  | true =>
    rw [State.recordPhase_failed (herr.trans he), State.recordCycle_failed he]
    exact .of_ok (.toRsp h hf _)
  | false =>
    rcases Nat.lt_or_ge s.byteIdx s.cap with hroom | hfull
    · rw [State.recordPhase_room (herr.trans he) (by omega), State.recordCycle_room he hroom, hlast]
      refine SimAfter.of_inputs ?_ hframe.rx hframe.answers
      split
      · exact .flush hcycle (.inl rfl)
      · exact .of_ok (.toRsp hcycle ((m.afterCycle_frame ..).fph.trans hf) _)
    · rw [State.recordPhase_full (herr.trans he) (by omega), State.recordCycle_full he hfull]
      exact .of_error _ _

theorem Sim.record {tdi tdo compare sync : Bool} (h : Alike m s) (hc : m.cph = .record) (hf : m.fph = .idle)
    (hd : decodeWord m.hid.cmd = .ok (.record tms tdi tdo compare sync)) :
    Sim m s (s.recordCycle tms tdi tdo compare sync) := by
  have hclock : ∀ p, p.rst = false → clock p m = m.recordPhase tms tdi tdo compare sync := fun p hp => by
    simp only [clock, hp, hc, Bool.false_eq_true, if_false, State.commandPhase, hd]
  exact .of_clock (by simp [hc]) (by simp [hc]) hf hclock (.recordPhase h hf ..)

/-! ### WAIT -/

/-- The trailing flush of WAIT, after the idle cycles have ended with this status (R112, R114). -/
def State.trailing (s : State) (first : Status) : Ran :=
  s.flush.andThen fun st u => .done (if first = .ok then st else first) u

/-- What is left of a WAIT with `k` idle cycles to go. -/
def State.restOfWait (s : State) (tms : Bool) (k : Nat) : Ran :=
  (s.idleCycles tms k).andThen fun first t => t.trailing first

theorem State.waitBody_eq_restOfWait (s : State) (tms : Bool) (count : Nat) :
    s.waitBody tms count = (s.enterWait count).restOfWait tms count := by
  unfold State.waitBody State.restOfWait
  cases (s.enterWait count).idleCycles tms count with
  | done first t => simp only [Ran.andThen, State.trailing]; cases t.flush <;> rfl
  | hung t => rfl
  | bad f => rfl

theorem State.restOfWait_zero (s : State) (tms : Bool) : s.restOfWait tms 0 = s.trailing .ok := rfl

theorem State.restOfWait_succ (s : State) (tms : Bool) (k : Nat) :
    s.restOfWait tms (k + 1) = ((s.setWcnt k).recordCycle tms false false false false).andThen
      fun st u => if st = .ok then u.restOfWait tms k else u.trailing st := by
  unfold State.restOfWait
  rw [State.idleCycles]
  cases (s.setWcnt k).recordCycle tms false false false false with
  | done st t => cases st <;> rfl
  | hung t => rfl
  | bad f => rfl

/-- The clocked block in the loop of a WAIT (R134 `C_WLOOP`). -/
structure InLoop (tms : Bool) (m s : State) : Prop extends Alike m s where
  cph : m.cph = .wloop
  fph : m.fph = .idle
  wait : ∃ count, decodeWord m.hid.cmd = .ok (.wait tms count)

theorem InLoop.sim (h : InLoop tms m s) (hnext : SimAfter (m.waitPhase tms) s r) : Sim m s r := by
  obtain ⟨count, hd⟩ := h.wait
  have hclock : ∀ p, p.rst = false → clock p m = m.waitPhase tms := fun p hp => by
    simp only [clock, hp, h.cph, Bool.false_eq_true, if_false, State.commandPhase, hd]
  exact .of_clock (by simp [h.cph]) (by simp [h.cph]) h.fph hclock hnext

theorem InLoop.countIdle (h : InLoop tms m s) (st : Status) : InLoop tms (m.countIdle st) s :=
  ⟨⟨h.core, h.obs_wf, h.obs_wf_step⟩, h.cph, h.fph, h.wait⟩

theorem InLoop.setWcnt (h : InLoop tms m s) (k : Nat) : InLoop tms m (s.setWcnt k) :=
  ⟨⟨h.core, h.obs_wf, h.obs_wf_step⟩, h.cph, h.fph, h.wait⟩

theorem InLoop.afterCycle (h : InLoop tms m s) : InLoop tms (m.afterCycle tms false false false)
    (s.afterCycle tms false false false) where
  toAlike := h.toAlike.afterCycle ..
  cph := (m.afterCycle_frame ..).cph.trans h.cph
  fph := (m.afterCycle_frame ..).fph.trans h.fph
  wait := by rw [(m.afterCycle_frame ..).hid]; exact h.wait

/-- An automatic flush of WAIT returns into the loop with its status (R134). -/
theorem Returned.inLoop (h : Returned x .idleCycle n st) (ha : Alike n u) (hx : InLoop tms x s) :
    InLoop tms n.flushDone u ∧ n.flushDone.hid.wres = st ∧ n.flushDone.hid.wcnt = x.hid.wcnt := by
  have hdone : n.flushDone = { n with cph := .wloop, hid := { n.hid with wres := st } } := by
    unfold State.flushDone
    rw [h.caller, h.fres]
  rw [hdone]
  refine ⟨⟨⟨ha.core, ha.obs_wf, ha.obs_wf_step⟩, rfl, h.fph, ?_⟩, rfl, h.wcnt⟩
  change ∃ count, decodeWord n.hid.cmd = _
  rw [h.cmd]; exact hx.wait

/-- The trailing flush of WAIT and its status (R112, R114). -/
theorem InLoop.sim_trailing (h : InLoop tms m s) (hover : m.hid.wcnt = 0#24 ∨ m.hid.wres ≠ .ok) :
    Sim m s (s.trailing m.hid.wres) := by
  refine h.sim ?_
  rw [State.waitPhase_over hover]
  refine .startFlush h.toAlike .trailing fun n st u hret ha => hret.sim ?_
  have hdone : n.flushDone = n.toRsp (if m.hid.wres = .ok then st else m.hid.wres) := by
    unfold State.flushDone
    rw [hret.caller, hret.fres, hret.wres]
  rw [hdone]
  exact .toRsp ha hret.fph _

/-- The loop of WAIT does the idle cycles that `WCNT` counts, and the trailing flush (R111, R134). -/
theorem InLoop.sim_restOfWait (h : InLoop tms m s) (hres : m.hid.wres = .ok) {k : Nat}
    (hk : m.hid.wcnt.toNat = k) : Sim m s (s.restOfWait tms k) := by
  induction k generalizing m s with
  | zero =>
    have hzero : m.hid.wcnt = 0#24 := BitVec.eq_of_toNat_eq hk
    rw [State.restOfWait_zero, ← hres]
    exact h.sim_trailing (.inl hzero)
  | succ k ih =>
    have hcount : m.hid.wcnt ≠ 0#24 := by rintro h0; rw [h0] at hk; simp at hk
    have hdown : (m.hid.wcnt - 1#24).toNat = k := by bv_omega
    have herr := same_of_core h.core State.err
    have hcap := same_of_core h.core State.cap
    have hidx := same_of_core h.core State.byteIdx
    have hlast := same_of_core h.core State.atLastBit
    have hloop := h.setWcnt k
    refine Sim.of_inputs (t := s.setWcnt k) (hloop.sim ?_) rfl rfl
    rw [State.restOfWait_succ]
    cases he : s.err with
    | true =>
      rw [State.waitPhase_failed hcount hres (herr.trans he), State.recordCycle_failed (s := s.setWcnt k) he]
      exact .of_ok ((hloop.countIdle .alreadyFailed).sim_trailing (.inr Status.noConfusion))
    | false =>
      rcases Nat.lt_or_ge s.byteIdx s.cap with hroom | hfull
      · have hnext := hloop.afterCycle.countIdle .ok
        have hframe := (s.setWcnt k).afterCycle_frame tms false false false
        have hwcnt : ((m.afterCycle tms false false false).countIdle .ok).hid.wcnt.toNat = k := by
          change ((m.afterCycle tms false false false).hid.wcnt - 1#24).toNat = k
          rw [(m.afterCycle_frame ..).hid]; exact hdown
        rw [State.waitPhase_room hcount hres (herr.trans he) (by omega),
          State.recordCycle_room (s := s.setWcnt k) he hroom]
        refine SimAfter.of_inputs (t := (s.setWcnt k).afterCycle tms false false false) ?_ hframe.rx hframe.answers
        cases hl : s.atLastBit with
        | true =>
          rw [if_pos (hlast.trans hl), if_pos (.inl hl)]
          refine .startFlush hnext.toAlike .idleCycle fun n st u hret ha => hret.sim ?_
          obtain ⟨hback, hst, hback_wcnt⟩ := hret.inLoop ha hnext
          split
          · next hok => exact ih hback (hst.trans hok) (hback_wcnt ▸ hwcnt)
          · next hne => rw [← hst] at hne ⊢; exact hback.sim_trailing (.inr hne)
        | false =>
          have hlast' : (s.setWcnt k).atLastBit = false := hl
          rw [if_neg (by simp [hlast, hl]), if_neg (by simp [hlast'])]
          exact .of_ok (ih hnext rfl hwcnt)
      · rw [State.waitPhase_full hcount hres (herr.trans he) (by omega),
          State.recordCycle_full (s := s.setWcnt k) he hfull]
        exact .of_error _ _

/-! ### The dispatch of a command -/

/-- The procedure of an accepted command word, as far as both machines run it before its end: legality, the
session, and the procedure without the closing of a session (R66, R156). -/
def State.program (s : State) (w : Word) : Ran :=
  match decodeWord w with
  | .error _ => .done .illegalCommand s
  | .ok (.shiftReq _ _ _) => .done .illegalCommand s
  | .ok .setup => .done .ok s.freshSession
  | .ok (.record tms tdi tdo compare sync) =>
    if s.isOpen then s.recordCycle tms tdi tdo compare sync else .done .noSession s
  | .ok (.wait tms count) => if s.isOpen then s.waitBody tms count else .done .noSession s
  | .ok .flush => if s.isOpen then s.flush else .done .noSession s
  | .ok .shutdown => if s.isOpen then s.flush else .done .noSession s

theorem Sim.setup (h : Alike m s) (hf : m.fph = .idle) (hc : m.cph = .setup) :
    Sim m s (.done .ok s.freshSession) := by
  have hclock : ∀ p, p.rst = false → clock p m = .ok (m.freshSession.toRsp .ok) := fun p hp => by
    simp only [clock, hp, hc, Bool.false_eq_true, if_false]
  have hfresh : Alike m.freshSession s.freshSession :=
    ⟨core_congr h.core State.freshSession, Memory.wf_free .., Memory.wf_free ..⟩
  exact .of_clock (by simp [hc]) (by simp [hc]) hf hclock (.of_ok ((Sim.toRsp hfresh hf .ok).of_inputs rfl rfl))

/-- The count of a WAIT word fits `WCNT` (R63). -/
theorem wait_count_lt {count : Nat} (hd : decodeWord w = .ok (.wait tms count)) : count < 2 ^ 24 := by
  obtain ⟨_, hwf⟩ := decodeWord_ok_iff.1 hd
  exact of_decide_eq_true hwf

theorem Sim.wait {count : Nat} (h : Alike m s) (hf : m.fph = .idle)
    (hd : decodeWord m.hid.cmd = .ok (.wait tms count)) :
    Sim ((m.enterWait count).toCph .wloop) s (s.waitBody tms count) := by
  have hloop : InLoop tms ((m.enterWait count).toCph .wloop) (s.enterWait count) :=
    ⟨⟨h.core, h.obs_wf, h.obs_wf_step⟩, rfl, hf, count, hd⟩
  have hcount : (BitVec.ofNat 24 count).toNat = count := by
    rw [BitVec.toNat_ofNat, Nat.mod_eq_of_lt (wait_count_lt hd)]
  rw [State.waitBody_eq_restOfWait]
  exact (hloop.sim_restOfWait rfl hcount).of_inputs rfl rfl

/-- The decode of a latched command (R134 `C_IDLE`) leads into what simulates its procedure. -/
theorem SimAfter.dispatchCommand (h : Alike m s) (hf : m.fph = .idle) (hw : m.hid.cmd = w) :
    SimAfter (m.dispatchCommand w) s (s.program w) := by
  have hopen := same_of_core h.core State.isOpen
  have rsp : ∀ st, SimAfter (.ok (m.toRsp st)) s (.done st s) := fun st => .of_ok (.toRsp h hf st)
  subst hw
  unfold State.dispatchCommand State.program
  rw [hopen]
  cases hd : decodeWord m.hid.cmd with
  | error e => exact rsp _
  | ok i =>
    cases i with
    | shiftReq k a b => exact rsp _
    | setup => exact .of_ok (.setup (m := m.toCph .setup) ⟨h.core, h.obs_wf, h.obs_wf_step⟩ hf rfl)
    | record tms tdi tdo compare sync =>
      cases s.isOpen with
      | false => exact rsp _
      | true => exact .of_ok (.record (m := m.toCph .record) ⟨h.core, h.obs_wf, h.obs_wf_step⟩ rfl hf hd)
    | wait tms count =>
      cases s.isOpen with
      | false => exact rsp _
      | true => exact .of_ok (.wait h hf hd)
    | flush =>
      cases s.isOpen with
      | false => exact rsp _
      | true => exact .flush h (.inl rfl)
    | shutdown =>
      cases s.isOpen with
      | false => exact rsp _
      | true => exact .flush h (.inr rfl)

/-! ### The step, as a procedure and its end -/

/-- The outcome of a command whose program ended so. -/
def Ran.concluded : Ran → Host.Outcome State Fault Refusal
  | .done st s => .next (s.conclude st)
  | .hung s => .next s
  | .bad f => .fault f

/-- A procedure that keeps the command word of another command than SHUTDOWN ends with its status only. -/
theorem Ran.concluded_eq_outcome (h : Ends (Grows s) r) (hd : decodeWord s.hid.cmd ≠ .ok .shutdown) :
    r.concluded = r.outcome := by
  cases r with
  | done st u =>
    have hcmd : u.hid.cmd = s.hid.cmd := Grows.cmd h
    rw [Ran.concluded, Ran.outcome, State.conclude_of_not_shutdown (by rw [hcmd]; exact hd)]
  | hung u => rfl
  | bad f => rfl

/-- Without a session there is none to close (R156). -/
theorem State.conclude_of_closed (ho : s.isOpen = false) (st : Status) : s.conclude st = s.respond st := by
  have hclose : s.closeSession = s := by
    unfold State.closeSession
    rw [← ho]
  unfold State.conclude
  rw [hclose, ite_self]

/-- The gate of R156 before a procedure of another command than SHUTDOWN. -/
theorem State.inSession_eq_concluded (h : Ends (Grows s) r) (hd : decodeWord s.hid.cmd ≠ .ok .shutdown) :
    s.inSession r = (if s.isOpen then r else .done .noSession s).concluded := by
  cases ho : s.isOpen with
  | false => rw [State.inSession_closed ho, if_neg Bool.false_ne_true, Ran.concluded, State.conclude_of_closed ho]
  | true => rw [State.inSession_open ho, if_pos rfl, Ran.concluded_eq_outcome h hd]

/-- SHUTDOWN is the flush that ends with the closing of the session (R151). -/
theorem execShutdown_eq_concluded (hd : decodeWord s.hid.cmd = .ok .shutdown) :
    execShutdown s = (if s.isOpen then s.flush else .done .noSession s).concluded := by
  have hgrows := closed_grows.flush s
  unfold execShutdown
  cases ho : s.isOpen with
  | false => rw [State.inSession_closed ho, if_neg Bool.false_ne_true, Ran.concluded, State.conclude_of_closed ho]
  | true =>
    rw [State.inSession_open ho, if_pos rfl]
    cases hr : s.flush with
    | done st u =>
      rw [hr] at hgrows
      have hcmd : u.hid.cmd = s.hid.cmd := Grows.cmd hgrows
      rw [Ran.concluded, State.conclude_of_shutdown (by rw [hcmd]; exact hd)]
      rfl
    | hung u => rfl
    | bad f => rfl

/-- A decoded command is its program, concluded. -/
theorem exec_eq_program {i : Instr} (hd : decodeWord s.hid.cmd = .ok i) :
    exec i s = (s.program s.hid.cmd).concluded := by
  have ne_shutdown : i ≠ .shutdown → decodeWord s.hid.cmd ≠ .ok .shutdown := fun hi h => by
    rw [hd] at h; cases h; exact hi rfl
  unfold State.program
  rw [hd]
  cases i with
  | shiftReq k a b => exact absurd hd decodeWord_not_shift
  | setup =>
    have hgrows : Ends (Grows s) (.done .ok s.freshSession) := Grows.of_same rfl rfl rfl rfl rfl
    exact (Ran.concluded_eq_outcome hgrows (ne_shutdown (by simp))).symm
  | record tms tdi tdo compare sync =>
    exact State.inSession_eq_concluded (closed_grows.record s ..) (ne_shutdown (by simp))
  | wait tms count => exact State.inSession_eq_concluded (closed_grows.wait s ..) (ne_shutdown (by simp))
  | flush => exact State.inSession_eq_concluded (closed_grows.flush s) (ne_shutdown (by simp))
  | shutdown => exact execShutdown_eq_concluded hd

/-- The step of an offered command is its program, concluded (R8). -/
theorem step_eq_program {later : List HostInput} (hc : s.cph = .idle) (hh : s.host = .command w :: later) :
    step s = ((s.accept w).program w).concluded := by
  have hcmd : (s.accept w).hid.cmd = w := rfl
  cases hd : decodeWord w with
  | error e =>
    rw [step_of_illegal hc hh (illegalWord_iff.2 ⟨e, hd⟩), State.program, hd]
    exact congrArg _ (State.conclude_of_not_shutdown (by rw [hcmd, hd]; simp) _).symm
  | ok i => rw [step_of_command hc hh hd, exec_eq_program (s := s.accept w) hd, hcmd]

/-! ### A command that never ends -/

/-- A procedure that never ends leaves the block in a flush (R199). -/
structure Ran.HangsInFlush (r : Ran) : Prop where
  cph : ∀ u, r = .hung u → u.cph = .flush

theorem Ran.HangsInFlush.andThen {f : Status → State → Ran} (h : r.HangsInFlush)
    (hf : ∀ st u, (f st u).HangsInFlush) : (r.andThen f).HangsInFlush := by
  cases r with
  | done st u => exact hf st u
  | hung u => exact ⟨h.cph⟩
  | bad f => exact ⟨fun _ e => by cases e⟩

theorem Ran.HangsInFlush.of_done (st : Status) (s : State) : (Ran.done st s).HangsInFlush :=
  ⟨fun _ h => by cases h⟩

theorem State.flush_hangsInFlush (s : State) : s.flush.HangsInFlush where
  cph _ h := by
    obtain ⟨_, _, _, hq⟩ := State.flush_hung h
    obtain ⟨_, hcph, _⟩ := State.exchange_stalled_frame hq
    exact hcph

theorem State.recordCycle_hangsInFlush (s : State) (tms tdi tdo compare sync : Bool) :
    (s.recordCycle tms tdi tdo compare sync).HangsInFlush := by
  rcases s.recordCycle_cases tms tdi tdo compare sync with ⟨_, h⟩ | ⟨_, _, h⟩ | ⟨_, _, _, h⟩ | ⟨_, _, _, _, h⟩ <;>
    rw [h]
  · exact .of_done _ _
  · exact ⟨fun _ e => by cases e⟩
  · exact State.flush_hangsInFlush _
  · exact .of_done _ _

theorem State.restOfWait_hangsInFlush (s : State) (tms : Bool) (k : Nat) : (s.restOfWait tms k).HangsInFlush := by
  have trailing : ∀ (s : State) first, (s.trailing first).HangsInFlush := fun s first =>
    s.flush_hangsInFlush.andThen fun _ _ => .of_done _ _
  induction k generalizing s with
  | zero => rw [State.restOfWait_zero]; exact trailing s .ok
  | succ k ih =>
    rw [State.restOfWait_succ]
    refine (State.recordCycle_hangsInFlush ..).andThen fun st u => ?_
    split
    · exact ih u
    · exact trailing u st

theorem State.program_hangsInFlush (s : State) (w : Word) : (s.program w).HangsInFlush := by
  unfold State.program
  split
  · exact .of_done _ _
  · exact .of_done _ _
  · exact .of_done _ _
  · split
    · exact State.recordCycle_hangsInFlush ..
    · exact .of_done _ _
  · split
    · rw [State.waitBody_eq_restOfWait]; exact State.restOfWait_hangsInFlush ..
    · exact .of_done _ _
  · split
    · exact State.flush_hangsInFlush s
    · exact .of_done _ _
  · split
    · exact State.flush_hangsInFlush s
    · exact .of_done _ _

/-! ### The refinement -/

/-- The block of the big step with this command offered, these answers to come and no byte waiting. -/
def State.offeredWith (s : State) (w : Word) (answers : List Answer) : State :=
  { s with host := [.command w], answers := answers, rx := [] }

/-- Inputs that offer this command. -/
def offeringCommand (w : Word) : PortIn := { offering 0#8 with cmdValid := true, cmdWord := w }

/-- Settles O54: the first clock latches the command, and what it leads into simulates the step's program. -/
theorem clockedRunIsABigStep : Obligations.ClockedRunIsABigStep := by
  intro s t p ps h hc hv hrst hrun ht hlen
  obtain ⟨hp, hps⟩ := List.forall_mem_cons.1 hrst
  rw [runClock] at hrun
  split at hrun
  · next m hm =>
    have hspell : spelledAnswers (p :: ps) s [] = spelledAnswers ps m [] := by
      rw [spelledAnswers_cons hm, State.spells_of_idle (h.fph_idle hc)]; rfl
    rw [hspell]
    rw [clock_of_offer hp hc hv] at hm
    have hresp : m.responses = s.responses := ((StaysBusy.dispatchCommand _ _).keeps m hm).1
    have hafter := SimAfter.dispatchCommand (w := p.cmdWord) (m := s.latch p.cmdWord)
      (s := (s.offeredWith p.cmdWord (spelledAnswers ps m [])).accept p.cmdWord)
      ⟨rfl, h.obs_wf, h.obs_wf⟩ (h.fph_idle hc) rfl
    obtain ⟨st, u, hr, hvisible, hurx, hua⟩ :=
      (hafter.ok m hm).concluded hps hrun ht (by rw [hlen, hresp]) rfl rfl
    have hstep := step_eq_program (s := s.offeredWith p.cmdWord (spelledAnswers ps m [])) hc rfl
    rw [hr] at hstep
    exact ⟨u.conclude st, hstep, hvisible, by rw [State.conclude_answers, hua], by rw [State.conclude_rx, hurx]⟩
  · cases hrun

/-- Settles O55: the run that offers the command and then follows the simulation of the step's program. -/
theorem bigStepIsAClockedRun : Obligations.BigStepIsAClockedRun := by
  intro s u w later h hc hh hstep hu
  have hafter := SimAfter.dispatchCommand (w := w) (m := s.latch w) (s := s.accept w)
    ⟨rfl, h.obs_wf, h.obs_wf⟩ (h.fph_idle hc) rfl
  rw [step_eq_program hc hh] at hstep
  cases hr : (s.accept w).program w with
  | bad f => rw [hr] at hstep; cases hstep
  | hung v =>
    rw [hr] at hstep
    cases hstep
    rw [(State.program_hangsInFlush _ _).cph u hr] at hu
    cases hu
  | done st v =>
    rw [hr] at hstep
    cases hstep
    have hoffer : clock (offeringCommand w) s = (s.latch w).dispatchCommand w :=
      clock_of_offer rfl hc rfl
    cases hm : (s.latch w).dispatchCommand w with
    | error f => exact absurd hr (hafter.error f hm st v)
    | ok m =>
      obtain ⟨as, t, ⟨ps, hps, hrun⟩, hvisible, hspells⟩ := (hafter.ok m hm).realized hr
      obtain ⟨hrun, hspell⟩ := hrun []
      rw [List.append_nil] at hrun hspell
      refine ⟨offeringCommand w, ps, t, rfl, rfl, List.forall_mem_cons.2 ⟨rfl, hps⟩, ?_, hvisible, ?_⟩
      · rw [runClock, hoffer, hm]; exact hrun
      · rw [spelledAnswers_cons (hoffer.trans hm), State.spells_of_idle (h.fph_idle hc), hspell,
          State.conclude_rx, State.conclude_answers]
        simpa [spelledAnswers] using hspells

end Sys2Proof.Machine
end

section
/-! SETUP and SHUTDOWN (spec/44_session_lifecycle.md R150, R151, R156): without a session a command only
answers, SETUP answers with the fresh session, and a SHUTDOWN that answers is the FLUSH with `OPEN` cleared
after it, so what it sends, compares and clears is what the statements about FLUSH say. -/

namespace Sys2Proof.Machine

variable {s t : State}

/-! ### Without a session -/

/-- The gate of R156 is the first thing each of the four commands meets. -/
theorem exec_of_noSession (ho : s.isOpen = false) {i : Instr} (hi : NeedsSession i) :
    exec i s = .next (s.respond .noSession) := by
  cases i with
  | setup => exact hi.elim
  | record => exact State.inSession_closed ho _
  | wait => exact exec_wait_of_closed ho _ _
  | flush => exact State.inSession_closed ho _
  | shutdown => exact State.inSession_closed ho _
  | shiftReq => exact hi.elim

/-- Settles O15: the command ends at the gate. -/
theorem noSessionChangesNothing : Obligations.NoSessionChangesNothing :=
  fun s _ ho hi => ⟨s.respond .noSession, exec_of_noSession ho hi, onlyAnswers_respond s _⟩

/-! ### SETUP -/

/-- SETUP looks at no register before it answers (R150). -/
theorem exec_setup (s : State) : exec .setup s = .next (s.freshSession.respond .ok) := rfl

theorem State.emptyBatch_freshSession (s : State) : EmptyBatch s.freshSession :=
  ⟨fun p i => by rw [State.freshSession_plane, Memory.read_nil], rfl, rfl⟩

/-- Settles O17: the fresh session and its status, field by field. -/
theorem setupStartsAFreshSession : Obligations.SetupStartsAFreshSession :=
  ⟨wordsOfTheSpecDecode.1, fun s => ⟨s.freshSession.respond .ok, exec_setup s, ⟨rfl, rfl, rfl⟩,
    s.emptyBatch_freshSession, rfl, rfl, rfl, rfl, rfl, rfl, rfl, rfl, ⟨rfl, rfl, rfl, rfl⟩, rfl,
    ⟨rfl, rfl⟩⟩⟩

/-! ### SHUTDOWN -/

theorem exec_shutdown_of_isOpen (ho : s.isOpen = true) : exec .shutdown s = (s.body .shutdown).outcome :=
  State.inSession_open ho _

/-- The procedure of a SHUTDOWN whose flush answers (R151). -/
theorem State.body_shutdown_of_done {st : Status} (hr : s.flush = .done st t) :
    s.body .shutdown = .done st t.closeSession := by
  simp only [State.body, hr]

/-- A SHUTDOWN whose flush answers: giving the status and clearing `OPEN` touch different registers (R151). -/
theorem exec_shutdown_of_done {st : Status} (ho : s.isOpen = true) (hr : s.flush = .done st t) :
    exec .shutdown s = .next (t.respond st).closeSession := by
  rw [exec_shutdown_of_isOpen ho, State.body_shutdown_of_done hr]
  rfl

/-- A FLUSH that leaves the block idle has answered: a flush that never ends holds in `C_FLUSH` (R199). -/
theorem flush_done_of_idle (ho : s.isOpen = true) (hflush : exec .flush s = .next t) (hc : t.cph = .idle) :
    ∃ st u, s.flush = .done st u ∧ t = u.respond st := by
  rw [exec_flush_of_isOpen ho] at hflush
  refine (Ran.outcome_next hflush).resolve_right fun hhung => ?_
  have hbusy : t.cph = .flush := (State.flush_hangsInFlush s).cph t hhung
  rw [hc] at hbusy
  cases hbusy

/-- A SHUTDOWN closes the session of the state that FLUSH answers with (R151). -/
theorem exec_shutdown_of_flush (ho : s.isOpen = true) (hflush : exec .flush s = .next t)
    (hc : t.cph = .idle) : exec .shutdown s = .next t.closeSession := by
  obtain ⟨st, u, hr, rfl⟩ := flush_done_of_idle ho hflush hc
  exact exec_shutdown_of_done ho hr

/-- Settles O18: `closeSession` is the update the statement writes out. -/
theorem shutdownIsFlushThenClose : Obligations.ShutdownIsFlushThenClose :=
  fun _ _ ho hflush hc => exec_shutdown_of_flush ho hflush hc

/-- A FLUSH with nothing pending, or in the failed state, only answers (R121 before R122). -/
theorem exec_flush_of_nothing_to_send (ho : s.isOpen = true) (hq : s.nbits = 0 ∨ s.err = true) :
    ∃ t, exec .flush s = .next t ∧ OnlyAnswers s t (if s.nbits = 0 then .ok else .alreadyFailed) := by
  by_cases h0 : s.nbits = 0
  · rw [if_pos h0]
    exact flushOfAnEmptyBatch s ho h0
  · rw [if_neg h0]
    exact flushInTheFailedState s ho (Nat.pos_of_ne_zero h0) (hq.resolve_left h0)

/-- Settles O19: the FLUSH that only answers, and then `OPEN` cleared. -/
theorem shutdownWithNothingToSend : Obligations.ShutdownWithNothingToSend := by
  intro s ho hq
  obtain ⟨t, hflush, ⟨hresponses, hcph, hfph⟩, hplanes, hcursor, herr, hdiag, -, hobs, hio, hsetting⟩ :=
    exec_flush_of_nothing_to_send ho hq
  have hclosed : SamePlanes s t.closeSession := fun p i => by rw [State.closeSession_plane, hplanes p i]
  exact ⟨t.closeSession, exec_shutdown_of_flush ho hflush hcph, ⟨hresponses, hcph, hfph⟩, rfl, hclosed,
    hcursor, herr, hdiag, hobs, hio, hsetting⟩

/-- Clearing `OPEN` keeps an empty batch empty. -/
theorem EmptyBatch.closeSession (h : EmptyBatch t) : EmptyBatch t.closeSession := by
  obtain ⟨hplanes, hcursor⟩ := h
  exact ⟨fun p i => by rw [State.closeSession_plane, hplanes p i], hcursor⟩

/-- Settles O20: the FLUSH that verifies, and then `OPEN` cleared. -/
theorem shutdownDrainsThePendingBatch : Obligations.ShutdownDrainsThePendingBatch := by
  intro s arriving later ho he h0 hN hm ha hl hagree
  obtain ⟨t, hflush, ⟨hresponses, hcph, hfph⟩, hempty, htx, hrx, hanswers, hcmps, herr, hdiag, -,
      hsetting⟩ := flushVerified s arriving later ho he h0 hN hm ha hl hagree
  exact ⟨t.closeSession, exec_shutdown_of_flush ho hflush hcph, ⟨hresponses, hcph, hfph⟩,
    hempty.closeSession, rfl, htx, hrx, hanswers, hcmps, herr, hdiag, hsetting⟩

end Sys2Proof.Machine
end

section
/-! What the decoder refuses (spec/60_exceptions.md R163, log 3): the step with the *refused* outcome differs from
`step` where the decoder refuses and nowhere else, and there `step` takes the word and answers. -/

namespace Sys2Proof.Machine

variable {s : State} {w : Word} {later : List HostInput}

/-! ### What the decoder refuses -/

/-- A legal command other than SETUP is one of the four that R156 gates: no word is a shift request (log 4). -/
theorem needsSession_of_decodeWord {i : Instr} (hd : decodeWord w = .ok i) (hi : i ≠ .setup) : NeedsSession i := by
  cases i with
  | setup => exact hi rfl
  | record => trivial
  | wait => trivial
  | flush => trivial
  | shutdown => trivial
  | shiftReq => exact absurd hd decodeWord_not_shift

theorem NeedsSession.ne_setup {i : Instr} (hi : NeedsSession i) : i ≠ .setup := by
  rintro rfl
  exact hi

theorem State.decoderRefusal_of_illegal (s : State) (hw : IllegalWord w) :
    s.decoderRefusal w = some (.illegalCommand w) := by
  obtain ⟨e, hd⟩ := illegalWord_iff.1 hw
  rcases s.decoderRefusal_cases w with ⟨hr, _⟩ | ⟨_, _, i, hi, _⟩ | ⟨_, i, hi, _⟩
  · exact hr
  · rw [hd] at hi; cases hi
  · rw [hd] at hi; cases hi

theorem State.decoderRefusal_of_closed {i : Instr} (ho : s.isOpen = false) (hd : decodeWord w = .ok i)
    (hi : NeedsSession i) : s.decoderRefusal w = some (.noSession w) := by
  rcases s.decoderRefusal_cases w with ⟨_, e, he⟩ | ⟨hr, _⟩ | ⟨_, j, hj, hpass⟩
  · rw [hd] at he; cases he
  · exact hr
  · rw [hd] at hj
    cases hj
    rcases hpass with hsetup | hopen
    · exact absurd hsetup hi.ne_setup
    · rw [ho] at hopen; cases hopen

/-! ### The step with the refused outcome -/

theorem State.portEvent_of_command (hc : s.cph = .idle) (hh : s.host = .command w :: later) :
    s.portEvent = .command w := by
  simp [State.portEvent, hh, State.cmdReady, hc]

theorem refusingStep_of_refusal {r : Refusal} (hc : s.cph = .idle) (hh : s.host = .command w :: later)
    (hr : s.decoderRefusal w = some r) : refusingStep s = .refused r := by
  simp only [refusingStep, State.portEvent_of_command hc hh, hr]

/-- The two step functions differ only where an idle block is offered a word that the decoder refuses. -/
theorem refusingStep_cases (s : State) :
    refusingStep s = step s ∨ ∃ w later r, s.host = .command w :: later ∧ s.cph = .idle
      ∧ s.decoderRefusal w = some r ∧ refusingStep s = .refused r := by
  cases hh : s.host with
  | nil => exact .inl (by simp [refusingStep, State.portEvent, hh])
  | cons input later =>
    cases input with
    | reset => exact .inl (by simp [refusingStep, State.portEvent, hh])
    | command w =>
      by_cases hc : s.cph = .idle
      · cases hr : s.decoderRefusal w with
        | none => exact .inl (by simp [refusingStep, State.portEvent_of_command hc hh, hr])
        | some r => exact .inr ⟨w, later, r, rfl, hc, hr, refusingStep_of_refusal hc hh hr⟩
      · exact .inl (by simp [refusingStep, State.portEvent, State.cmdReady, hh, hc])

/-! ### What `step` does there -/

/-- A command without a session is taken and answered (R156, log 3). -/
theorem step_of_noSession {i : Instr} (hc : s.cph = .idle) (hh : s.host = .command w :: later)
    (hd : decodeWord w = .ok i) (hi : NeedsSession i) (ho : s.isOpen = false) :
    step s = .next ((s.accept w).respond .noSession) := by
  rw [step_of_command hc hh hd]
  exact exec_of_noSession (s := s.accept w) ho hi

/-- A word that is taken and answered, and nothing more, touches the command port only (R67). -/
theorem accept_respond_frame (hh : s.host = .command w :: later) (st : Status) :
    SamePlanes s ((s.accept w).respond st) ∧ SameCursor s ((s.accept w).respond st)
      ∧ SameErr s ((s.accept w).respond st) ∧ SameDiag s ((s.accept w).respond st)
      ∧ ((s.accept w).respond st).isOpen = s.isOpen ∧ NoIO s ((s.accept w).respond st)
      ∧ ((s.accept w).respond st).cmdReady = true ∧ ((s.accept w).respond st).cap = s.cap
      ∧ ((s.accept w).respond st).host = later := by
  obtain ⟨-, hplanes, hcursor, herr, hdiag, hopen, -, hio, hcap, hhost⟩ := onlyAnswers_respond (s.accept w) st
  refine ⟨fun p i => ?_, hcursor, herr, hdiag, hopen, hio, rfl, hcap, ?_⟩
  · rw [hplanes p i, State.accept_plane]
  · rw [hhost, State.accept_host, hh, List.tail_cons]

/-- Settles O16: what the decoder refuses `step` takes and answers with the status of that refusal. -/
theorem decoderRefuses : Obligations.DecoderRefuses := by
  refine ⟨fun s w later hh hc => ⟨fun hw => ?_, fun i hd hi ho => ?_⟩, fun s => ?_⟩
  · exact refusingStep_of_refusal hc hh (s.decoderRefusal_of_illegal hw)
  · exact refusingStep_of_refusal hc hh (State.decoderRefusal_of_closed ho hd hi)
  · rcases refusingStep_cases s with heq | ⟨w, later, r, hh, hc, hr, hrefused⟩
    · exact .inl heq
    · refine .inr ⟨w, later, ?_⟩
      rcases s.decoderRefusal_cases w with ⟨hr', hw⟩ | ⟨hr', ho, i, hd, hi⟩ | ⟨hr', _⟩
      · obtain rfl : r = .illegalCommand w := Option.some.inj (hr.symm.trans hr')
        have hw := illegalWord_iff.2 hw
        exact ⟨_, hh, hc, step_of_illegal hc hh hw, .inl ⟨hw, hrefused, rfl⟩, accept_respond_frame hh _⟩
      · obtain rfl : r = .noSession w := Option.some.inj (hr.symm.trans hr')
        have hstep := step_of_noSession hc hh hd (needsSession_of_decodeWord hd hi) ho
        exact ⟨_, hh, hc, hstep, .inr ⟨ho, hrefused, rfl⟩, accept_respond_frame hh _⟩
      · rw [hr] at hr'; cases hr'

end Sys2Proof.Machine
end

section
/-! The operating states (spec/60_exceptions.md R173): a step ends the session by hardware reset or SHUTDOWN, begins
a fresh one by SETUP, and otherwise keeps the session and an error that is set. -/

namespace Sys2Proof.Machine

variable {s t : State}

/-! ### The operating state, by its registers -/

theorem State.operating_eq_noSession_iff : s.operating = .noSession ↔ s.isOpen = false := by
  unfold State.operating
  cases s.isOpen <;> cases s.err <;> decide

theorem State.operating_eq_active_iff : s.operating = .active ↔ s.isOpen = true ∧ s.err = false := by
  unfold State.operating
  cases s.isOpen <;> cases s.err <;> decide

theorem State.operating_eq_failed_iff : s.operating = .failed ↔ s.isOpen = true ∧ s.err = true := by
  unfold State.operating
  cases s.isOpen <;> cases s.err <;> decide

theorem State.operating_congr (ho : t.isOpen = s.isOpen) (he : t.err = s.err) : t.operating = s.operating := by
  rw [State.operating, ho, he, State.operating]

/-! ### What a step does to the session -/

/-- The session goes on: `OPEN` is as before, and an error that is set stays set (R15). -/
structure SessionGoesOn (s t : State) : Prop where
  isOpen : t.isOpen = s.isOpen
  err : s.err = true → t.err = true

theorem SessionGoesOn.of_same (ho : t.isOpen = s.isOpen) (he : t.err = s.err) : SessionGoesOn s t :=
  ⟨ho, he.trans⟩

/-- No update of a running command ends the session, and none clears `ERR`. -/
theorem closed_sessionGoesOn : Closed SessionGoesOn where
  refl _ := .of_same rfl rfl
  trans h h' := ⟨h'.isOpen.trans h.isOpen, h'.err ∘ h.err⟩
  recv _ _ hu := .of_same (State.request_frame hu).isOpen (State.request_frame hu).err
  mism _ _ _ := ⟨by simp, by simp⟩
  ok _ _ _ := .of_same rfl rfl
  link _ _ := ⟨rfl, fun _ => rfl⟩
  after s a b c d _ := .of_same (s.afterCycle_frame a b c d).isOpen (s.afterCycle_frame a b c d).err
  wcnt _ _ := .of_same rfl rfl
  enter _ _ := .of_same rfl rfl

/-- A SHUTDOWN that answers has closed the session, whatever its status (R151). -/
theorem State.body_shutdown_isOpen {st : Status} (hb : s.body .shutdown = .done st t) : t.isOpen = false := by
  unfold State.body at hb
  cases hr : s.flush <;> rw [hr] at hb <;> cases hb
  rfl

/-- A SHUTDOWN that never answers is its flush (R199). -/
theorem State.flush_hung_of_shutdown (hb : s.body .shutdown = .hung t) : s.flush = .hung t := by
  unfold State.body at hb
  cases hr : s.flush <;> rw [hr] at hb <;> cases hb
  rfl

/-- Every command but SETUP and a SHUTDOWN that answers lets the session go on. -/
theorem exec_session {w : Word} {i : Instr} (hd : decodeWord w = .ok i) (hex : exec i s = .next t) :
    (i = .setup ∧ t.isOpen = true ∧ t.err = false) ∨ (i = .shutdown ∧ t.isOpen = false)
      ∨ SessionGoesOn s t := by
  rcases exec_cases hd hex with ⟨rfl, rfl⟩ | ⟨_, _, rfl⟩ | ⟨hi, _, hrun⟩
  · exact .inl ⟨rfl, rfl, rfl⟩
  · exact .inr (.inr (.of_same rfl rfl))
  · by_cases hs : i = .shutdown
    · subst hs
      rcases hrun with ⟨st, u, hb, rfl⟩ | hb
      · exact .inr (.inl ⟨rfl, State.body_shutdown_isOpen (t := u) hb⟩)
      · exact .inr (.inr ((closed_sessionGoesOn.flush s).hung (State.flush_hung_of_shutdown hb)))
    · have hbody := closed_sessionGoesOn.body hi (fun h => absurd h hs) s
      rcases hrun with ⟨st, u, hb, rfl⟩ | hb
      · have hu := hbody.done hb
        exact .inr (.inr ⟨hu.isOpen, hu.err⟩)
      · exact .inr (.inr (hbody.hung hb))

/-- Everything a step does to the session (R27, R150, R151). -/
theorem step_session (h : step s = .next t) :
    ((∃ later, s.host = .reset :: later) ∧ t.isOpen = false) ∨
    ((∃ w later, s.host = .command w :: later ∧ decodeWord w = .ok .setup)
      ∧ t.isOpen = true ∧ t.err = false) ∨
    ((∃ w later, s.host = .command w :: later ∧ decodeWord w = .ok .shutdown) ∧ t.isOpen = false) ∨
    SessionGoesOn s t := by
  rcases step_cases h with rfl | ⟨later, hh, rfl⟩ | ⟨w, later, hh, _, ⟨i, hd, hex⟩ | ⟨_, _, rfl⟩⟩
  · exact .inr (.inr (.inr (.of_same rfl rfl)))
  · exact .inl ⟨⟨later, hh⟩, rfl⟩
  · rcases exec_session hd hex with ⟨rfl, ho, he⟩ | ⟨rfl, ho⟩ | hgo
    · exact .inr (.inl ⟨⟨w, later, hh, hd⟩, ho, he⟩)
    · exact .inr (.inr (.inl ⟨⟨w, later, hh, hd⟩, ho⟩))
    · exact .inr (.inr (.inr ⟨hgo.isOpen, hgo.err⟩))
  · exact .inr (.inr (.inr (.of_same rfl rfl)))

/-! ### The entry into an operating state -/

/-- Where the session goes on, the one change of the operating state is a failure in an active session. -/
theorem SessionGoesOn.fails (h : SessionGoesOn s t) (hne : t.operating ≠ s.operating) :
    s.operating = .active ∧ t.operating = .failed := by
  obtain ⟨hopen, herr⟩ := h
  cases ho : s.isOpen with
  | false =>
    have hs := State.operating_eq_noSession_iff.2 ho
    have ht := State.operating_eq_noSession_iff.2 (hopen.trans ho)
    exact absurd (ht.trans hs.symm) hne
  | true =>
    have herr_ne : t.err ≠ s.err := fun he => hne (State.operating_congr hopen he)
    cases he : s.err with
    | true => exact absurd ((herr he).trans he.symm) herr_ne
    | false =>
      have ht : t.err = true := by simpa [he] using herr_ne
      exact ⟨State.operating_eq_active_iff.2 ⟨ho, he⟩,
        State.operating_eq_failed_iff.2 ⟨hopen.trans ho, ht⟩⟩

/-- Settles O50: of the four things a step does to the session, each enters one operating state. -/
theorem operatingStatesAreEnteredAsStated : Obligations.OperatingStatesAreEnteredAsStated := by
  intro s t hstep hne
  rcases step_session hstep with ⟨hreset, ho⟩ | ⟨hsetup, ho, he⟩ | ⟨hshutdown, ho⟩ | hgo
  · have hop := State.operating_eq_noSession_iff.2 ho
    exact ⟨fun _ => .inl hreset, fun h => by simp [hop] at h, fun h => by simp [hop] at h⟩
  · have hop := State.operating_eq_active_iff.2 ⟨ho, he⟩
    exact ⟨fun h => by simp [hop] at h, fun _ => hsetup, fun h => by simp [hop] at h⟩
  · have hop := State.operating_eq_noSession_iff.2 ho
    exact ⟨fun _ => .inr hshutdown, fun h => by simp [hop] at h, fun h => by simp [hop] at h⟩
  · obtain ⟨hactive, hfailed⟩ := hgo.fails hne
    refine ⟨fun h => by simp [hfailed] at h, fun h => by simp [hfailed] at h, fun _ => ⟨hactive, ?_⟩⟩
    obtain ⟨w, ⟨hrsp, _⟩ | ⟨hrsp, _⟩⟩ := errorIsSetByAFailingFlushOnly s t hstep
      (State.operating_eq_active_iff.1 hactive).2 (State.operating_eq_failed_iff.1 hfailed).2
    · exact ⟨w, .inl hrsp⟩
    · exact ⟨w, .inr hrsp⟩

end Sys2Proof.Machine
end

section
/-! Hardware reset, the idle step and the flush that never ends (spec/70_reset_and_hazards.md R190, R193, R199):
reset gives one state from everywhere; a busy block takes nothing else; a stalled request leaves the block busy. -/

namespace Sys2Proof.Machine

variable {s t : State} {later : List HostInput}

/-! ### Waiting -/

/-- When the block takes nothing: no input, or a command while it is busy (R60, R193). -/
theorem State.portEvent_eq_nothing_iff :
    s.portEvent = .nothing ↔ s.host = [] ∨ (∃ w later, s.host = .command w :: later) ∧ s.cph ≠ .idle := by
  cases hh : s.host with
  | nil => simp [State.portEvent, hh]
  | cons input later =>
    cases input with
    | reset => simp [State.portEvent, hh]
    | command w => simp [State.portEvent, State.cmdReady, hh]

/-- Settles O13: there the block meets nothing on its inputs. -/
theorem stepWaits : Obligations.StepWaits := by
  intro s h
  rw [step, State.portEvent_eq_nothing_iff.2 h]

/-- Only hardware reset moves a busy block (R193, R199). -/
theorem step_of_busy (hc : s.cph ≠ .idle) (hreset : ∀ later, s.host ≠ .reset :: later) : step s = .next s := by
  refine stepWaits s ?_
  cases hh : s.host with
  | nil => exact .inl rfl
  | cons input later =>
    cases input with
    | reset => exact absurd hh (hreset later)
    | command w => exact .inr ⟨⟨w, later, rfl⟩, hc⟩

/-! ### Hardware reset -/

/-- An idle block offers `cmd_ready` and no other handshake (R77, R132, R134). -/
theorem State.handshakes_of_idle (hc : s.cph = .idle) (hf : s.fph = .idle) :
    s.cmdReady = true ∧ s.rspPort = none ∧ s.txPort = none ∧ s.rxReady = false := by
  simp [State.cmdReady, State.rspPort, State.txPort, State.rxReady, hc, hf]

theorem State.afterReset_hardwareReset (s : State) : AfterReset s s.hardwareReset := by
  obtain ⟨hcmd, hrsp, htx, hrx⟩ := State.handshakes_of_idle s.hardwareReset_cph s.hardwareReset_fph
  simp [AfterReset, hcmd, hrsp, htx, hrx]

theorem step_of_reset (hh : s.host = .reset :: later) : step s = .next s.popHost.hardwareReset := by
  simp [step, State.portEvent, hh]

theorem clock_of_rst {p : PortIn} (hp : p.rst = true) (s : State) : clock p s = .ok s.hardwareReset := by
  rw [clock, if_pos hp]

/-- Settles O9: a step takes the input and resets, a clock only resets. -/
theorem hardwareResetFromAnyState : Obligations.HardwareResetFromAnyState := by
  constructor
  · intro s later hh
    exact ⟨_, step_of_reset hh, s.popHost.afterReset_hardwareReset, by simp [hh]⟩
  · intro s p hp
    exact ⟨_, clock_of_rst hp s, s.afterReset_hardwareReset, s.hardwareReset_host⟩

/-! ### The flush that never ends -/

/-- A wire transaction whose transport stops for good (R199, log 25). -/
theorem State.exchange_of_never {n k : Nat} {a b : List Byte} (h : s.nextAnswer = .never k) :
    s.exchange n a b =
      .stalled ((s.onWire ((shiftFrame n a b).take k) s.rx s.obs).stuckIn n (phaseAt (ceil8 n) k)) := by
  unfold State.exchange
  rw [h]

/-- A wire transaction whose response stays short (R199). -/
theorem State.exchange_of_short {n : Nat} {a b arriving : List Byte} (h : s.nextAnswer = .bytes arriving)
    (hl : (s.rx ++ arriving).length < ceil8 n) :
    s.exchange n a b = .stalled ((s.onWire (shiftFrame n a b) []
      (Memory.writeRange s.obs 0 (s.rx ++ arriving))).stuckIn n (.rx, (s.rx ++ arriving).length)) := by
  unfold State.exchange
  rw [h]
  exact if_pos hl

theorem State.exchange_stalled_answers {n : Nat} {a b : List Byte} (h : s.exchange n a b = .stalled t) :
    t.answers = s.answers.tail := by
  rcases State.exchange_stalled h with ⟨_, _, rfl⟩ | ⟨_, _, _, rfl⟩ <;> simp

/-- A FLUSH whose request stalls gives no status: it leaves the block where the request stands (R199, log 12). -/
theorem exec_flush_of_stalled (ho : s.isOpen = true) (h0 : 0 < s.nbits) (he : s.err = false)
    (hN : s.nbytes ≤ s.cap) (hq : s.request = .stalled t) : exec .flush s = .next t := by
  rw [exec_flush_of_isOpen ho, State.flush_io h0 he hN, hq, Ran.outcome]

/-- Settles O32: either answer stalls the request, and a block stuck in it is busy. -/
theorem flushNeverAnswered : Obligations.FlushNeverAnswered := by
  intro s later ho he h0 hN hanswer
  obtain ⟨t, hq, hlater⟩ : ∃ t, s.request = .stalled t ∧ s.answers.tail = later := by
    rcases hanswer with ⟨k, ha⟩ | ⟨arriving, ha, hshort⟩
    · exact ⟨_, State.exchange_of_never (State.nextAnswer_cons s ha), by rw [ha, List.tail_cons]⟩
    · exact ⟨_, State.exchange_of_short (State.nextAnswer_cons s ha) hshort, by rw [ha, List.tail_cons]⟩
  obtain ⟨k, htx⟩ := State.request_stalled_tx hq
  obtain ⟨hw, hcph, _⟩ := State.exchange_stalled_frame hq
  have hbusy : t.cph ≠ .idle := by simp [hcph]
  exact ⟨t, k, exec_flush_of_stalled ho h0 he hN hq, State.busy_iff.2 hbusy, hw.responses, htx,
    (State.exchange_stalled_answers hq).trans hlater, hw.cmps, fun p i => by rw [hw.plane],
    ⟨hw.byteIdx, hw.bitMask⟩, ⟨hw.err, hw.errKind⟩,
    ⟨hw.diagValid, hw.diagIndex, hw.diagObs, hw.diagMask, hw.diagExp, hw.events⟩, hw.isOpen,
    ⟨hw.cap, hw.host⟩, fun _ hreset => step_of_busy hbusy hreset⟩

end Sys2Proof.Machine
end
